-- ==== Sys2Proof/Word.lean ====
section
/-! DEFINITION. The word types of the encoder (spec 00_scope.md R8). -/

namespace Sys2Proof

/-- A byte: 8 bits, bit 0 the least significant (R8). -/
abbrev Byte := BitVec 8

/-- A nibble: "4-bit half of a byte" (00_scope.md glossary). -/
abbrev Nibble := BitVec 4

/-- A 7-bit I2C device address (20_memory.md R30). -/
abbrev I2cAddr := BitVec 7

/-- The 24-bit request word (30_encoding.md R64). -/
abbrev ReqWord := BitVec 24

end Sys2Proof
end

