-- ==== Sys2Proof/Config.lean ====
section
/-! DEFINITION. The parameters of the block (spec 00_scope.md R6), each a field of `Config`, and the free values the
spec leaves to the environment. The values themselves (R6's table) stand in Sys2Proof/Machine/Defaults.lean. -/

namespace Sys2Proof

/-- What the transport answers to one write (20_memory.md R31, R33): `Ok`, `Err`, or nothing at all, for ever
(70_reset_and_hazards.md R208). -/
inductive Answer where
  | ok
  | err
  | never
  deriving DecidableEq, Repr, Inhabited

/-- The parameters of 00_scope.md R6, one field a row, but for the time base, on which "no rule depends". Durations are in microseconds (R7; they are lower bounds and no rule computes with them). -/
structure Config where
  /-- `I2C_ADDR`: the address the configuration input gives by default. -/
  i2cAddr : I2cAddr
  /-- `DATA_MASK`. -/
  dataMask : Byte
  /-- `PIN_RS`. -/
  pinRs : Byte
  /-- `PIN_RW`, "always driven 0". -/
  pinRw : Byte
  /-- `PIN_EN`. -/
  pinEn : Byte
  /-- `PIN_BL`. -/
  pinBl : Byte
  /-- `CMD_CLEARDISPLAY`. -/
  cmdClearDisplay : Byte
  /-- `CMD_RETURNHOME`. -/
  cmdReturnHome : Byte
  /-- `CMD_ENTRYMODESET`. -/
  cmdEntryModeSet : Byte
  /-- `CMD_DISPLAYCONTROL`. -/
  cmdDisplayControl : Byte
  /-- `CMD_CURSORSHIFT`. -/
  cmdCursorShift : Byte
  /-- `CMD_FUNCTIONSET`. -/
  cmdFunctionSet : Byte
  /-- `CMD_SETDDRAMADDR`. -/
  cmdSetDdramAddr : Byte
  /-- `CMD_NOP`. -/
  cmdNop : Byte
  /-- `FLAG_ENTRYLEFT`. -/
  flagEntryLeft : Byte
  /-- `FLAG_ENTRYSHIFTINC`. -/
  flagEntryShiftInc : Byte
  /-- `FLAG_DISPLAYON`. -/
  flagDisplayOn : Byte
  /-- `FLAG_CURSORON`. -/
  flagCursorOn : Byte
  /-- `FLAG_BLINKON`. -/
  flagBlinkOn : Byte
  /-- `FLAG_DISPLAYMOVE`. -/
  flagDisplayMove : Byte
  /-- `FLAG_MOVERIGHT`. -/
  flagMoveRight : Byte
  /-- `FLAG_8BITMODE`, "the block always sends 0". -/
  flag8BitMode : Byte
  /-- `FLAG_2LINE`, "the block always sends 1". -/
  flag2Line : Byte
  /-- `FLAG_5x10DOTS`, "the block always sends 0". -/
  flag5x10Dots : Byte
  /-- `ROW_OFFSET[0..3]`. -/
  rowOffset : List Byte
  /-- `ROWS`: the supported row count (D24). -/
  rows : Nat
  /-- `LINE_BASE[0..1]`. -/
  lineBase : List Byte
  /-- `INIT_NIBBLE_8BIT`. -/
  initNibble8Bit : Nibble
  /-- `INIT_NIBBLE_4BIT`. -/
  initNibble4Bit : Nibble
  /-- `T_INIT_SETTLE`, microseconds. -/
  tInitSettle : Nat
  /-- `T_EN_HIGH`, microseconds. -/
  tEnHigh : Nat
  /-- `T_EN_LOW`, microseconds. -/
  tEnLow : Nat
  /-- `T_CLEAR_HOME`, microseconds. -/
  tClearHome : Nat
  /-- `T_INIT_FINAL`, microseconds. -/
  tInitFinal : Nat
  /-- `BL_RESET`. -/
  blReset : Bool
  deriving DecidableEq, Repr

/-- FREE VALUE (20_memory.md R33): the transport's answer to the write of the given index, where the environment has not
been listed that far. "An oracle that may answer `Ok` or `Err` to any write", or never answers (R208). Log entry 6. -/
opaque Config.transportAnswer : Nat → Answer

/-- FREE VALUE: the DDRAM base of a row or line that a parameter set accepts and its table does not list; R6's own tables list
every row and line accepted. Log entry 18. -/
opaque Config.unlistedBase : Nat → Byte

/-- FREE VALUE (93_implementation_defined.md U15, 91_not_in_source.md N8): the byte on the expander's pins after the write of
the given index failed or was not answered; "whether the byte reached the expander is unknown to the block" (60_exceptions.md R161). Log entry 9. -/
opaque Config.pinsAfterFailedWrite : Nat → Byte

/-- FREE VALUE (U1): the enable level at power-up of the pins of the expander at an address. Log entry 19. -/
opaque Config.enableAtPowerUp : I2cAddr → Bool

/-- The block's identity string (00_scope.md R2). -/
def Config.identity : String :=
  "hd44780-4bit-i2c-encoder (mprostko/ruby-i2c-lcd, reimplementation specification v7)"

end Sys2Proof
end

