-- ==== Sys2Proof/Machine/Defaults.lean ====
section
/-! DEFINITION. The values of the parameters (spec 00_scope.md R6's table) and the values the model names where the spec
gives no reset value. -/

namespace Sys2Proof

/-- The table of R6. SETTLED by the source: the address, the data mask, register-select, set-DDRAM-address, ROWS, the row
and line bases, the bring-up nibbles, the durations. PRESUMED (the spec's "default", `[from general knowledge, not in source]`): the
read/write, enable and backlight pins (log entry 1), the other commands and the flags (log entry 2). DESIGN CHOICE: `CMD_NOP`
(log entry 3) and `BL_RESET`, "recommended 1" (log entry 5). -/
def Config.defaults : Config where
  i2cAddr := 0x27
  dataMask := 0xF0
  pinRs := 0x01
  pinRw := 0x02
  pinEn := 0x04
  pinBl := 0x08
  cmdClearDisplay := 0x01
  cmdReturnHome := 0x02
  cmdEntryModeSet := 0x04
  cmdDisplayControl := 0x08
  cmdCursorShift := 0x10
  cmdFunctionSet := 0x20
  cmdSetDdramAddr := 0x80
  cmdNop := 0x00
  flagEntryLeft := 0x02
  flagEntryShiftInc := 0x01
  flagDisplayOn := 0x04
  flagCursorOn := 0x02
  flagBlinkOn := 0x01
  flagDisplayMove := 0x08
  flagMoveRight := 0x04
  flag8BitMode := 0x10
  flag2Line := 0x08
  flag5x10Dots := 0x04
  rowOffset := [0x00, 0x40, 0x14, 0x54]
  rows := 4
  lineBase := [0x00, 0x40]
  initNibble8Bit := 0x3
  initNibble4Bit := 0x2
  tInitSettle := 100
  tEnHigh := 500
  tEnLow := 100
  tClearHome := 200000
  tInitFinal := 5000
  blReset := true

/-- DESIGN CHOICE (log entry 4): what a mirror register holds after reset. The spec: "After reset `displayControl`,
`entryMode` and `functionSet` are unspecified ... A model may hold "no value" (an option type) or any byte; the choice is
unobservable" (10_state.md R20). -/
def mirrorReset : Byte := 0x00

end Sys2Proof
end

