-- ==== Sys2Proof/Syntax.lean ====
section
/-! DEFINITION. The operations of the request port (spec 30_encoding.md R64 to R66), whole: one constructor per row of the
opcode table. -/

namespace Sys2Proof

/-- One operation. Operand fields hold the raw 8 bits of the request word; `row` and `line` are READ as signed where an
operation checks them (R65). `text` is the list of character codes that accompanies formats T and TL (R64, R65). -/
inductive Instr where
  | init
  | clear
  | home
  | displayOff
  | displayOn
  | cursorOff
  | cursorOn
  | blinkOff
  | blinkOn
  | rightToLeft
  | leftToRight
  | autoscrollOff
  | autoscrollOn
  | backlightOff
  | backlightOn
  | cursorMoveLeft
  | cursorMoveRight
  | displayMoveLeft
  | displayMoveRight
  | setCursor (col row : Byte)
  | write (text : List Byte)
  | writeln (text : List Byte) (line : Byte)
  | sendCommand (byte : Byte)
  | sendData (byte : Byte)
  deriving DecidableEq, Repr

/-- What the requester presents: the 24-bit word and the text that goes with it (R64; empty where none is supplied). -/
structure Request where
  word : ReqWord
  text : List Byte
  deriving DecidableEq, Repr

end Sys2Proof
end

