-- ==== Sys2Proof/Machine/State.lean ====
section
/-! DEFINITION. The state of the encoder, its environment and what is observed of it, as plain data (spec 10_state.md R10,
00_scope.md R9, 20_memory.md R30 to R33), the reasons a step can stop, and the state after reset (70_reset_and_hazards.md
R190). -/

namespace Sys2Proof.Machine

/-- `phase` (10_state.md R19). -/
inductive Phase where
  | uninit
  | ready
  | failed
  deriving DecidableEq, Repr

/-- The status an operation ends with (60_exceptions.md R160). -/
inductive Status where
  | ok
  | transportError
  | invalidArgument
  | initializationFailure
  | notReady
  deriving DecidableEq, Repr

/-- The five delays of the delay generator (60_exceptions.md R172). -/
inductive DelayName where
  | initSettle
  | enHigh
  | enLow
  | clearHome
  | initFinal
  deriving DecidableEq, Repr

/-- One event of the output trace (00_scope.md R9): `W(v)`, `W!(v)` and `Dly(T)`, the writes with the address they went to
(R23). -/
inductive Event where
  | written (addr : I2cAddr) (v : Byte)
  | writeFailed (addr : I2cAddr) (v : Byte)
  | delay (d : DelayName)
  deriving DecidableEq, Repr

/-- Where the sequencer stands between two steps of the model (10_state.md R12, 70_reset_and_hazards.md R190, R191): about to
run the boot INIT, idle, with a write outstanding that has not been answered (20_memory.md R32, R208), or stopped inside a
delay by the reset input, on whose release the address input holds `addr` (60_exceptions.md R175, R202). -/
inductive Sequencer where
  | boot
  | idle
  | waiting (addr : I2cAddr) (v : Byte)
  | resetting (addr : I2cAddr)
  deriving DecidableEq, Repr

/-- What the outside world does next: a request on the request port (30_encoding.md R64), or a reset between two operations or
while a write is outstanding, on whose release the address configuration input holds `addr` (10_state.md R23,
70_reset_and_hazards.md R190; log entry 8). -/
inductive Input where
  | request (r : Request)
  | reset (addr : I2cAddr)
  deriving DecidableEq, Repr

/-- The bytes held at the addresses of the one address space, the I2C device addresses (20_memory.md R30): strictly rising
addresses. An address that is not listed has never been written and has no value the model could give (log entry 9). -/
abbrev Memory := List Host.Cell

/-- The state. First the six items of 10_state.md R10, then the parameters, the sequencer, the inputs that the environment
still has to give, and the observation. -/
structure State where
  /-- `displayControl` (R15). -/
  displayControl : Byte
  /-- `entryMode` (R16). -/
  entryMode : Byte
  /-- `functionSet` (R17). -/
  functionSet : Byte
  /-- `backlightBit` (R18). -/
  backlightBit : Bool
  /-- `phase` (R19). -/
  phase : Phase
  /-- `I2C_ADDR`, sampled at reset and constant afterwards (R23). -/
  i2cAddr : I2cAddr
  /-- The parameters of 00_scope.md R6; nothing writes them. -/
  cfg : Config
  /-- The sequencer between operations (R12, R191). -/
  sequencer : Sequencer
  /-- Requests and resets still to come, the next first (the model's own field, log entry 11). -/
  inputs : List Input
  /-- The transport's answers to the writes still to come, the next first; beyond the list the free value
  `Config.transportAnswer` answers (the model's own field, log entry 6). -/
  answers : List Answer
  /-- Resets that land inside a delay, the next first: so many delays elapse, and the one after them is cut by a reset on whose
  release the address input holds the given address (R175, R202; the model's own field, log entry 8). -/
  delayResets : List (Nat × I2cAddr)
  /-- How many transport writes have been made: the argument of the free values (the model's own field, log entry 6). -/
  transportCalls : Nat
  /-- The output trace (R9), the oldest event first. -/
  trace : List Event
  /-- The statuses posted on the response port (R160), the oldest first; "part of its observation, not ... state of the
  block" (R25). -/
  responses : List Status
  /-- The expander's output latch (R30, R34). -/
  expander : Memory
  /-- What the pins of each expander have held, the oldest first: the byte of each write, or the free value where the write
  failed or was not answered (the model's own field, for the ghost record of R24; log entries 9, 19). -/
  pinLog : List (I2cAddr × Byte)
  deriving DecidableEq, Repr

/-- Why the machine stops. -/
inductive Fault where
  /-- Raised by a step of a block whose outstanding transport write is never answered and that no reset releases: "an
  unanswered write hangs the operation" (D23), "`stuck`: the operation never ends" (U14; 70_reset_and_hazards.md R208). Safe:
  the hardware waits for ever, the model stops. -/
  | transportNeverAnswers
  deriving DecidableEq, Repr

/-- Why an operation has no meaning. -/
inductive Refusal where
  /-- Raised by an arm of exec whose instruction has no meaning yet; safe. No arm raises it now. -/
  | notModelled (mnemonic : String)
  deriving DecidableEq, Repr

/-- The machine right after reset (70_reset_and_hazards.md R190): `phase = Uninit`, `backlightBit = BL_RESET`, `I2C_ADDR` the
default of its configuration input, the boot INIT about to start, no write outstanding. DESIGN CHOICE: the mirrors (log entry
4), no input, no answer and no reset inside a delay listed (log entries 6, 8, 11), nothing observed (log entry 12). -/
def State.reset : State where
  displayControl := mirrorReset
  entryMode := mirrorReset
  functionSet := mirrorReset
  backlightBit := Config.defaults.blReset
  phase := .uninit
  i2cAddr := Config.defaults.i2cAddr
  cfg := Config.defaults
  sequencer := .boot
  inputs := []
  answers := []
  delayResets := []
  transportCalls := 0
  trace := []
  responses := []
  expander := []
  pinLog := []

end Sys2Proof.Machine
end

