-- ==== Sys2Proof/Machine/Flags.lean ====
section
/-! DEFINITION. Flag bits inside the mirror registers (spec 10_state.md R13 to R17) and the command bytes built of flags
(30_encoding.md R53 to R59). The block has no arithmetic flags and no condition codes (R13). -/

namespace Sys2Proof.Machine

/-- Setting a flag bit: "bitwise OR (`| flag`)" (40_primitives.md R87). -/
def setFlag (flag v : Byte) : Byte := v ||| flag

/-- Clearing a flag bit: "bitwise AND with a constant mask (`& ~flag`)" (R87). -/
def clearFlag (flag v : Byte) : Byte := v &&& ~~~flag

/-- Whether a flag bit is set. -/
def hasFlag (flag v : Byte) : Bool := v &&& flag != 0

/-- Entry mode set: `CMD_ENTRYMODESET | (L ? FLAG_ENTRYLEFT : 0) | (S ? FLAG_ENTRYSHIFTINC : 0)` (R55). -/
def entryModeCommand (c : Config) (left shiftInc : Bool) : Byte :=
  c.cmdEntryModeSet ||| (if left then c.flagEntryLeft else 0) ||| (if shiftInc then c.flagEntryShiftInc else 0)

/-- Display control: `CMD_DISPLAYCONTROL | (D ? FLAG_DISPLAYON : 0) | (C ? FLAG_CURSORON : 0) | (B ? FLAG_BLINKON : 0)`
(R56). -/
def displayControlCommand (c : Config) (display cursor blink : Bool) : Byte :=
  c.cmdDisplayControl ||| (if display then c.flagDisplayOn else 0) ||| (if cursor then c.flagCursorOn else 0) |||
    (if blink then c.flagBlinkOn else 0)

/-- Cursor or display shift: `CMD_CURSORSHIFT | (M ? FLAG_DISPLAYMOVE : 0) | (R ? FLAG_MOVERIGHT : 0)` (R57). -/
def shiftCommand (c : Config) (moveDisplay right : Bool) : Byte :=
  c.cmdCursorShift ||| (if moveDisplay then c.flagDisplayMove else 0) ||| (if right then c.flagMoveRight else 0)

/-- Function set: identifier, bus width, line count and font (R17); the block's only value has `FLAG_2LINE` alone (R59). -/
def functionSetCommand (c : Config) (bus8 twoLine font5x10 : Bool) : Byte :=
  c.cmdFunctionSet ||| (if bus8 then c.flag8BitMode else 0) ||| (if twoLine then c.flag2Line else 0) |||
    (if font5x10 then c.flag5x10Dots else 0)

end Sys2Proof.Machine
end

