-- ==== Sys2Proof/Machine/Operands.lean ====
section
/-! DEFINITION. The operands of the operations: range checks, table lookups and the set-DDRAM-address command byte (spec
30_encoding.md R58, R65; 42_direct_commands.md R116; 44_text.md R151). -/

namespace Sys2Proof.Machine

/-- The check of SET_CURSOR: `row < 0 or row >= ROWS` is rejected (R116); `row` is read as signed (R65). -/
def rowLegal (c : Config) (row : Byte) : Bool := decide (0 ≤ row.toInt) && decide (row.toInt < (c.rows : Int))

/-- The check of WRITELN: `line != 0 and line != 1` is rejected (R151); `line` is read as signed (R65). -/
def lineLegal (line : Byte) : Bool := decide (line.toInt = 0) || decide (line.toInt = 1)

/-- `ROW_OFFSET[row]` of a legal row (R116); a free value where the table ends before `ROWS` (log entry 18). -/
def rowOffsetOf (c : Config) (row : Byte) : Byte := c.rowOffset.getD row.toNat (Config.unlistedBase row.toNat)

/-- `LINE_BASE[line]` of a legal line (R151); a free value where the table ends before it (log entry 18). -/
def lineBaseOf (c : Config) (line : Byte) : Byte := c.lineBase.getD line.toNat (Config.unlistedBase line.toNat)

/-- `addr8 = (col + ROW_OFFSET[row]) mod 256` (R65, R116): addition on 8 bits drops the carry. -/
def ddramAddr (c : Config) (col row : Byte) : Byte := col + rowOffsetOf c row

/-- Set DDRAM address: `CMD_SETDDRAMADDR | addr` (R58). -/
def setDdramCommand (c : Config) (addr : Byte) : Byte := c.cmdSetDdramAddr ||| addr

/-- The mode flag in the byte: "`command` = 0, `data` = 1" (R82), at `PIN_RS`. -/
def modeBits (c : Config) (data : Bool) : Byte := if data then c.pinRs else 0

/-- The high nibble's payload: `(v & 0xF0) | m` (R82). -/
def highPayload (c : Config) (v : Byte) (data : Bool) : Byte := (v &&& c.dataMask) ||| modeBits c data

/-- The low nibble's payload: `((v << 4) & 0xF0) | m` (R82). -/
def lowPayload (c : Config) (v : Byte) (data : Bool) : Byte := ((v <<< 4) &&& c.dataMask) ||| modeBits c data

/-- The payload of a raw nibble: `(n << 4) & 0xF0`, mode flag 0 (R83). -/
def rawPayload (c : Config) (n : Nibble) : Byte := (n.zeroExtend 8 <<< 4) &&& c.dataMask

end Sys2Proof.Machine
end

