-- ==== Sys2Proof/Machine/Ops.lean ====
section
/-! DEFINITION. The named operations every meaning is made of: the address space, the transport write, the delay, the pulse,
the nibble encoder (spec 20_memory.md, 40_primitives.md), the admission check, and how an operation ends, with or without an
error (60_exceptions.md). -/

namespace Sys2Proof.Machine

/-! ## The address space (20_memory.md R30, R34) -/

/-- The byte held at an address; none where nothing has been written. The block itself never reads (R3). -/
def Memory.read : Memory → Nat → Option Byte
  | [], _ => none
  | (k, v) :: rest, a => if k = a then some v else Memory.read rest a

/-- Setting the byte at an address, keeping the addresses strictly rising. -/
def Memory.write : Memory → Nat → Byte → Memory
  | [], a, b => [(a, b)]
  | (k, v) :: rest, a, b =>
    if a < k then (a, b) :: (k, v) :: rest
    else if a = k then (a, b) :: rest
    else (k, v) :: Memory.write rest a b

/-- Every listed address is above `lo` (where one is given) and the addresses rise strictly. -/
def Memory.risesFrom : Option Nat → Memory → Bool
  | _, [] => true
  | lo, (k, _) :: rest => lo.all (fun l => decide (l < k)) && Memory.risesFrom (some k) rest

/-- The canonical form: strictly rising 7-bit addresses (R30). No entry can equal what an unlisted address reads as, since
that is no value. -/
def Memory.wf (m : Memory) : Bool := m.all (fun e => decide (e.1 < 128)) && Memory.risesFrom none m

/-! ## Running, failed, stopped -/

/-- How far an operation has come: still running, ended by a transport `Err` (60_exceptions.md R161), or stopped with nothing
posted, waiting for an answer that never comes (70_reset_and_hazards.md R208) or cut inside a delay by a reset (R175). -/
inductive Run where
  | going (s : State)
  | failed (s : State)
  | stopped (s : State)
  deriving DecidableEq, Repr

/-- The next line of the pseudocode: it runs only if every line before it has (R161: "no later line of its pseudocode
runs"). -/
def Run.andThen (r : Run) (f : State → Run) : Run :=
  match r with
  | .going s => f s
  | .failed s => .failed s
  | .stopped s => .stopped s

/-- The transport's answer to the write `k` writes ahead: the listed one, or the free value (R33, log entry 6). -/
def State.answerAt (s : State) (k : Nat) : Answer :=
  s.answers.getD k (Config.transportAnswer (s.transportCalls + k))

/-- A transport write has been made: its answer and its index are used up. -/
def State.countWrite (s : State) : State :=
  { s with answers := s.answers.tail, transportCalls := s.transportCalls + 1 }

/-- An event is appended to the output trace (R9). -/
def State.log (e : Event) (s : State) : State := { s with trace := s.trace ++ [e] }

/-- The pins of the expander at an address (R30, R34), and the record of what they have held. -/
def State.setPins (a : I2cAddr) (v : Byte) (s : State) : State :=
  { s with expander := s.expander.write a.toNat v, pinLog := s.pinLog ++ [(a, v)] }

/-- A write answered `Ok`: the event `W(v)`, and the pins hold `v` "until the next write" (R34). -/
def State.wrote (v : Byte) (s : State) : State := ((s.countWrite).log (.written s.i2cAddr v)).setPins s.i2cAddr v

/-- A write answered `Err`: the event `W!(v)`; the pins hold a free value (U15). -/
def State.wroteBadly (v : Byte) (s : State) : State :=
  ((s.countWrite).log (.writeFailed s.i2cAddr v)).setPins s.i2cAddr (Config.pinsAfterFailedWrite s.transportCalls)

/-- A write never answered: no event, the write stays outstanding (R32), the pins hold a free value. -/
def State.writePending (v : Byte) (s : State) : State :=
  { (s.countWrite).setPins s.i2cAddr (Config.pinsAfterFailedWrite s.transportCalls) with
    sequencer := .waiting s.i2cAddr v }

/-- `MemWrite(I2C_ADDR, 1, v)`, the one memory primitive (00_scope.md R8, 20_memory.md R31, 40_primitives.md R89). -/
def memWrite (v : Byte) (s : State) : Run :=
  match s.answerAt 0 with
  | .ok => .going (s.wrote v)
  | .err => .failed (s.wroteBadly v)
  | .never => .stopped (s.writePending v)

/-- One line of pseudocode below the level of registers: a transport write or a delay (R8). -/
inductive Micro where
  | put (v : Byte)
  | hold (d : DelayName)
  deriving DecidableEq, Repr

/-- `n` delays have elapsed: as many fewer until the next one that a reset cuts. -/
def tickDelays (n : Nat) : List (Nat × I2cAddr) → List (Nat × I2cAddr)
  | [] => []
  | (k, a) :: later => (k - n, a) :: later

/-- A delay has elapsed: its event (R9). -/
def State.held (d : DelayName) (s : State) : State :=
  { s.log (.delay d) with delayResets := tickDelays 1 s.delayResets }

/-- `Delay(T)`: it "cannot fail" (R8), and elapses unless a reset lands inside it, which stops the operation there: no event,
since the duration was not waited for, and no response (60_exceptions.md R175, 70_reset_and_hazards.md R202). -/
def hold (d : DelayName) (s : State) : Run :=
  match s.delayResets with
  | [] => .going (s.held d)
  | (0, a) :: later => .stopped { s with sequencer := .resetting a, delayResets := later }
  | (_ + 1, _) :: _ => .going (s.held d)

/-- Lines run "strictly in the written order" (10_state.md R12). -/
def run : List Micro → State → Run
  | [], s => .going s
  | .put v :: rest, s => (memWrite v s).andThen (run rest)
  | .hold d :: rest, s => (hold d s).andThen (run rest)

/-- `Delay(T)` as a line of its own. -/
def delay (d : DelayName) (s : State) : Run := run [.hold d] s

/-! ## Pulse, compose, nibble encoder (40_primitives.md) -/

/-- `pulse(b)` (R80): enable set, hold, enable clear, hold. -/
def pulse (b : Byte) (s : State) : Run :=
  run [.put (b ||| s.cfg.pinEn), .hold .enHigh, .put (b &&& ~~~s.cfg.pinEn), .hold .enLow] s

/-- `bl()`: `(backlightBit = 1 ? PIN_BL : 0x00)` (00_scope.md R8). -/
def State.bl (s : State) : Byte := if s.backlightBit then s.cfg.pinBl else 0

/-- `compose(p)` is `p | bl()`, read "at the moment each byte is composed" (R81). -/
def compose (p : Byte) (s : State) : Byte := p ||| s.bl

/-- One pulse of a payload composed with the backlight bit. -/
def pulseComposed (p : Byte) (s : State) : Run := pulse (compose p s) s

/-- `sendByte(v, m)` (R82): the high nibble's pulse, then the low nibble's. -/
def sendByte (v : Byte) (data : Bool) (s : State) : Run :=
  (pulseComposed (highPayload s.cfg v data) s).andThen fun s => pulseComposed (lowPayload s.cfg v data) s

/-- `rawNibble(n)` (R83): one pulse, mode flag 0. -/
def rawNibble (n : Nibble) (s : State) : Run := pulseComposed (rawPayload s.cfg n) s

/-- `sendCommand(v)` is `sendByte(v, 0)` (R84). -/
def sendCommand (v : Byte) (s : State) : Run := sendByte v false s

/-- `sendData(c)` is `sendByte(c, 1)` (R85). -/
def sendData (v : Byte) (s : State) : Run := sendByte v true s

/-- `for i = 0 to len(text) - 1, in increasing order: sendData(text[i])` (44_text.md R150). -/
def sendText : List Byte → State → Run
  | [], s => .going s
  | c :: cs, s => (sendData c s).andThen (sendText cs)

/-! ## Responses, errors, admission (60_exceptions.md) -/

/-- The operation ends with one response (R160) and "after any response the block is idle and takes the next request"
(R169). -/
def respond (st : Status) (s : State) : State :=
  { s with responses := s.responses ++ [st], sequencer := .idle }

/-- `raise <Status>`: "end the current operation at once with the named status" (00_scope.md R8). This is all there is of
taking an exception: "no vector, no handler, no saved state, no mode change other than `phase <- Failed` in INIT" (R168), and
"there is nothing to return from" (R169). -/
def raise (st : Status) (s : State) : Host.Outcome State Fault Refusal := .next (respond st s)

/-- How an operation other than INIT ends: `return OK`, or `TransportError` with every state write before it kept and `phase`
unchanged (R161, R163); one that waits or was cut by a reset has posted nothing (R208, R175). -/
def endOperation (r : Run) : Host.Outcome State Fault Refusal :=
  .next (match r with
    | .going s => respond .ok s
    | .failed s => respond .transportError s
    | .stopped s => s)

/-- How INIT ends: `phase <- Ready` and OK, or `phase <- Failed` and `InitializationFailure` (41_init.md R100, R164). -/
def endInit (r : Run) : Host.Outcome State Fault Refusal :=
  .next (match r with
    | .going s => respond .ok { s with phase := .ready }
    | .failed s => respond .initializationFailure { s with phase := .failed }
    | .stopped s => s)

/-- Admission of every operation but INIT (R165, check 2 of R166): outside `Ready` it is refused with `NotReady`, "no
transport call, no state change". -/
def admitted (s : State) (op : State → Host.Outcome State Fault Refusal) : Host.Outcome State Fault Refusal :=
  if s.phase = .ready then op s else raise .notReady s

/-- A direct command: one command byte, then the given delays (42_direct_commands.md). -/
def directCommand (v : Byte) (after : List Micro) (s : State) : Host.Outcome State Fault Refusal :=
  endOperation ((sendCommand v s).andThen (run after))

/-- `displayControl <- v; sendCommand(displayControl)` (10_state.md R14; 43_register_toggles.md). -/
def sendDisplayControl (v : Byte) (s : State) : Run := sendCommand v { s with displayControl := v }

/-- `entryMode <- v; sendCommand(entryMode)` (10_state.md R14; 43_register_toggles.md). -/
def sendEntryMode (v : Byte) (s : State) : Run := sendCommand v { s with entryMode := v }

/-- `functionSet <- v; sendCommand(functionSet)` (41_init.md R100). -/
def sendFunctionSet (v : Byte) (s : State) : Run := sendCommand v { s with functionSet := v }

/-- `backlightBit <- v; sendCommand(CMD_NOP)` (43_register_toggles.md R140, R141). -/
def sendBacklight (v : Bool) (s : State) : Run := sendCommand s.cfg.cmdNop { s with backlightBit := v }

/-! ## Reset (70_reset_and_hazards.md R190) -/

/-- The state when reset is released, the configuration input holding `addr`: the spec's values; the mirrors as the model
names them (log entry 4). The parameters, the environment and the observation go on (log entry 17); a write outstanding is
outstanding no more, and a cut operation is over. -/
def applyReset (addr : I2cAddr) (s : State) : State :=
  { s with
    displayControl := mirrorReset
    entryMode := mirrorReset
    functionSet := mirrorReset
    backlightBit := s.cfg.blReset
    phase := .uninit
    i2cAddr := addr
    sequencer := .boot }

end Sys2Proof.Machine
end

