-- ==== Sys2Proof/Machine/Direct.lean ====
section
/-! DEFINITION. The meanings of the direct commands (spec 42_direct_commands.md R110 to R119): a byte that is kept in no
mirror register. -/

namespace Sys2Proof.Machine

/-- `CLEAR` (R110): `CMD_CLEARDISPLAY`, then `Delay(T_CLEAR_HOME)`. -/
def execClear (s : State) : Host.Outcome State Fault Refusal :=
  admitted s fun s => directCommand s.cfg.cmdClearDisplay [.hold .clearHome] s

/-- `HOME` (R111): `CMD_RETURNHOME`, then `Delay(T_CLEAR_HOME)`. -/
def execHome (s : State) : Host.Outcome State Fault Refusal :=
  admitted s fun s => directCommand s.cfg.cmdReturnHome [.hold .clearHome] s

/-- `CURSOR_MOVE_LEFT` (R112): `CMD_CURSORSHIFT`. -/
def execCursorMoveLeft (s : State) : Host.Outcome State Fault Refusal :=
  admitted s fun s => directCommand (shiftCommand s.cfg false false) [] s

/-- `CURSOR_MOVE_RIGHT` (R113): `CMD_CURSORSHIFT | FLAG_MOVERIGHT`. -/
def execCursorMoveRight (s : State) : Host.Outcome State Fault Refusal :=
  admitted s fun s => directCommand (shiftCommand s.cfg false true) [] s

/-- `DISPLAY_MOVE_LEFT` (R114): `CMD_CURSORSHIFT | FLAG_DISPLAYMOVE`. -/
def execDisplayMoveLeft (s : State) : Host.Outcome State Fault Refusal :=
  admitted s fun s => directCommand (shiftCommand s.cfg true false) [] s

/-- `DISPLAY_MOVE_RIGHT` (R115): `CMD_CURSORSHIFT | FLAG_DISPLAYMOVE | FLAG_MOVERIGHT`. -/
def execDisplayMoveRight (s : State) : Host.Outcome State Fault Refusal :=
  admitted s fun s => directCommand (shiftCommand s.cfg true true) [] s

/-- `SET_CURSOR col, row` (R116): a row outside `0..ROWS-1` is `InvalidArgument` with no transport call, after the phase
check (R166); else `0x80 | addr8`. -/
def execSetCursor (col row : Byte) (s : State) : Host.Outcome State Fault Refusal :=
  admitted s fun s =>
    if rowLegal s.cfg row then directCommand (setDdramCommand s.cfg (ddramAddr s.cfg col row)) [] s
    else raise .invalidArgument s

/-- `SEND_COMMAND byte` (R118): the byte as a command; no mirror register is touched, no delay follows. -/
def execSendCommand (byte : Byte) (s : State) : Host.Outcome State Fault Refusal :=
  admitted s fun s => directCommand byte [] s

/-- `SEND_DATA byte` (R119): the byte as data. -/
def execSendData (byte : Byte) (s : State) : Host.Outcome State Fault Refusal :=
  admitted s fun s => endOperation (sendData byte s)

end Sys2Proof.Machine
end

