-- ==== Sys2Proof/Machine/Init.lean ====
section
/-! DEFINITION. The meaning of INIT (spec 41_init.md R100 to R102). -/

namespace Sys2Proof.Machine

/-- One turn of step 1: `rawNibble(INIT_NIBBLE_8BIT)`, then `Delay(T_INIT_SETTLE)` (R100). -/
def bringUpNibble (s : State) : Run := (rawNibble s.cfg.initNibble8Bit s).andThen (delay .initSettle)

/-- Steps 1 and 2: three times `0x3`, once `0x2` (R100). -/
def bringUp (s : State) : Run :=
  (((bringUpNibble s).andThen bringUpNibble).andThen bringUpNibble).andThen fun s => rawNibble s.cfg.initNibble4Bit s

/-- `functionSet` of INIT: "function-set (4-bit mode, 2-line, 5x8 font)" (R59). -/
def initFunctionSet (c : Config) : Byte := functionSetCommand c false true false

/-- `displayControl` of INIT: "display-control (display on, cursor off, blink off)" (R15). -/
def initDisplayControl (c : Config) : Byte := displayControlCommand c true false false

/-- `entryMode` of INIT: "entry-mode (left-to-right)" (R16). -/
def initEntryMode (c : Config) : Byte := entryModeCommand c true false

/-- Steps 3 to 5 (R100): each register is written immediately before it is sent. -/
def initCommands (s : State) : Run :=
  ((((sendFunctionSet (initFunctionSet s.cfg) s).andThen fun s =>
    sendDisplayControl (initDisplayControl s.cfg) s).andThen fun s =>
    sendEntryMode (initEntryMode s.cfg) s).andThen fun s =>
    sendCommand s.cfg.cmdClearDisplay s).andThen (delay .initFinal)

/-- `INIT` (R100), admitted in every phase: `phase <- Uninit`, the five steps, and the end of R100. -/
def execInit (s : State) : Host.Outcome State Fault Refusal :=
  endInit ((bringUp { s with phase := .uninit }).andThen initCommands)

/-- What a completed boot INIT leaves (R100, R191): used where a request is placed at the port of a block that has not
booted yet, since no request is accepted before (log entry 10). -/
def bootCompleted (s : State) : State :=
  { s with
    functionSet := initFunctionSet s.cfg
    displayControl := initDisplayControl s.cfg
    entryMode := initEntryMode s.cfg
    phase := .ready
    sequencer := .idle }

end Sys2Proof.Machine
end

