-- ==== Sys2Proof/Machine/Text.lean ====
section
/-! DEFINITION. The meanings of the text operations (spec 44_text.md R150, R151). -/

namespace Sys2Proof.Machine

/-- `WRITE text` (R150): each character as a data byte; no addressing command. -/
def execWrite (text : List Byte) (s : State) : Host.Outcome State Fault Refusal :=
  admitted s fun s => endOperation (sendText text s)

/-- `WRITELN text, line` (R151): a line other than 0 and 1 is `InvalidArgument` with no transport call, after the phase check
(R166); else the line's set-address command and the characters, as one operation (R70). -/
def execWriteln (text : List Byte) (line : Byte) (s : State) : Host.Outcome State Fault Refusal :=
  admitted s fun s =>
    if lineLegal line then
      endOperation ((sendCommand (setDdramCommand s.cfg (lineBaseOf s.cfg line)) s).andThen (sendText text))
    else raise .invalidArgument s

end Sys2Proof.Machine
end

