-- ==== Sys2Proof/Machine/Toggles.lean ====
section
/-! DEFINITION. The meanings of the register toggles and of the backlight operations (spec 43_register_toggles.md R130 to
R142): "every toggle both mutates state and transmits", the register before the first transport call. -/

namespace Sys2Proof.Machine

/-- `DISPLAY_ON` (R130): `displayControl | FLAG_DISPLAYON`. -/
def execDisplayOn (s : State) : Host.Outcome State Fault Refusal :=
  admitted s fun s => endOperation (sendDisplayControl (setFlag s.cfg.flagDisplayOn s.displayControl) s)

/-- `DISPLAY_OFF` (R131): `displayControl & ~FLAG_DISPLAYON`. -/
def execDisplayOff (s : State) : Host.Outcome State Fault Refusal :=
  admitted s fun s => endOperation (sendDisplayControl (clearFlag s.cfg.flagDisplayOn s.displayControl) s)

/-- `CURSOR_ON` (R132): `displayControl | FLAG_CURSORON`. -/
def execCursorOn (s : State) : Host.Outcome State Fault Refusal :=
  admitted s fun s => endOperation (sendDisplayControl (setFlag s.cfg.flagCursorOn s.displayControl) s)

/-- `CURSOR_OFF` (R133): `displayControl & ~FLAG_CURSORON`. -/
def execCursorOff (s : State) : Host.Outcome State Fault Refusal :=
  admitted s fun s => endOperation (sendDisplayControl (clearFlag s.cfg.flagCursorOn s.displayControl) s)

/-- `BLINK_ON` (R134): `displayControl | FLAG_BLINKON`. -/
def execBlinkOn (s : State) : Host.Outcome State Fault Refusal :=
  admitted s fun s => endOperation (sendDisplayControl (setFlag s.cfg.flagBlinkOn s.displayControl) s)

/-- `BLINK_OFF` (R135): `displayControl & ~FLAG_BLINKON`. -/
def execBlinkOff (s : State) : Host.Outcome State Fault Refusal :=
  admitted s fun s => endOperation (sendDisplayControl (clearFlag s.cfg.flagBlinkOn s.displayControl) s)

/-- `LEFT_TO_RIGHT` (R136): `entryMode | FLAG_ENTRYLEFT`. -/
def execLeftToRight (s : State) : Host.Outcome State Fault Refusal :=
  admitted s fun s => endOperation (sendEntryMode (setFlag s.cfg.flagEntryLeft s.entryMode) s)

/-- `RIGHT_TO_LEFT` (R137): `entryMode & ~FLAG_ENTRYLEFT`. -/
def execRightToLeft (s : State) : Host.Outcome State Fault Refusal :=
  admitted s fun s => endOperation (sendEntryMode (clearFlag s.cfg.flagEntryLeft s.entryMode) s)

/-- `AUTOSCROLL_ON` (R138): `entryMode | FLAG_ENTRYSHIFTINC`. -/
def execAutoscrollOn (s : State) : Host.Outcome State Fault Refusal :=
  admitted s fun s => endOperation (sendEntryMode (setFlag s.cfg.flagEntryShiftInc s.entryMode) s)

/-- `AUTOSCROLL_OFF` (R139): `entryMode & ~FLAG_ENTRYSHIFTINC`. -/
def execAutoscrollOff (s : State) : Host.Outcome State Fault Refusal :=
  admitted s fun s => endOperation (sendEntryMode (clearFlag s.cfg.flagEntryShiftInc s.entryMode) s)

/-- `BACKLIGHT_ON` (R140): `backlightBit <- 1`, then the no-op command. -/
def execBacklightOn (s : State) : Host.Outcome State Fault Refusal :=
  admitted s fun s => endOperation (sendBacklight true s)

/-- `BACKLIGHT_OFF` (R141): `backlightBit <- 0`, then the no-op command. -/
def execBacklightOff (s : State) : Host.Outcome State Fault Refusal :=
  admitted s fun s => endOperation (sendBacklight false s)

end Sys2Proof.Machine
end

