-- ==== Sys2Proof/Machine/Dispatch.lean ====
section
/-! DEFINITION. One arm per operation (spec 30_encoding.md R66). -/

namespace Sys2Proof.Machine

def exec (i : Instr) (s : State) : Host.Outcome State Fault Refusal :=
  match i with
  -- system: 41_init.md
  | .init => Sys2Proof.Machine.execInit s
  -- direct commands: 42_direct_commands.md
  | .clear => Sys2Proof.Machine.execClear s
  | .home => Sys2Proof.Machine.execHome s
  -- toggles: 43_register_toggles.md
  | .displayOff => Sys2Proof.Machine.execDisplayOff s
  | .displayOn => Sys2Proof.Machine.execDisplayOn s
  | .cursorOff => Sys2Proof.Machine.execCursorOff s
  | .cursorOn => Sys2Proof.Machine.execCursorOn s
  | .blinkOff => Sys2Proof.Machine.execBlinkOff s
  | .blinkOn => Sys2Proof.Machine.execBlinkOn s
  | .rightToLeft => Sys2Proof.Machine.execRightToLeft s
  | .leftToRight => Sys2Proof.Machine.execLeftToRight s
  | .autoscrollOff => Sys2Proof.Machine.execAutoscrollOff s
  | .autoscrollOn => Sys2Proof.Machine.execAutoscrollOn s
  | .backlightOff => Sys2Proof.Machine.execBacklightOff s
  | .backlightOn => Sys2Proof.Machine.execBacklightOn s
  -- direct commands: 42_direct_commands.md
  | .cursorMoveLeft => Sys2Proof.Machine.execCursorMoveLeft s
  | .cursorMoveRight => Sys2Proof.Machine.execCursorMoveRight s
  | .displayMoveLeft => Sys2Proof.Machine.execDisplayMoveLeft s
  | .displayMoveRight => Sys2Proof.Machine.execDisplayMoveRight s
  | .setCursor col row => Sys2Proof.Machine.execSetCursor col row s
  -- text: 44_text.md
  | .write text => Sys2Proof.Machine.execWrite text s
  | .writeln text line => Sys2Proof.Machine.execWriteln text line s
  -- direct commands: 42_direct_commands.md
  | .sendCommand byte => Sys2Proof.Machine.execSendCommand byte s
  | .sendData byte => Sys2Proof.Machine.execSendData byte s

end Sys2Proof.Machine
end

