-- ==== Sys2Proof/WellFormed.lean ====
section
/-! DEFINITION. Which operations have their operands in the ranges the spec calls legal (30_encoding.md R65). An ill-formed
operation is still requested and answered (InvalidArgument): it is no hole in the machine. -/

namespace Sys2Proof

/-- `row`, "signed two's complement, `-128..127`. Legal values `0..3`" (R65). -/
def rowWf (row : Byte) : Bool := decide (0 ≤ row.toInt) && decide (row.toInt ≤ 3)

/-- `line`, "taken as signed, legal values `0` and `1`" (R65). -/
def lineWf (line : Byte) : Bool := decide (line.toInt = 0) || decide (line.toInt = 1)

/-- The operand check; `col` "has no range and no check", `byte` and `text` take every value (R65). -/
def Instr.wf : Instr → Bool
  | .init => true
  | .clear => true
  | .home => true
  | .displayOff => true
  | .displayOn => true
  | .cursorOff => true
  | .cursorOn => true
  | .blinkOff => true
  | .blinkOn => true
  | .rightToLeft => true
  | .leftToRight => true
  | .autoscrollOff => true
  | .autoscrollOn => true
  | .backlightOff => true
  | .backlightOn => true
  | .cursorMoveLeft => true
  | .cursorMoveRight => true
  | .displayMoveLeft => true
  | .displayMoveRight => true
  | .setCursor _ row => rowWf row
  | .write _ => true
  | .writeln _ line => lineWf line
  | .sendCommand _ => true
  | .sendData _ => true

end Sys2Proof
end

