-- ==== Sys2Proof/Decode.lean ====
section
/-! DEFINITION. The decoder of request words, total on every word, and the encoder (spec 30_encoding.md R64 to R68). -/

namespace Sys2Proof

/-- Why a request is no operation: "Every `op` value not in rule R66 is illegal" (R67). -/
inductive DecodeError where
  | unassignedOpcode (op : Byte)
  deriving DecidableEq, Repr

/-- `op = req[23:16]` (R64). -/
def opField (w : ReqWord) : Byte := w.extractLsb' 16 8

/-- `a = req[15:8]` (R64). -/
def aField (w : ReqWord) : Byte := w.extractLsb' 8 8

/-- `b = req[7:0]` (R64). -/
def bField (w : ReqWord) : Byte := w.extractLsb' 0 8

/-- The word with the given three fields (R64). -/
def packWord (op a b : Byte) : ReqWord := op ++ a ++ b

/-- The opcode map (R66), by the opcode's number. Operand fields a format does not use "may hold any value and have no
effect" (R65); a text "supplied with a format that has none is ignored" (R67). -/
def decode (r : Request) : Except DecodeError Instr :=
  match (opField r.word).toNat with
  | 0x00 => .ok .init
  | 0x01 => .ok .clear
  | 0x02 => .ok .home
  | 0x10 => .ok .displayOff
  | 0x11 => .ok .displayOn
  | 0x12 => .ok .cursorOff
  | 0x13 => .ok .cursorOn
  | 0x14 => .ok .blinkOff
  | 0x15 => .ok .blinkOn
  | 0x16 => .ok .rightToLeft
  | 0x17 => .ok .leftToRight
  | 0x18 => .ok .autoscrollOff
  | 0x19 => .ok .autoscrollOn
  | 0x1A => .ok .backlightOff
  | 0x1B => .ok .backlightOn
  | 0x20 => .ok .cursorMoveLeft
  | 0x21 => .ok .cursorMoveRight
  | 0x22 => .ok .displayMoveLeft
  | 0x23 => .ok .displayMoveRight
  | 0x30 => .ok (.setCursor (aField r.word) (bField r.word))
  | 0x40 => .ok (.write r.text)
  | 0x41 => .ok (.writeln r.text (aField r.word))
  | 0x50 => .ok (.sendCommand (aField r.word))
  | 0x51 => .ok (.sendData (aField r.word))
  | _ => .error (.unassignedOpcode (opField r.word))

/-- The opcode of each operation (R66). -/
def Instr.opcode : Instr → Byte
  | .init => 0x00
  | .clear => 0x01
  | .home => 0x02
  | .displayOff => 0x10
  | .displayOn => 0x11
  | .cursorOff => 0x12
  | .cursorOn => 0x13
  | .blinkOff => 0x14
  | .blinkOn => 0x15
  | .rightToLeft => 0x16
  | .leftToRight => 0x17
  | .autoscrollOff => 0x18
  | .autoscrollOn => 0x19
  | .backlightOff => 0x1A
  | .backlightOn => 0x1B
  | .cursorMoveLeft => 0x20
  | .cursorMoveRight => 0x21
  | .displayMoveLeft => 0x22
  | .displayMoveRight => 0x23
  | .setCursor _ _ => 0x30
  | .write _ => 0x40
  | .writeln _ _ => 0x41
  | .sendCommand _ => 0x50
  | .sendData _ => 0x51

/-- The `a` field of each operation: `byte`, `col` or `line`; 0 where the format ignores it (R64). -/
def Instr.aOperand : Instr → Byte
  | .setCursor col _ => col
  | .writeln _ line => line
  | .sendCommand byte => byte
  | .sendData byte => byte
  | .init | .clear | .home | .displayOff | .displayOn | .cursorOff | .cursorOn | .blinkOff | .blinkOn
  | .rightToLeft | .leftToRight | .autoscrollOff | .autoscrollOn | .backlightOff | .backlightOn
  | .cursorMoveLeft | .cursorMoveRight | .displayMoveLeft | .displayMoveRight => 0
  | .write _ => 0

/-- The `b` field of each operation: `row`; 0 where the format ignores it (R64). -/
def Instr.bOperand : Instr → Byte
  | .setCursor _ row => row
  | .init | .clear | .home | .displayOff | .displayOn | .cursorOff | .cursorOn | .blinkOff | .blinkOn
  | .rightToLeft | .leftToRight | .autoscrollOff | .autoscrollOn | .backlightOff | .backlightOn
  | .cursorMoveLeft | .cursorMoveRight | .displayMoveLeft | .displayMoveRight => 0
  | .write _ | .writeln _ _ | .sendCommand _ | .sendData _ => 0

/-- The text of formats T and TL; absent, that is empty, in the others (R64). -/
def Instr.text : Instr → List Byte
  | .write text => text
  | .writeln text _ => text
  | .init | .clear | .home | .displayOff | .displayOn | .cursorOff | .cursorOn | .blinkOff | .blinkOn
  | .rightToLeft | .leftToRight | .autoscrollOff | .autoscrollOn | .backlightOff | .backlightOn
  | .cursorMoveLeft | .cursorMoveRight | .displayMoveLeft | .displayMoveRight => []
  | .setCursor _ _ | .sendCommand _ | .sendData _ => []

/-- The request that stands for an operation, its ignored fields 0 (R64, R66). -/
def encode (i : Instr) : Request :=
  { word := packWord i.opcode i.aOperand i.bOperand, text := i.text }

/-- "The program's encoding is one request word per line, plus the text" (R69). -/
def encodeProgram (p : List Instr) : List Request := p.map encode

/-- The 24 assigned opcodes, in the order of R66's table. -/
def assignedOpcodes : List Byte :=
  [0x00, 0x01, 0x02, 0x10, 0x11, 0x12, 0x13, 0x14, 0x15, 0x16, 0x17, 0x18] ++
  [0x19, 0x1A, 0x1B, 0x20, 0x21, 0x22, 0x23, 0x30, 0x40, 0x41, 0x50, 0x51]

/-- The mnemonic of each operation (R66, R69). -/
def Instr.mnemonic : Instr → String
  | .init => "INIT"
  | .clear => "CLEAR"
  | .home => "HOME"
  | .displayOff => "DISPLAY_OFF"
  | .displayOn => "DISPLAY_ON"
  | .cursorOff => "CURSOR_OFF"
  | .cursorOn => "CURSOR_ON"
  | .blinkOff => "BLINK_OFF"
  | .blinkOn => "BLINK_ON"
  | .rightToLeft => "RIGHT_TO_LEFT"
  | .leftToRight => "LEFT_TO_RIGHT"
  | .autoscrollOff => "AUTOSCROLL_OFF"
  | .autoscrollOn => "AUTOSCROLL_ON"
  | .backlightOff => "BACKLIGHT_OFF"
  | .backlightOn => "BACKLIGHT_ON"
  | .cursorMoveLeft => "CURSOR_MOVE_LEFT"
  | .cursorMoveRight => "CURSOR_MOVE_RIGHT"
  | .displayMoveLeft => "DISPLAY_MOVE_LEFT"
  | .displayMoveRight => "DISPLAY_MOVE_RIGHT"
  | .setCursor _ _ => "SET_CURSOR"
  | .write _ => "WRITE"
  | .writeln _ _ => "WRITELN"
  | .sendCommand _ => "SEND_COMMAND"
  | .sendData _ => "SEND_DATA"

/-- A text operand as "a bracketed list of codes" (R69), the codes in decimal (R8). -/
def asmText (text : List Byte) : String :=
  "[" ++ ", ".intercalate (text.map fun c => toString c.toNat) ++ "]"

/-- The operands of a line, after the mnemonic (R69). -/
def Instr.asmOperands : Instr → String
  | .setCursor col row => " " ++ toString col.toNat ++ ", " ++ toString row.toInt
  | .write text => " " ++ asmText text
  | .writeln text line => " " ++ asmText text ++ ", " ++ toString line.toInt
  | .sendCommand byte => " " ++ toString byte.toNat
  | .sendData byte => " " ++ toString byte.toNat
  | .init | .clear | .home | .displayOff | .displayOn | .cursorOff | .cursorOn | .blinkOff | .blinkOn
  | .rightToLeft | .leftToRight | .autoscrollOff | .autoscrollOn | .backlightOff | .backlightOn
  | .cursorMoveLeft | .cursorMoveRight | .displayMoveLeft | .displayMoveRight => ""

/-- One line of a program as R69 writes it: the mnemonic, then the operands in the order of the source's method signatures,
separated by commas; `row` and `line` signed (R65). -/
def Instr.asm (i : Instr) : String :=
  i.mnemonic ++ i.asmOperands

/-- The request whose word is given as a number, with no text (the table gives the text no bits). -/
def requestOfNat (nbits w : Nat) : Request :=
  { word := BitVec.ofNat 24 (w % 2 ^ nbits), text := [] }

/-- The operation the decoder reads from a table word: the request is ONE word of 24 bits, bit 0 its least significant
(R64, R68), and "its length is given by the host, not decoded" of the text, which is empty here. -/
def decodeTableWord (nbits w : Nat) : Option Instr :=
  match decode (requestOfNat nbits w) with
  | .ok i => some i
  | .error _ => none

end Sys2Proof
end

