-- ==== Sys2Proof/Machine/Fetch.lean ====
section
/-! DEFINITION. How the sequencer comes by what it does next: the boot INIT, the next request, a reset, or nothing (spec
70_reset_and_hazards.md R190, R191, R208; 60_exceptions.md R166, R175; 30_encoding.md R67). -/

namespace Sys2Proof.Machine

/-- What a step does: run an operation in a state, or end with an outcome of its own. -/
inductive Fetched where
  | run (i : Instr) (s : State)
  | ends (o : Host.Outcome State Fault Refusal)

/-- The first reset still to come, and the inputs without it: the requests before it stay at the port, since a waiting block
accepts none (R175). -/
def takeReset : List Input → Option (I2cAddr × List Input)
  | [] => none
  | .reset a :: rest => some (a, rest)
  | .request r :: rest => (takeReset rest).map fun p => (p.1, .request r :: p.2)

/-- A step of a block whose outstanding write is not answered: "the only way to stop it is reset" (R175); with none to come it
is stuck (R208). -/
def hungStep (s : State) : Host.Outcome State Fault Refusal :=
  match takeReset s.inputs with
  | some (a, rest) => .next (applyReset a { s with inputs := rest })
  | none => .fault .transportNeverAnswers

/-- A request whose `op` is unassigned: "the block answers `InvalidArgument`, makes no transport call and changes no state, in
any phase" (R67); the first check (R166). -/
def rejectIllegal (s : State) : Host.Outcome State Fault Refusal := raise .invalidArgument s

/-- What the block does next. Booting: INIT "once by itself, with no request" (R191). Idle: the next request or reset; with
none "it is idle and keeps its state" (R173). Waiting: `hungStep`. Cut inside a delay: the reset that cut it (R175, R190). -/
def fetch (s : State) : Fetched :=
  match s.sequencer with
  | .boot => .run .init s
  | .waiting _ _ => .ends (hungStep s)
  | .resetting a => .ends (.next (applyReset a s))
  | .idle =>
    match s.inputs with
    | [] => .ends (.next s)
    | .reset a :: rest => .ends (.next (applyReset a { s with inputs := rest }))
    | .request r :: rest =>
      match decode r with
      | .ok i => .run i { s with inputs := rest }
      | .error _ => .ends (rejectIllegal { s with inputs := rest })

/-- The block ready to accept a request: one that has not booted, is hung or is being reset stands as after a completed boot INIT, since
"only then does it raise `req_ready`" (R191; log entry 10). -/
def portOpen (s : State) : State :=
  match s.sequencer with
  | .idle => s
  | .boot => bootCompleted s
  | .waiting _ _ => bootCompleted s
  | .resetting _ => bootCompleted s

/-- A request presented as the next thing at the request port. -/
def placeRequest (r : Request) (s : State) : State :=
  { portOpen s with inputs := .request r :: s.inputs }

end Sys2Proof.Machine
end

