-- ==== Sys2Proof/Machine/Step.lean ====
section
/-! DEFINITION. One step: one whole operation, or one reset, or one idle wait (spec 60_exceptions.md R175). -/

namespace Sys2Proof.Machine

/-- One step of the machine. -/
def step (s : State) : Host.Outcome State Fault Refusal :=
  match fetch s with
  | .run i t => exec i t
  | .ends o => o

/-- The state whose very next step runs the given request word: the request is placed at the port, and a block that has not
booted stands as after its boot INIT (log entry 10). -/
def State.withFetchWord (s : State) (nbits w : Nat) : State := placeRequest (requestOfNat nbits w) s

end Sys2Proof.Machine
end

