-- ==== Sys2Proof/Machine/Ports.lean ====
section
/-! DEFINITION. The port signals as views of the state between two steps (spec 20_memory.md R32, 30_encoding.md R64,
60_exceptions.md R160, R175, 70_reset_and_hazards.md R190), and the numbers of the phases and statuses. The values the
transport port takes inside a completed operation are the trace's (log entry 14). -/

namespace Sys2Proof.Machine

/-- `phase` as its 2 bits: `Uninit` (0), `Ready` (1), `Failed` (2) (10_state.md R19). -/
def Phase.code : Phase → BitVec 2
  | .uninit => 0
  | .ready => 1
  | .failed => 2

/-- `rsp_status[2:0]` (R160). -/
def Status.code : Status → BitVec 3
  | .ok => 0
  | .transportError => 1
  | .invalidArgument => 2
  | .initializationFailure => 3
  | .notReady => 4

/-- `req_ready`: "low from the acceptance of a request until its response" (R175), "low until the boot INIT has responded"
(R190). -/
def State.reqReady (s : State) : Bool := decide (s.sequencer = .idle)

/-- `req_valid`: whether a request is being presented (R64). -/
def State.reqValid (s : State) : Bool :=
  match s.inputs with
  | .request _ :: _ => true
  | .reset _ :: _ => false
  | [] => false

/-- `tw_valid`: a write is outstanding (R32). -/
def State.twValid (s : State) : Bool :=
  match s.sequencer with
  | .waiting _ _ => true
  | .boot => false
  | .idle => false
  | .resetting _ => false

/-- `tw_addr[6:0]` while `tw_valid` is high (R32). -/
def State.twAddr (s : State) : Option I2cAddr :=
  match s.sequencer with
  | .waiting a _ => some a
  | .boot => none
  | .idle => none
  | .resetting _ => none

/-- `tw_data[7:0]` while `tw_valid` is high (R32). -/
def State.twData (s : State) : Option Byte :=
  match s.sequencer with
  | .waiting _ v => some v
  | .boot => none
  | .idle => none
  | .resetting _ => none

/-- `rsp_valid` (R160): the last operation has responded and no other has begun. Low while an operation waits or is cut, and
after a reset until the boot INIT has responded. That it stays high until the next operation begins is the model's choice
(log entry 14). -/
def State.rspValid (s : State) : Bool := s.reqReady && !s.responses.isEmpty

/-- `rsp_status[2:0]` while `rsp_valid` is high (R160). -/
def State.rspStatus (s : State) : Option (BitVec 3) :=
  if s.rspValid then s.responses.getLast?.map Status.code else none

/-- The response a step from `s` to `t` posts on the response port, if it posts one: what tells a new response from the one
that `rsp_status` still showed before (R160). -/
def State.newResponse (s t : State) : Option Status := (t.responses.drop s.responses.length).head?

end Sys2Proof.Machine
end

