-- ==== Sys2Proof/Machine/Trace.lean ====
section
/-! DEFINITION. What can be read off an output trace (spec 00_scope.md R9): counts of transport writes (40_primitives.md R86),
sums of minimum delays (70_reset_and_hazards.md R209), the shape of the pulses (R80, R194), and the ghost record of what the
controller latched (10_state.md R24, 20_memory.md R36; log entry 19). -/

namespace Sys2Proof.Machine

/-- A transport write, answered `Ok` or `Err`. -/
def Event.isWrite : Event → Bool
  | .written _ _ => true
  | .writeFailed _ _ => true
  | .delay _ => false

/-- The byte of a transport write. -/
def Event.byte : Event → Option Byte
  | .written _ v => some v
  | .writeFailed _ v => some v
  | .delay _ => none

/-- The address of a transport write. -/
def Event.addr : Event → Option I2cAddr
  | .written a _ => some a
  | .writeFailed a _ => some a
  | .delay _ => none

/-- How many transport writes a piece of trace holds (R86). -/
def writeCount (evs : List Event) : Nat := evs.countP Event.isWrite

/-- Whether an event is a delay that elapsed. -/
def Event.isDelay : Event → Bool
  | .written _ _ => false
  | .writeFailed _ _ => false
  | .delay _ => true

/-- How many delays a piece of trace holds (R86). -/
def delayCount (evs : List Event) : Nat := evs.countP Event.isDelay

/-- The minimum duration of each delay, in microseconds (00_scope.md R6). -/
def Config.durationOf (c : Config) : DelayName → Nat
  | .initSettle => c.tInitSettle
  | .enHigh => c.tEnHigh
  | .enLow => c.tEnLow
  | .clearHome => c.tClearHome
  | .initFinal => c.tInitFinal

/-- The minimum duration an event stands for; "the transport's own time per write is not included" (R209). -/
def Event.minDelay (c : Config) : Event → Nat
  | .delay d => Config.durationOf c d
  | .written _ _ => 0
  | .writeFailed _ _ => 0

/-- The sum of the minimum delays of a piece of trace, in microseconds (R209). -/
def minDelays (c : Config) (evs : List Event) : Nat := (evs.map (Event.minDelay c)).sum

/-- The nibble on D7..D4 of an expander byte (30_encoding.md R50). -/
def nibbleOf (v : Byte) : Nibble := v.extractLsb' 4 4

/-- The byte a write that was answered `Ok` puts on the pins, and where. -/
def Event.pins : Event → Option (I2cAddr × Byte)
  | .written a v => some (a, v)
  | .writeFailed _ _ => none
  | .delay _ => none

/-- The (register-select, nibble) pairs the controller latches from the bytes its pins hold one after the other: "on the
falling edge of enable, that is, between a write with `PIN_EN` set and the next write with `PIN_EN` clear", sampled from the
second (R36). `high` is the level of enable before them. -/
def latchedFrom (c : Config) (high : Bool) : List Byte → List (Bool × Nibble)
  | [] => []
  | v :: rest =>
    if hasFlag c.pinEn v then latchedFrom c true rest
    else if high then (hasFlag c.pinRs v, nibbleOf v) :: latchedFrom c false rest
    else latchedFrom c false rest

/-- What the pins of the expander at an address have held, the oldest first. -/
def State.pinsAt (a : I2cAddr) (s : State) : List Byte := (s.pinLog.filter fun p => decide (p.1 = a)).map fun p => p.2

/-- The ghost record of R24: what the controller behind the expander at an address has latched. A write that failed or was not
answered may or may not have reached the expander (U15, U2, N8): the record takes the free value the pins hold after it, so the
edges it may have made are free, and those of every later pulse follow. The level of enable at power-up is free (U1). These are
the model's choices (log entries 9, 19). -/
def State.latched (a : I2cAddr) (s : State) : List (Bool × Nibble) :=
  latchedFrom s.cfg (Config.enableAtPowerUp a) (s.pinsAt a)

/-- The latched pairs of a piece of trace none of whose writes failed and whose first write has enable set. -/
def latchedIn (c : Config) (evs : List Event) : List (Bool × Nibble) := latchedFrom c false (evs.filterMap Event.byte)

/-- Latched nibbles read as bytes, high nibble first (20_memory.md R37); each with its register-select. -/
def latchedBytes : List (Bool × Nibble) → List (Bool × Byte)
  | (m, hi) :: (_, lo) :: rest => (m, hi ++ lo) :: latchedBytes rest
  | [_] => []
  | [] => []

/-- The two writes of one pulse: the same address, enable set and then clear, nothing else different (R80). -/
def pulsePair (c : Config) (a b : I2cAddr) (x y : Byte) : Bool :=
  decide (a = b) && decide (x = y ||| c.pinEn) && decide (y &&& c.pinEn = 0)

/-- A piece of trace is made of whole pulses (write with enable set, `Dly(T_EN_HIGH)`, write with enable clear,
`Dly(T_EN_LOW)`) and settle delays between them (R80, R194). -/
def wholePulses (c : Config) : List Event → Bool
  | [] => true
  | .written a x :: .delay .enHigh :: .written b y :: .delay .enLow :: rest =>
    pulsePair c a b x y && wholePulses c rest
  | .delay .initSettle :: rest => wholePulses c rest
  | .delay .clearHome :: rest => wholePulses c rest
  | .delay .initFinal :: rest => wholePulses c rest
  | _ => false

/-- The same, but that it may end inside a pulse: at a failed write, before an unanswered one, or in a hold that a reset cuts
(R161, R208, R175). -/
def pulseShaped (c : Config) : List Event → Bool
  | [] => true
  | .written a x :: .delay .enHigh :: .written b y :: .delay .enLow :: rest =>
    pulsePair c a b x y && pulseShaped c rest
  | [.written a x, .delay .enHigh, .written b y] => pulsePair c a b x y
  | [.written a x, .delay .enHigh, .writeFailed b y] => pulsePair c a b x y
  | [.written _ x, .delay .enHigh] => decide (x &&& c.pinEn = c.pinEn)
  | [.written _ x] => decide (x &&& c.pinEn = c.pinEn)
  | [.writeFailed _ x] => decide (x &&& c.pinEn = c.pinEn)
  | .delay .initSettle :: rest => pulseShaped c rest
  | .delay .clearHome :: rest => pulseShaped c rest
  | .delay .initFinal :: rest => pulseShaped c rest
  | _ => false

/-- A piece of trace in which no write failed and every byte was sent whole: pulses and settle delays, a multiple of four
writes (R82, R86). -/
def wholeBytes (c : Config) (evs : List Event) : Bool :=
  decide (writeCount evs % 4 = 0) && wholePulses c evs

/-- The command bytes of a piece of trace of whole bytes, in the order sent (register-select 0). -/
def commandsSent (c : Config) (evs : List Event) : List Byte :=
  ((latchedBytes (latchedIn c evs)).filter fun p => !p.1).map fun p => p.2

/-- Whether a command byte is of the kind whose identifier bit is the most significant 1 bit `ident`: "the controller tells
commands apart by the position of the most significant 1 bit" (30_encoding.md R52). -/
def ofKind (ident v : Byte) : Bool := decide (ident.toNat ≤ v.toNat) && decide (v.toNat < 2 * ident.toNat)

/-- The last command byte of a kind. -/
def lastOfKind (ident : Byte) (cmds : List Byte) : Option Byte := (cmds.filter (ofKind ident)).getLast?

end Sys2Proof.Machine
end

