-- ==== Sys2Proof/Safety.lean ====
section
/-! DEFINITION. What claims about the encoder are stated in: the environment's answers as premises, the traces the spec's
rules give (written with R6's numbers, apart from the machine's own operations), what is cut off by a failure, and the
invariant of a safe block. -/

namespace Sys2Proof.Machine

/-! ## Cutting a trace at a write or at a delay (R42, R161, R175) -/

/-- The events before the write with `k` writes before it. -/
def cutBefore : Nat → List Event → List Event
  | _, [] => []
  | 0, .written _ _ :: _ => []
  | k + 1, .written a v :: rest => .written a v :: cutBefore k rest
  | k, .writeFailed a v :: rest => .writeFailed a v :: cutBefore k rest
  | k, .delay d :: rest => .delay d :: cutBefore k rest

/-- The write with `k` writes before it. -/
def writeAt : Nat → List Event → Option (I2cAddr × Byte)
  | _, [] => none
  | 0, .written a v :: _ => some (a, v)
  | k + 1, .written _ _ :: rest => writeAt k rest
  | k, .writeFailed _ _ :: rest => writeAt k rest
  | k, .delay _ :: rest => writeAt k rest

/-- The trace cut at its write `k`, which fails: "each cut at its first `W!`" (R42); "no delay follows the failed write"
(R100). -/
def cutFailed (k : Nat) (evs : List Event) : List Event :=
  cutBefore k evs ++ ((writeAt k evs).map fun w => Event.writeFailed w.1 w.2).toList

/-- The events before the delay with `j` delays before it. -/
def cutBeforeDelay : Nat → List Event → List Event
  | _, [] => []
  | 0, .delay _ :: _ => []
  | j + 1, .delay d :: rest => .delay d :: cutBeforeDelay j rest
  | j, .written a v :: rest => .written a v :: cutBeforeDelay j rest
  | j, .writeFailed a v :: rest => .writeFailed a v :: cutBeforeDelay j rest

/-! ## The environment as premises: the transport's answers (R33, R208) and resets inside a delay (R175) -/

/-- No reset lands in the next `n` delays. -/
abbrev State.quietFor (n : Nat) (s : State) : Prop := ∀ p ∈ s.delayResets.head?, n ≤ p.1

/-- Nothing disturbs the writes and delays of `evs`: every write is answered `Ok`, no reset lands in a delay. -/
abbrev State.okFor (evs : List Event) (s : State) : Prop :=
  (∀ k, k < writeCount evs → s.answerAt k = .ok) ∧ s.quietFor (delayCount evs)

/-- What first disturbs `evs` is its write `k`, which is answered `Err`. -/
abbrev State.failsAt (k : Nat) (evs : List Event) (s : State) : Prop :=
  k < writeCount evs ∧ (∀ n, n < k → s.answerAt n = .ok) ∧ s.answerAt k = .err ∧ s.quietFor (delayCount (cutBefore k evs))

/-- What first disturbs `evs` is its write `k`, which is never answered. -/
abbrev State.hangsAt (k : Nat) (evs : List Event) (s : State) : Prop :=
  k < writeCount evs ∧ (∀ n, n < k → s.answerAt n = .ok) ∧ s.answerAt k = .never ∧
    s.quietFor (delayCount (cutBefore k evs))

/-- What first disturbs `evs` is a reset inside its delay `j`, on whose release the address input holds `a`. -/
abbrev State.cutAt (j : Nat) (a : I2cAddr) (evs : List Event) (s : State) : Prop :=
  j < delayCount evs ∧ (∀ n, n < writeCount (cutBeforeDelay j evs) → s.answerAt n = .ok) ∧
    s.delayResets.head? = some (j, a)

/-- The writes of `evs` that are reached are answered (R208's premise), and no reset lands in a delay that is reached. -/
abbrev State.answeredFor (evs : List Event) (s : State) : Prop := s.okFor evs ∨ ∃ k, s.failsAt k evs

/-! ## The state after a piece of trace -/

/-- The pins after an event that did not fail: a write sets them, a delay holds them (R34). -/
def Memory.afterEvent (m : Memory) : Event → Memory
  | .written a v => m.write a.toNat v
  | .writeFailed _ _ => m
  | .delay _ => m

/-- The state after the given events, every write of them answered `Ok` and every delay elapsed: they stand in the trace, their
answers and delays are used up, the pins hold what was written. Nothing else is different. -/
def State.afterEvents (evs : List Event) (s : State) : State :=
  { s with
    trace := s.trace ++ evs
    answers := s.answers.drop (writeCount evs)
    transportCalls := s.transportCalls + writeCount evs
    delayResets := tickDelays (delayCount evs) s.delayResets
    expander := evs.foldl Memory.afterEvent s.expander
    pinLog := s.pinLog ++ evs.filterMap Event.pins }

/-! ## The traces of the rules, with R6's numbers -/

/-- `pulse` of a payload composed with the backlight bit: enable 0x04, backlight 0x08 (R80, R81). -/
def pulseEvents (s : State) (payload : Byte) : List Event :=
  let x : Byte := payload ||| (if s.backlightBit then 0x08 else 0x00)
  [.written s.i2cAddr (x ||| 0x04), .delay .enHigh, .written s.i2cAddr x, .delay .enLow]

/-- `sendByte(v, m)`: the payloads `(v & 0xF0) | m` and `((v << 4) & 0xF0) | m` (R82). -/
def byteEvents (s : State) (v : Byte) (data : Bool) : List Event :=
  let m : Byte := if data then 0x01 else 0x00
  pulseEvents s ((v &&& 0xF0) ||| m) ++ pulseEvents s (((v <<< 4) &&& 0xF0) ||| m)

/-- A command byte (R84). -/
def commandEvents (s : State) (v : Byte) : List Event := byteEvents s v false

/-- A data byte (R85). -/
def dataEvents (s : State) (v : Byte) : List Event := byteEvents s v true

/-- The characters of a text, one after the other (R150). -/
def textEvents (s : State) (text : List Byte) : List Event := text.flatMap (dataEvents s)

/-- INIT (R100): `0x3` three times with its settle delay, `0x2`, the commands 0x28, 0x0C, 0x06, 0x01, the final delay. -/
def initEvents (s : State) : List Event :=
  (pulseEvents s 0x30 ++ [.delay .initSettle]) ++ (pulseEvents s 0x30 ++ [.delay .initSettle]) ++
  (pulseEvents s 0x30 ++ [.delay .initSettle]) ++ pulseEvents s 0x20 ++
  commandEvents s 0x28 ++ commandEvents s 0x0C ++ commandEvents s 0x06 ++ commandEvents s 0x01 ++ [.delay .initFinal]

/-- The row offsets of R116. -/
def rowBase (row : Byte) : Byte :=
  if row = 0 then 0x00 else if row = 1 then 0x40 else if row = 2 then 0x14 else 0x54

/-- The line bases of R151. -/
def lineBase (line : Byte) : Byte := if line = 0 then 0x00 else 0x40

/-- What an operation does to the block's registers before its first transport call (43_register_toggles.md: "The register is
written before the first transport call"). INIT's writes are spread over its sequence and are not said here. -/
def stored (i : Instr) (s : State) : State :=
  match i with
  | .displayOn => { s with displayControl := s.displayControl ||| 0x04 }
  | .displayOff => { s with displayControl := s.displayControl &&& 0xFB }
  | .cursorOn => { s with displayControl := s.displayControl ||| 0x02 }
  | .cursorOff => { s with displayControl := s.displayControl &&& 0xFD }
  | .blinkOn => { s with displayControl := s.displayControl ||| 0x01 }
  | .blinkOff => { s with displayControl := s.displayControl &&& 0xFE }
  | .leftToRight => { s with entryMode := s.entryMode ||| 0x02 }
  | .rightToLeft => { s with entryMode := s.entryMode &&& 0xFD }
  | .autoscrollOn => { s with entryMode := s.entryMode ||| 0x01 }
  | .autoscrollOff => { s with entryMode := s.entryMode &&& 0xFE }
  | .backlightOn => { s with backlightBit := true }
  | .backlightOff => { s with backlightBit := false }
  | .init | .clear | .home | .cursorMoveLeft | .cursorMoveRight | .displayMoveLeft | .displayMoveRight => s
  | .setCursor _ _ | .write _ | .writeln _ _ | .sendCommand _ | .sendData _ => s

/-- The trace of an admitted operation with legal operands when every write is answered `Ok`, from the state `t` in which its
registers have been stored (files 41 to 44). -/
def plannedFrom (i : Instr) (t : State) : List Event :=
  match i with
  | .init => initEvents t
  | .clear => commandEvents t 0x01 ++ [.delay .clearHome]
  | .home => commandEvents t 0x02 ++ [.delay .clearHome]
  | .displayOn | .displayOff | .cursorOn | .cursorOff | .blinkOn | .blinkOff => commandEvents t t.displayControl
  | .leftToRight | .rightToLeft | .autoscrollOn | .autoscrollOff => commandEvents t t.entryMode
  | .backlightOn | .backlightOff => commandEvents t 0x00
  | .cursorMoveLeft => commandEvents t 0x10
  | .cursorMoveRight => commandEvents t 0x14
  | .displayMoveLeft => commandEvents t 0x18
  | .displayMoveRight => commandEvents t 0x1C
  | .setCursor col row => commandEvents t (0x80 ||| (col + rowBase row))
  | .write text => textEvents t text
  | .writeln text line => commandEvents t (0x80 ||| lineBase line) ++ textEvents t text
  | .sendCommand byte => commandEvents t byte
  | .sendData byte => dataEvents t byte

/-- The planned trace of an operation requested in `s`. -/
def planned (i : Instr) (s : State) : List Event := plannedFrom i (stored i s)

/-- How many transport writes an admitted operation with legal operands makes when none fails (R86, R209). -/
def writesOf : Instr → Nat
  | .init => 24
  | .write text => 4 * text.length
  | .writeln text _ => 4 + 4 * text.length
  | .clear | .home | .displayOn | .displayOff | .cursorOn | .cursorOff | .blinkOn | .blinkOff => 4
  | .leftToRight | .rightToLeft | .autoscrollOn | .autoscrollOff | .backlightOn | .backlightOff => 4
  | .cursorMoveLeft | .cursorMoveRight | .displayMoveLeft | .displayMoveRight => 4
  | .setCursor _ _ | .sendCommand _ | .sendData _ => 4

/-- The sum of minimum delays of R209's table, in microseconds. -/
def minDelayOf : Instr → Nat
  | .init => 12500
  | .clear | .home => 201200
  | .write text => 1200 * text.length
  | .writeln text _ => 1200 * (text.length + 1)
  | .displayOn | .displayOff | .cursorOn | .cursorOff | .blinkOn | .blinkOff => 1200
  | .leftToRight | .rightToLeft | .autoscrollOn | .autoscrollOff | .backlightOn | .backlightOff => 1200
  | .cursorMoveLeft | .cursorMoveRight | .displayMoveLeft | .displayMoveRight => 1200
  | .setCursor _ _ | .sendCommand _ | .sendData _ => 1200

/-! ## How an operation ends early -/

/-- The six items of R10 and the parameters are the same in `t` as in `u`. -/
abbrev sameRegisters (u t : State) : Prop :=
  t.displayControl = u.displayControl ∧ t.entryMode = u.entryMode ∧ t.functionSet = u.functionSet ∧
  t.backlightBit = u.backlightBit ∧ t.phase = u.phase ∧ t.i2cAddr = u.i2cAddr ∧ t.cfg = u.cfg

/-- The two early ends common to every operation but INIT (R161, R163, R165; the header paragraphs of files 42 and 43), for
an operation whose trace is `evs` and whose registers, once stored, are `u`'s. In `Ready`, failing at write `k` of `evs`: the
trace cut there, `TransportError`, the registers as stored, the block idle again. Outside `Ready`: `NotReady`, no transport
call, no state change. -/
abbrev EndsEarly (i : Instr) (s u : State) (evs : List Event) : Prop :=
  (s.phase = .ready → ∀ k, s.failsAt k evs → ∃ t, exec i s = .next t ∧
    t.trace = s.trace ++ cutFailed k evs ∧ t.responses = s.responses ++ [.transportError] ∧ sameRegisters u t ∧
    t.inputs = s.inputs ∧ t.sequencer = .idle) ∧
  (s.phase ≠ .ready → exec i s = .next { s with responses := s.responses ++ [.notReady], sequencer := .idle })

/-- Every request whose `op` is the given one decodes to the operation, whatever its ignored fields and its text. -/
abbrev OpcodeIs (op : Byte) (i : Instr) : Prop := ∀ r : Request, opField r.word = op → decode r = .ok i

/-! ## The invariant -/

/-- `displayControl` is legal: bits 7:4 zero, bit 3 one (R15). -/
abbrev displayControlLegal (v : Byte) : Prop := v &&& 0xF8 = 0x08

/-- `entryMode` is legal: bits 7:3 zero, bit 2 one (R16). -/
abbrev entryModeLegal (v : Byte) : Prop := v &&& 0xFC = 0x04

/-- A safe block: the parameters of R6; the address space in canonical form; in `Ready` every mirror register holds a legal
command byte of its own kind (R15, R16, R17); `Uninit` is met by no requester, since `req_ready` is low then (R165, R191); a
block about to boot is `Uninit` (R190); every byte ever written has `PIN_RW` clear (R35), the outstanding one too. -/
abbrev Inv (s : State) : Prop :=
  s.cfg = Config.defaults ∧ s.expander.wf = true ∧
  (s.phase = .ready → displayControlLegal s.displayControl ∧ entryModeLegal s.entryMode ∧ s.functionSet = 0x28) ∧
  (s.phase = .uninit → s.reqReady = false) ∧ (s.sequencer = .boot → s.phase = .uninit) ∧
  (∀ e ∈ s.trace, ∀ v ∈ e.byte, v &&& 0x02 = 0) ∧ (∀ v ∈ s.twData, v &&& 0x02 = 0)

/-- The mirror invariant (R14): since some point of the trace, every byte was sent whole and none failed, and each mirror
register is the last command byte of its kind sent since. (INIT's nibbles 3, 3 and 3, 2 read as two bytes 0x33, 0x32; the
function set 0x28 follows them.) -/
abbrev MirrorsReflectTrace (s : State) : Prop :=
  ∃ earlier since, s.trace = earlier ++ since ∧ wholeBytes s.cfg since = true ∧
    lastOfKind 0x08 (commandsSent s.cfg since) = some s.displayControl ∧
    lastOfKind 0x04 (commandsSent s.cfg since) = some s.entryMode ∧
    lastOfKind 0x20 (commandsSent s.cfg since) = some s.functionSet

/-- The address space agrees with the record of what the pins have held: each address reads as the last byte recorded there,
and as nothing where nothing is (R30, R34). -/
abbrev PinsAgree (s : State) : Prop := ∀ a : I2cAddr, s.expander.read a.toNat = (s.pinsAt a).getLast?

/-- Two states that differ at most in the mirror registers, and in `Ready` not at all (R20). -/
abbrev sameButUnreadMirrors (s t : State) : Prop :=
  t = { s with displayControl := t.displayControl, entryMode := t.entryMode, functionSet := t.functionSet } ∧
  (s.phase = .ready → t = s)

/-- The two outcomes are of one kind and carry related states. -/
def outcomesRelated (r : State → State → Prop) : Host.Outcome State Fault Refusal → Host.Outcome State Fault Refusal → Prop
  | .next s, .next t => r s t
  | .fault a, .fault b => a = b
  | .refused a, .refused b => a = b
  | _, _ => False

end Sys2Proof.Machine
end

