-- ==== Sys2Proof/Certificates/Slice0/Obligations.lean ====
section
/-! DEFINITION. The statements about the encoder, each from the numbered rules of the spec its docstring names. Every
statement quantifies over the state: the registers, the backlight bit, the transport's answers and the resets are free but for
the premises. `s.okFor evs` (nothing disturbs the writes and delays of `evs`), `s.failsAt k evs`, `s.hangsAt k evs`,
`s.cutAt j a evs` are premises on the environment, and of every state one of the four holds (Sys2Proof/Safety.lean,
Sys2Proof/Laws/Run.lean `disturbed`); `s.cfg = Config.defaults` fixes the parameters to R6's table where a rule names a number.
An equation `exec i s = .next (respond st (t.afterEvents evs))` says everything about the next state: the registers are `t`'s,
the trace grows by `evs`, exactly the answers, the delays and the count of those writes are used up, the pins hold the last
byte, and one response is posted. -/

open Sys2Proof
open Sys2Proof.Machine

/-! ## Reset, boot, idle, the step -/

/-- R21, R22, R23: a reset that the idle block takes leaves `backlightBit = BL_RESET`, `phase = Uninit`, the address sampled
from the configuration input, the sequencer about to run INIT with `req_ready` low. The rest is the model's choice and no rule
of the spec: that the parameters, the environment still to come, the expander's latch with its record and what has been observed
go on (log entries 9, 12 and 17), and that `rsp_valid` is low once a reset has been taken (log entry 14; R190's table does not
list it). -/
def Obligations.ResetInputLeavesStatedValues : Prop :=
  ∀ (s : State) (a : I2cAddr) (rest : List Input), s.sequencer = .idle → s.inputs = .reset a :: rest →
    ∃ t, step s = .next t ∧ t.backlightBit = s.cfg.blReset ∧ t.phase = .uninit ∧ t.i2cAddr = a ∧
      t.sequencer = .boot ∧ t.reqReady = false ∧ t.twValid = false ∧
      t.cfg = s.cfg ∧ t.inputs = rest ∧ t.answers = s.answers ∧ t.transportCalls = s.transportCalls ∧
      t.trace = s.trace ∧ t.responses = s.responses ∧ t.expander = s.expander ∧ t.pinLog = s.pinLog ∧
      t.delayResets = s.delayResets ∧ t.rspValid = false

/-- R22, R23 at the model's reset state: `Uninit`, the default address 0x27, the boot INIT about to run. The rest is the
model's: the parameters at R6's values, `BL_RESET` among them (log entries 1, 2, 3, 5), and an empty observation (log entry
12). -/
def Obligations.ResetStateIsUninitAtDefaultAddress : Prop :=
  State.reset.phase = .uninit ∧ State.reset.i2cAddr = 0x27 ∧ State.reset.sequencer = .boot ∧
    State.reset.reqReady = false ∧ State.reset.twValid = false ∧ State.reset.trace = [] ∧ State.reset.responses = [] ∧
    State.reset.backlightBit = State.reset.cfg.blReset ∧ State.reset.cfg = Config.defaults

/-- R191: after reset the block runs INIT once by itself, with no request; the status is posted and only then `req_ready`
rises; when nothing disturbs it the block is `Ready`; after a failed boot INIT it is in `Failed` and every operation but INIT
is answered `NotReady`. No request is taken. The clauses on `rsp_valid`, low in a block about to boot even where it has answered
before and high after the boot INIT has responded, are the model's choice (log entry 14): R191 gives `rsp_valid` no timing. The
trace and the list of responses are the model's record (log entry 12). -/
def Obligations.BootRunsInitByItself : Prop :=
  (∀ s : State, s.sequencer = .boot → step s = exec .init s) ∧
  (∀ s : State, s.cfg = Config.defaults → s.sequencer = .boot → s.okFor (initEvents s) →
    s.reqReady = false ∧ s.rspValid = false ∧ ∃ t, step s = .next t ∧ t.phase = .ready ∧ t.reqReady = true ∧
      t.rspValid = true ∧ t.responses = s.responses ++ [.ok] ∧ t.trace = s.trace ++ initEvents s ∧ t.inputs = s.inputs) ∧
  (∀ (k : Nat) (s : State), s.cfg = Config.defaults → s.sequencer = .boot → s.failsAt k (initEvents s) →
    s.reqReady = false ∧ s.rspValid = false ∧ ∃ t, step s = .next t ∧ t.phase = .failed ∧ t.reqReady = true ∧
      t.rspValid = true ∧ t.responses = s.responses ++ [.initializationFailure] ∧
      t.trace = s.trace ++ cutFailed k (initEvents s) ∧ t.inputs = s.inputs ∧
      ∀ i, i ≠ .init → exec i t = .next (respond .notReady t))

/-- R64, R66, R191: an idle block whose next input is a request that decodes to `i` runs `i`, the request taken off the port;
nothing else is added around it. -/
def Obligations.StepRunsDecodedRequest : Prop :=
  ∀ (s : State) (r : Request) (rest : List Input) (i : Instr), s.sequencer = .idle → s.inputs = .request r :: rest →
    decode r = .ok i → step s = exec i { s with inputs := rest }

/-- R173: with nothing presented, an idle block "is idle and keeps its state". -/
def Obligations.IdleBlockKeepsState : Prop :=
  ∀ s : State, s.sequencer = .idle → s.inputs = [] → step s = .next s

/-- R67: each of the 232 `op` values that R66 does not assign is illegal: an idle block answers `InvalidArgument` in any phase,
makes no transport call and changes no state; and a text supplied with a format that has none is ignored. -/
def Obligations.UnassignedOpcodeIsInvalidArgument : Prop :=
  (∀ (s : State) (r : Request) (rest : List Input), s.sequencer = .idle → s.inputs = .request r :: rest →
    opField r.word ∉ assignedOpcodes →
    step s = .next { s with inputs := rest, responses := s.responses ++ [.invalidArgument] }) ∧
  ((List.range 256).filter fun n => decide (BitVec.ofNat 8 n ∉ assignedOpcodes)).length = 232 ∧
  (∀ (w : ReqWord) (text : List Byte), opField w ≠ 0x40 → opField w ≠ 0x41 → decode ⟨w, text⟩ = decode ⟨w, []⟩)

/-- Every step answers a next state, but for a block that waits on a write never answered and is not to be reset (R208). -/
def Obligations.StepStopsOnlyWhenHung : Prop :=
  ∀ s : State, (∃ t, step s = .next t) ∨
    (step s = .fault .transportNeverAnswers ∧ (∃ a v, s.sequencer = .waiting a v) ∧ ∀ a, Input.reset a ∉ s.inputs)

/-- R32, R175, R208: a block with a write outstanding takes no request and does nothing; a reset to come is its only way out,
and with none the step is the fault `transportNeverAnswers` (log entry 7). That the requests, the observation and the expander's
latch with its record go on through that reset is the model's choice (log entries 9, 12 and 17). -/
def Obligations.HungBlockLeavesOnlyByReset : Prop :=
  ∀ (s : State) (b : I2cAddr) (v : Byte) (before after : List Input), s.sequencer = .waiting b v →
    (∀ a, Input.reset a ∉ before) →
    (∀ a, s.inputs = before ++ .reset a :: after →
      ∃ t, step s = .next t ∧ t.phase = .uninit ∧ t.sequencer = .boot ∧ t.i2cAddr = a ∧ t.backlightBit = s.cfg.blReset ∧
        t.inputs = before ++ after ∧ t.trace = s.trace ∧ t.responses = s.responses ∧ t.expander = s.expander ∧
        t.pinLog = s.pinLog) ∧
    (s.inputs = before → step s = .fault .transportNeverAnswers)

/-! ## Admission (60_exceptions.md R165, R166) -/

/-- R165: an operation other than INIT requested while `phase` is not `Ready` is answered `NotReady`, whatever its operands
(R166): no transport call, no state change. -/
def Obligations.NotReadyOutsideReady : Prop :=
  ∀ (i : Instr) (s : State), i ≠ .init → s.phase ≠ .ready →
    exec i s = .next { s with responses := s.responses ++ [.notReady], sequencer := .idle }

/-! ## The primitives (40_primitives.md), for every setting of the parameters -/

/-- R80: `pulse(b)` writes `b` with enable set, holds `T_EN_HIGH`, writes `b` with enable clear, holds `T_EN_LOW`; it writes
no state; if the first write fails, nothing else runs, and if the second fails, the last hold does not. -/
def Obligations.PulseIsTwoWritesAndTwoHolds : Prop :=
  ∀ (b : Byte) (s : State),
    let evs : List Event := [.written s.i2cAddr (b ||| s.cfg.pinEn), .delay .enHigh,
      .written s.i2cAddr (b &&& ~~~s.cfg.pinEn), .delay .enLow]
    (s.okFor evs → pulse b s = .going (s.afterEvents evs)) ∧
    (s.failsAt 0 evs → ∃ t, pulse b s = .failed t ∧ sameRegisters s t ∧
      t.trace = s.trace ++ [.writeFailed s.i2cAddr (b ||| s.cfg.pinEn)]) ∧
    (s.failsAt 1 evs → ∃ t, pulse b s = .failed t ∧ sameRegisters s t ∧
      t.trace = s.trace ++ [.written s.i2cAddr (b ||| s.cfg.pinEn), .delay .enHigh,
        .writeFailed s.i2cAddr (b &&& ~~~s.cfg.pinEn)])

/-- R82 (with R80, R81): `sendByte(v, m)` is two pulses, of the payloads `(v & DATA_MASK) | m` and `((v << 4) & DATA_MASK) | m`
composed with the backlight bit, in that order; no register is written; a write that fails ends it there, the second pulse not
attempted if that was in the first. -/
def Obligations.SendByteIsTwoPulsesHighNibbleFirst : Prop :=
  ∀ (v : Byte) (data : Bool) (s : State),
    let m : Byte := if data then s.cfg.pinRs else 0
    let bl : Byte := if s.backlightBit then s.cfg.pinBl else 0
    let hi : Byte := ((v &&& s.cfg.dataMask) ||| m) ||| bl
    let lo : Byte := (((v <<< 4) &&& s.cfg.dataMask) ||| m) ||| bl
    let evs : List Event :=
      [.written s.i2cAddr (hi ||| s.cfg.pinEn), .delay .enHigh, .written s.i2cAddr (hi &&& ~~~s.cfg.pinEn), .delay .enLow,
       .written s.i2cAddr (lo ||| s.cfg.pinEn), .delay .enHigh, .written s.i2cAddr (lo &&& ~~~s.cfg.pinEn), .delay .enLow]
    (s.okFor evs → sendByte v data s = .going (s.afterEvents evs)) ∧
    (∀ k, s.failsAt k evs → ∃ t, sendByte v data s = .failed t ∧ sameRegisters s t ∧
      t.trace = s.trace ++ cutFailed k evs)

/-- R83: `rawNibble(n)` is one pulse with the nibble on D7..D4, mode flag 0, the backlight bit included. -/
def Obligations.RawNibbleIsOnePulse : Prop :=
  ∀ (n : Nibble) (s : State), s.cfg = Config.defaults →
    let x : Byte := (n ++ (0x0 : Nibble)) ||| (if s.backlightBit then 0x08 else 0x00)
    let evs : List Event := [.written s.i2cAddr (x ||| 0x04), .delay .enHigh, .written s.i2cAddr x, .delay .enLow]
    s.okFor evs → rawNibble n s = .going (s.afterEvents evs)

/-! ## INIT (41_init.md) -/

/-- R100: `op = 0x00` is INIT, which a booting block runs by itself; admitted in every phase, whatever the mirrors held
before. All 24 writes answered `Ok`: the bring-up nibbles, the commands 0x28, 0x0C, 0x06, 0x01 and the final delay; the three
mirrors written, `phase = Ready`, `backlightBit` and the rest unchanged, status OK. Failing at its write `k` (counted from 0):
`phase = Failed`, status `InitializationFailure`, the trace cut there; a register INIT had stored keeps the INIT value, the
others what they held. -/
def Obligations.InitSequence : Prop :=
  OpcodeIs 0x00 .init ∧ (∀ s : State, s.sequencer = .boot → step s = exec .init s) ∧
  (∀ s : State, writeCount (initEvents s) = 24) ∧
  (∀ s : State, s.cfg = Config.defaults → s.okFor (initEvents s) →
    exec .init s = .next (respond .ok ({ s with
      functionSet := 0x28, displayControl := 0x0C, entryMode := 0x06, phase := .ready }.afterEvents (initEvents s)))) ∧
  (∀ (k : Nat) (s : State), s.cfg = Config.defaults → s.failsAt k (initEvents s) →
    ∃ t, exec .init s = .next t ∧ t.phase = .failed ∧ t.responses = s.responses ++ [.initializationFailure] ∧
      t.trace = s.trace ++ cutFailed k (initEvents s) ∧
      t.functionSet = (if 8 ≤ k then 0x28 else s.functionSet) ∧
      t.displayControl = (if 12 ≤ k then 0x0C else s.displayControl) ∧
      t.entryMode = (if 16 ≤ k then 0x06 else s.entryMode) ∧
      t.backlightBit = s.backlightBit ∧ t.i2cAddr = s.i2cAddr ∧ t.cfg = s.cfg ∧ t.inputs = s.inputs ∧ t.sequencer = .idle)

/-- R100, R19, R208, R175: INIT stopped part-way posts nothing and is `Uninit`, as it was from its start; a register it had
stored keeps the INIT value. Waiting on a write never answered (log entries 7, 16): the byte of its write `k` is outstanding.
Cut by a reset inside its delay `j` (log entry 8): the reset is to be taken; the three mirrors are stored after 11, 15 and 19
delays. -/
def Obligations.InitStoppedPartWay : Prop :=
  (∀ (k : Nat) (s : State), s.cfg = Config.defaults → s.hangsAt k (initEvents s) →
    ∃ t v, exec .init s = .next t ∧ t.phase = .uninit ∧ t.responses = s.responses ∧
      t.trace = s.trace ++ cutBefore k (initEvents s) ∧ writeAt k (initEvents s) = some (s.i2cAddr, v) ∧
      t.sequencer = .waiting s.i2cAddr v ∧
      t.functionSet = (if 8 ≤ k then 0x28 else s.functionSet) ∧
      t.displayControl = (if 12 ≤ k then 0x0C else s.displayControl) ∧
      t.entryMode = (if 16 ≤ k then 0x06 else s.entryMode) ∧
      t.backlightBit = s.backlightBit ∧ t.i2cAddr = s.i2cAddr ∧ t.cfg = s.cfg ∧ t.inputs = s.inputs) ∧
  (∀ (j : Nat) (a : I2cAddr) (s : State), s.cfg = Config.defaults → s.cutAt j a (initEvents s) →
    ∃ t, exec .init s = .next t ∧ t.phase = .uninit ∧ t.responses = s.responses ∧
      t.trace = s.trace ++ cutBeforeDelay j (initEvents s) ∧ t.sequencer = .resetting a ∧
      t.functionSet = (if 11 ≤ j then 0x28 else s.functionSet) ∧
      t.displayControl = (if 15 ≤ j then 0x0C else s.displayControl) ∧
      t.entryMode = (if 19 ≤ j then 0x06 else s.entryMode) ∧
      t.backlightBit = s.backlightBit ∧ t.i2cAddr = s.i2cAddr ∧ t.cfg = s.cfg ∧ t.inputs = s.inputs)

/-! ## Direct commands (42_direct_commands.md) -/

/-- R110, R111: `op = 0x01` is CLEAR, which sends 0x01, and `op = 0x02` HOME, which sends 0x02, each followed by
`Dly(T_CLEAR_HOME)` if all four writes succeeded; no state is written; how they end otherwise. -/
def Obligations.ClearAndHomeComplete : Prop :=
  OpcodeIs 0x01 .clear ∧ OpcodeIs 0x02 .home ∧
  ∀ s : State, s.cfg = Config.defaults →
    let c := commandEvents s 0x01 ++ [.delay .clearHome]
    let h := commandEvents s 0x02 ++ [.delay .clearHome]
    (s.phase = .ready → s.okFor c → exec .clear s = .next (respond .ok (s.afterEvents c))) ∧
    (s.phase = .ready → s.okFor h → exec .home s = .next (respond .ok (s.afterEvents h))) ∧
    EndsEarly .clear s s c ∧ EndsEarly .home s s h

/-- R112, R113, R114, R115: `op` 0x20 to 0x23 are the four shifts, which send 0x10, 0x14, 0x18, 0x1C; no delay of their own,
no state written; how they end otherwise. -/
def Obligations.ShiftsComplete : Prop :=
  OpcodeIs 0x20 .cursorMoveLeft ∧ OpcodeIs 0x21 .cursorMoveRight ∧ OpcodeIs 0x22 .displayMoveLeft ∧
  OpcodeIs 0x23 .displayMoveRight ∧
  ∀ s : State, s.cfg = Config.defaults →
    (s.phase = .ready → s.okFor (commandEvents s 0x10) →
      exec .cursorMoveLeft s = .next (respond .ok (s.afterEvents (commandEvents s 0x10)))) ∧
    (s.phase = .ready → s.okFor (commandEvents s 0x14) →
      exec .cursorMoveRight s = .next (respond .ok (s.afterEvents (commandEvents s 0x14)))) ∧
    (s.phase = .ready → s.okFor (commandEvents s 0x18) →
      exec .displayMoveLeft s = .next (respond .ok (s.afterEvents (commandEvents s 0x18)))) ∧
    (s.phase = .ready → s.okFor (commandEvents s 0x1C) →
      exec .displayMoveRight s = .next (respond .ok (s.afterEvents (commandEvents s 0x1C)))) ∧
    EndsEarly .cursorMoveLeft s s (commandEvents s 0x10) ∧ EndsEarly .cursorMoveRight s s (commandEvents s 0x14) ∧
    EndsEarly .displayMoveLeft s s (commandEvents s 0x18) ∧ EndsEarly .displayMoveRight s s (commandEvents s 0x1C)

/-- R116: `op = 0x30` is SET_CURSOR with `col` in `a` and `row` in `b`. A row in 0 to 3 sends
`0x80 | ((col + offset[row]) mod 256)`, the offsets 0x00, 0x40, 0x14, 0x54; a row outside, read as signed, is rejected with no
transport call and no state change; no state is written; how it ends otherwise. -/
def Obligations.SetCursorCompletes : Prop :=
  (∀ r : Request, opField r.word = 0x30 → decode r = .ok (.setCursor (aField r.word) (bField r.word))) ∧
  ∀ (col row offset : Byte) (s : State), s.cfg = Config.defaults →
    ((row, offset) ∈ ([(0, 0x00), (1, 0x40), (2, 0x14), (3, 0x54)] : List (Byte × Byte)) →
      (s.phase = .ready → s.okFor (commandEvents s (0x80 ||| (col + offset))) →
        exec (.setCursor col row) s = .next (respond .ok (s.afterEvents (commandEvents s (0x80 ||| (col + offset)))))) ∧
      EndsEarly (.setCursor col row) s s (commandEvents s (0x80 ||| (col + offset)))) ∧
    (s.phase = .ready → (row.toInt < 0 ∨ 4 ≤ row.toInt) →
      exec (.setCursor col row) s = .next { s with responses := s.responses ++ [.invalidArgument], sequencer := .idle })

/-- R65: the set-DDRAM-address byte of a legal row, as a number: `0x80 + (col + offset)` up to 0x7F, and above it the sum
mod 256 with bit 7 set; its low 7 bits are the address `addr8 & 0x7F`. -/
def Obligations.SetCursorByteAsNumber : Prop :=
  ∀ col row : Byte, rowWf row = true →
    let sum := col.toNat + (rowBase row).toNat
    let byte := setDdramCommand Config.defaults (ddramAddr Config.defaults col row)
    (sum ≤ 0x7F → byte.toNat = 0x80 + sum) ∧ byte.toNat = (sum % 256) % 128 + 128

/-- R118: `op = 0x50` is SEND_COMMAND of the byte in `a`: the byte with mode flag 0, every value accepted; the mirror registers
are not updated; no delay follows; how it ends otherwise. -/
def Obligations.SendCommandCompletes : Prop :=
  (∀ r : Request, opField r.word = 0x50 → decode r = .ok (.sendCommand (aField r.word))) ∧
  ∀ (byte : Byte) (s : State), s.cfg = Config.defaults →
    (s.phase = .ready → s.okFor (commandEvents s byte) →
      exec (.sendCommand byte) s = .next (respond .ok (s.afterEvents (commandEvents s byte)))) ∧
    EndsEarly (.sendCommand byte) s s (commandEvents s byte)

/-- R119: `op = 0x51` is SEND_DATA of the byte in `a`: the byte with mode flag 1, every value accepted; no state is written;
how it ends otherwise. -/
def Obligations.SendDataCompletes : Prop :=
  (∀ r : Request, opField r.word = 0x51 → decode r = .ok (.sendData (aField r.word))) ∧
  ∀ (byte : Byte) (s : State), s.cfg = Config.defaults →
    (s.phase = .ready → s.okFor (dataEvents s byte) →
      exec (.sendData byte) s = .next (respond .ok (s.afterEvents (dataEvents s byte)))) ∧
    EndsEarly (.sendData byte) s s (dataEvents s byte)

/-- R205: a raw command does not touch the mirrors, and the next toggle works on the mirror, whatever the raw command was:
after SEND_COMMAND of any byte, each of the ten register toggles sends the mirror's own new value, and leaves the registers it
would have left without the raw command. -/
def Obligations.ToggleAfterRawCommandSendsMirror : Prop :=
  ∀ (byte : Byte) (i : Instr) (s : State), s.cfg = Config.defaults → s.phase = .ready →
    i ∈ [.displayOn, .displayOff, .cursorOn, .cursorOff, .blinkOn, .blinkOff, .leftToRight, .rightToLeft, .autoscrollOn,
      .autoscrollOff] →
    s.okFor (commandEvents s byte ++ planned i s) →
    ∃ t u, exec (.sendCommand byte) s = .next t ∧ sameRegisters s t ∧ exec i t = .next u ∧ sameRegisters (stored i s) u ∧
      u.trace = s.trace ++ commandEvents s byte ++ planned i s

/-! ## Toggles and backlight (43_register_toggles.md) -/

/-- R130 to R135: `op` 0x10 to 0x15; each `displayControl` toggle sets or clears its bit and sends the whole new register;
nothing else of the block changes; how it ends otherwise, the new register value kept. -/
def Obligations.DisplayControlTogglesComplete : Prop :=
  OpcodeIs 0x10 .displayOff ∧ OpcodeIs 0x11 .displayOn ∧ OpcodeIs 0x12 .cursorOff ∧ OpcodeIs 0x13 .cursorOn ∧
  OpcodeIs 0x14 .blinkOff ∧ OpcodeIs 0x15 .blinkOn ∧
  ∀ s : State, s.cfg = Config.defaults →
    let dc (v : Byte) : State := { s with displayControl := v }
    let becomes (v : Byte) : Host.Outcome State Fault Refusal :=
      .next (respond .ok ((dc v).afterEvents (commandEvents s v)))
    let ok (v : Byte) : Prop := s.phase = .ready ∧ s.okFor (commandEvents s v)
    (ok (s.displayControl ||| 0x04) → exec .displayOn s = becomes (s.displayControl ||| 0x04)) ∧
    (ok (s.displayControl &&& 0xFB) → exec .displayOff s = becomes (s.displayControl &&& 0xFB)) ∧
    (ok (s.displayControl ||| 0x02) → exec .cursorOn s = becomes (s.displayControl ||| 0x02)) ∧
    (ok (s.displayControl &&& 0xFD) → exec .cursorOff s = becomes (s.displayControl &&& 0xFD)) ∧
    (ok (s.displayControl ||| 0x01) → exec .blinkOn s = becomes (s.displayControl ||| 0x01)) ∧
    (ok (s.displayControl &&& 0xFE) → exec .blinkOff s = becomes (s.displayControl &&& 0xFE)) ∧
    (∀ p ∈ ([(.displayOn, s.displayControl ||| 0x04), (.displayOff, s.displayControl &&& 0xFB),
        (.cursorOn, s.displayControl ||| 0x02), (.cursorOff, s.displayControl &&& 0xFD),
        (.blinkOn, s.displayControl ||| 0x01), (.blinkOff, s.displayControl &&& 0xFE)] : List (Instr × Byte)),
      EndsEarly p.1 s (dc p.2) (commandEvents s p.2))

/-- R136 to R139: `op` 0x16 to 0x19; each `entryMode` toggle sets or clears its bit and sends the whole new register; nothing
else of the block changes; how it ends otherwise, the new register value kept. -/
def Obligations.EntryModeTogglesComplete : Prop :=
  OpcodeIs 0x16 .rightToLeft ∧ OpcodeIs 0x17 .leftToRight ∧ OpcodeIs 0x18 .autoscrollOff ∧ OpcodeIs 0x19 .autoscrollOn ∧
  ∀ s : State, s.cfg = Config.defaults →
    let em (v : Byte) : State := { s with entryMode := v }
    let becomes (v : Byte) : Host.Outcome State Fault Refusal :=
      .next (respond .ok ((em v).afterEvents (commandEvents s v)))
    let ok (v : Byte) : Prop := s.phase = .ready ∧ s.okFor (commandEvents s v)
    (ok (s.entryMode ||| 0x02) → exec .leftToRight s = becomes (s.entryMode ||| 0x02)) ∧
    (ok (s.entryMode &&& 0xFD) → exec .rightToLeft s = becomes (s.entryMode &&& 0xFD)) ∧
    (ok (s.entryMode ||| 0x01) → exec .autoscrollOn s = becomes (s.entryMode ||| 0x01)) ∧
    (ok (s.entryMode &&& 0xFE) → exec .autoscrollOff s = becomes (s.entryMode &&& 0xFE)) ∧
    (∀ p ∈ ([(.leftToRight, s.entryMode ||| 0x02), (.rightToLeft, s.entryMode &&& 0xFD),
        (.autoscrollOn, s.entryMode ||| 0x01), (.autoscrollOff, s.entryMode &&& 0xFE)] : List (Instr × Byte)),
      EndsEarly p.1 s (em p.2) (commandEvents s p.2))

/-- R140, R141: `op = 0x1B` is BACKLIGHT_ON and `op = 0x1A` BACKLIGHT_OFF; each writes the bit first and sends the no-op 0x00,
all four bytes with the new bit; nothing else of the block changes; on an early end the bit keeps its new value. -/
def Obligations.BacklightOperationsComplete : Prop :=
  OpcodeIs 0x1B .backlightOn ∧ OpcodeIs 0x1A .backlightOff ∧
  ∀ s : State, s.cfg = Config.defaults →
    let on : List Event :=
      [.written s.i2cAddr 0x0C, .delay .enHigh, .written s.i2cAddr 0x08, .delay .enLow,
       .written s.i2cAddr 0x0C, .delay .enHigh, .written s.i2cAddr 0x08, .delay .enLow]
    let off : List Event :=
      [.written s.i2cAddr 0x04, .delay .enHigh, .written s.i2cAddr 0x00, .delay .enLow,
       .written s.i2cAddr 0x04, .delay .enHigh, .written s.i2cAddr 0x00, .delay .enLow]
    (s.phase = .ready → s.okFor on →
      exec .backlightOn s = .next (respond .ok ({ s with backlightBit := true }.afterEvents on))) ∧
    (s.phase = .ready → s.okFor off →
      exec .backlightOff s = .next (respond .ok ({ s with backlightBit := false }.afterEvents off))) ∧
    EndsEarly .backlightOn s { s with backlightBit := true } on ∧
    EndsEarly .backlightOff s { s with backlightBit := false } off

/-- R163: a toggle or backlight operation that fails at any of its four writes leaves `phase = Ready`, keeps the new register
value, and the block takes the next request; retrying it, undisturbed, re-sends the same whole register and ends with OK. -/
def Obligations.FailedToggleKeepsRegisterAndRetries : Prop :=
  ∀ (i : Instr) (k : Nat) (s : State), s.cfg = Config.defaults → s.phase = .ready → s.failsAt k (planned i s) →
    i ∈ [.displayOn, .displayOff, .cursorOn, .cursorOff, .blinkOn, .blinkOff, .leftToRight, .rightToLeft,
      .autoscrollOn, .autoscrollOff, .backlightOn, .backlightOff] →
    ∃ t, exec i s = .next t ∧ t.responses = s.responses ++ [.transportError] ∧ t.phase = .ready ∧ t.reqReady = true ∧
      sameRegisters (stored i s) t ∧ t.answers = s.answers.drop (k + 1) ∧
      (t.okFor (planned i s) → ∃ u, exec i t = .next u ∧ u.responses = t.responses ++ [.ok] ∧ sameRegisters t u ∧
        u.trace = t.trace ++ planned i s)

/-- R133 (and S3, C4): from a `displayControl` with the cursor bit clear, CURSOR_ON and then CURSOR_OFF restore it exactly;
from one with the bit set they end with it clear; `entryMode` and `functionSet` are never altered. -/
def Obligations.CursorRoundTrip : Prop :=
  ∀ s : State, s.cfg = Config.defaults → s.phase = .ready →
    s.okFor (planned .cursorOn s ++ planned .cursorOff (stored .cursorOn s)) →
    ∃ t u, exec .cursorOn s = .next t ∧ exec .cursorOff t = .next u ∧
      (s.displayControl &&& 0x02 = 0 → u.displayControl = s.displayControl) ∧
      (s.displayControl &&& 0x02 ≠ 0 → u.displayControl = s.displayControl &&& 0xFD) ∧
      t.entryMode = s.entryMode ∧ t.functionSet = s.functionSet ∧
      u.entryMode = s.entryMode ∧ u.functionSet = s.functionSet

/-- R142: whatever the transport answers, a `displayControl` toggle changes at most its own bit of that register and an
`entryMode` toggle at most its own bit of that one; identifier and zero bits stay; the other mirrors and the backlight bit
are unchanged. -/
def Obligations.ToggleChangesAtMostItsBit : Prop :=
  ∀ (i : Instr) (dcBit emBit : Byte) (s t : State), s.cfg = Config.defaults → exec i s = .next t →
    (i, dcBit, emBit) ∈ ([(.displayOn, 0x04, 0), (.displayOff, 0x04, 0), (.cursorOn, 0x02, 0), (.cursorOff, 0x02, 0),
      (.blinkOn, 0x01, 0), (.blinkOff, 0x01, 0), (.leftToRight, 0, 0x02), (.rightToLeft, 0, 0x02),
      (.autoscrollOn, 0, 0x01), (.autoscrollOff, 0, 0x01)] : List (Instr × Byte × Byte)) →
    (t.displayControl ^^^ s.displayControl) &&& ~~~dcBit = 0 ∧ (t.entryMode ^^^ s.entryMode) &&& ~~~emBit = 0 ∧
      t.functionSet = s.functionSet ∧ t.backlightBit = s.backlightBit

/-! ## Text (44_text.md) -/

/-- R150: `op = 0x40` is WRITE of the text: each character as a data byte, in order, with no addressing command and no other
delay; no state is written; how it ends otherwise. -/
def Obligations.WriteCompletes : Prop :=
  (∀ r : Request, opField r.word = 0x40 → decode r = .ok (.write r.text)) ∧
  ∀ (text : List Byte) (s : State), s.cfg = Config.defaults →
    let evs := text.flatMap fun c => byteEvents s c true
    (s.phase = .ready → s.okFor evs →
      exec (.write text) s = .next (respond .ok (s.afterEvents evs))) ∧
    EndsEarly (.write text) s s evs

/-- R151: `op = 0x41` is WRITELN of the text with `line` in `a`. To line 0 or 1 it sends the command 0x80 or 0xC0, then each
character as a data byte, as one operation; any other line, read as signed, is rejected with no transport call; no state is
written; how it ends otherwise. -/
def Obligations.WritelnCompletes : Prop :=
  (∀ r : Request, opField r.word = 0x41 → decode r = .ok (.writeln r.text (aField r.word))) ∧
  ∀ (text : List Byte) (line cmd : Byte) (s : State), s.cfg = Config.defaults →
    let evs := commandEvents s cmd ++ text.flatMap fun c => byteEvents s c true
    ((line, cmd) ∈ ([(0, 0x80), (1, 0xC0)] : List (Byte × Byte)) →
      (s.phase = .ready → s.okFor evs →
        exec (.writeln text line) s = .next (respond .ok (s.afterEvents evs))) ∧
      EndsEarly (.writeln text line) s s evs) ∧
    (s.phase = .ready → line.toInt ≠ 0 → line.toInt ≠ 1 →
      exec (.writeln text line) s = .next { s with responses := s.responses ++ [.invalidArgument], sequencer := .idle })

/-- R150: a WRITE whose character `n` fails at its write `j` has sent the characters before `n` whole and nothing after the
failed write; status `TransportError`. -/
def Obligations.FailedWriteSendsNoLaterCharacter : Prop :=
  ∀ (sent rest : List Byte) (c : Byte) (j : Nat) (s : State), s.cfg = Config.defaults → s.phase = .ready → j < 4 →
    s.failsAt (4 * sent.length + j) (textEvents s (sent ++ c :: rest)) →
    ∃ t, exec (.write (sent ++ c :: rest)) s = .next t ∧ t.responses = s.responses ++ [.transportError] ∧
      t.trace = s.trace ++ (sent.flatMap fun d => byteEvents s d true) ++ cutFailed j (byteEvents s c true)

/-- R70: WRITE of one character is SEND_DATA; WRITE of nothing answers OK with no transport call. -/
def Obligations.WriteOfOneCharacterIsSendData : Prop :=
  (∀ (c : Byte) (s : State), exec (.write [c]) s = exec (.sendData c) s) ∧
  (∀ s : State, s.phase = .ready → exec (.write []) s = .next (respond .ok s))

/-- R70: `WRITELN t, line` is `SEND_COMMAND 0x80` (line 0) or `SEND_COMMAND 0xC0` (line 1) then `WRITE t`, for the trace and
the state of the block; the expanded form is two requests and gives two responses. -/
def Obligations.WritelnIsCommandThenWrite : Prop :=
  ∀ (text : List Byte) (s : State), s.cfg = Config.defaults → s.phase = .ready →
    ∀ p ∈ ([(0, 0x80), (1, 0xC0)] : List (Byte × Byte)), s.okFor (commandEvents s p.2 ++ textEvents s text) →
      ∃ t u w, exec (.writeln text p.1) s = .next t ∧ exec (.sendCommand p.2) s = .next u ∧ exec (.write text) u = .next w ∧
        w = { t with responses := s.responses ++ [.ok, .ok] } ∧ t.responses = s.responses ++ [.ok]

/-! ## Whole-machine rules -/

/-- R42, R161, R163, R208: every admitted operation but INIT, with legal operands, makes its planned trace, cut where the
environment first disturbs it; the register stored before the first transport call is kept and `phase` stays `Ready`. At a
write answered `Err`: that write ends the trace, status `TransportError`. At a write never answered (log entry 7): nothing is
posted and the write stays outstanding. In a delay that a reset lands in (R175, log entry 8): nothing is posted and the reset
is to be taken. -/
def Obligations.OperationIsPlannedTraceCutAtFirstFailure : Prop :=
  ∀ (i : Instr) (s : State), s.cfg = Config.defaults → s.phase = .ready → i ≠ .init → i.wf = true →
    (s.okFor (planned i s) → exec i s = .next (respond .ok ((stored i s).afterEvents (planned i s)))) ∧
    (∀ k, s.failsAt k (planned i s) → ∃ t, exec i s = .next t ∧
      t.trace = s.trace ++ cutFailed k (planned i s) ∧ t.responses = s.responses ++ [.transportError] ∧
      sameRegisters (stored i s) t ∧ t.inputs = s.inputs ∧ t.sequencer = .idle ∧
      t.answers = s.answers.drop (k + 1) ∧ t.transportCalls = s.transportCalls + (k + 1)) ∧
    (∀ k, s.hangsAt k (planned i s) → ∃ t v, exec i s = .next t ∧
      t.trace = s.trace ++ cutBefore k (planned i s) ∧ t.responses = s.responses ∧
      writeAt k (planned i s) = some (s.i2cAddr, v) ∧ t.sequencer = .waiting s.i2cAddr v ∧
      sameRegisters (stored i s) t ∧ t.inputs = s.inputs) ∧
    (∀ j a, s.cutAt j a (planned i s) → ∃ t, exec i s = .next t ∧
      t.trace = s.trace ++ cutBeforeDelay j (planned i s) ∧ t.responses = s.responses ∧ t.sequencer = .resetting a ∧
      sameRegisters (stored i s) t ∧ t.inputs = s.inputs)

/-- R160, R166: every operation whose writes are answered, and that no reset cuts, ends with exactly one response, on the
response port and new, the first of R166's checks that fails giving the status: `NotReady` outside `Ready` (but for INIT), then
`InvalidArgument` for an operand out of range, both with no transport call; then OK if no write fails, else
`InitializationFailure` (INIT) or `TransportError`. The codes are 0 to 4. That `rsp_valid` is high in the state after the
response is the model's choice of its timing (log entry 14). -/
def Obligations.EveryAnsweredOperationPostsOneStatus : Prop :=
  (∀ (i : Instr) (s : State), s.cfg = Config.defaults → s.answeredFor (planned i s) →
    ∃ t st, exec i s = .next t ∧ t.responses = s.responses ++ [st] ∧ t.reqReady = true ∧
      t.rspValid = true ∧ t.rspStatus = some st.code ∧ s.newResponse t = some st ∧
      (i ≠ .init → s.phase ≠ .ready → st = .notReady ∧ t.trace = s.trace) ∧
      (s.phase = .ready → i.wf = false → st = .invalidArgument ∧ t.trace = s.trace) ∧
      ((i = .init ∨ s.phase = .ready) → i.wf = true → s.okFor (planned i s) → st = .ok) ∧
      ((i = .init ∨ s.phase = .ready) → i.wf = true → ¬ s.okFor (planned i s) →
        st = if i = .init then .initializationFailure else .transportError)) ∧
  (Status.ok.code = 0 ∧ Status.transportError.code = 1 ∧ Status.invalidArgument.code = 2 ∧
    Status.initializationFailure.code = 3 ∧ Status.notReady.code = 4 ∧ ∀ st : Status, st.code.toNat < 5)

/-- R208, R32: an operation whose write `k` is never answered, nothing disturbing it before, posts no response: `req_ready` and
`rsp_valid` are low and the write stays on the transport port, its byte to `I2C_ADDR`. INIT and every admitted operation with
legal operands. (That the block waits is log entry 7, deduced; that `rsp_valid` is low meanwhile is the model's choice, log
entry 14.) -/
def Obligations.UnansweredWriteHangsOperation : Prop :=
  ∀ (i : Instr) (k : Nat) (s : State), s.cfg = Config.defaults → (i = .init ∨ s.phase = .ready) → i.wf = true →
    s.hangsAt k (planned i s) →
    ∃ t v, exec i s = .next t ∧ t.responses = s.responses ∧ t.reqReady = false ∧ t.rspValid = false ∧ t.rspStatus = none ∧
      s.newResponse t = none ∧ t.twValid = true ∧ writeAt k (planned i s) = some (s.i2cAddr, v) ∧
      t.twAddr = some s.i2cAddr ∧ t.twData = some v ∧ t.inputs = s.inputs

/-- R175, R202, R190, R191: a reset inside any delay of an operation, its last one included, stops the operation there: it
posts no response and takes no request; the next step is the reset, and the one after it the boot INIT. INIT and every admitted
operation with legal operands. (How the reset is given to the model is log entry 8; that `rsp_valid` is low then is log entry 14,
and that the observation, the requests and the expander's latch go on through the reset is log entry 17: the model's choices.) -/
def Obligations.ResetInDelayStopsOperation : Prop :=
  ∀ (i : Instr) (j : Nat) (a : I2cAddr) (s : State), s.cfg = Config.defaults → (i = .init ∨ s.phase = .ready) →
    i.wf = true → s.cutAt j a (planned i s) →
    ∃ t u, exec i s = .next t ∧ t.responses = s.responses ∧ t.reqReady = false ∧ t.rspValid = false ∧ t.twValid = false ∧
      t.trace = s.trace ++ cutBeforeDelay j (planned i s) ∧ t.inputs = s.inputs ∧
      step t = .next u ∧ u.phase = .uninit ∧ u.backlightBit = s.cfg.blReset ∧ u.i2cAddr = a ∧ u.reqReady = false ∧
      u.responses = s.responses ∧ u.trace = t.trace ∧ u.inputs = s.inputs ∧ u.expander = t.expander ∧
      step u = exec .init u

/-- R35, R51, R23: every byte an operation writes, whatever the answers, goes to `I2C_ADDR`, has bit 1 (`PIN_RW`) clear, and
has bit 3 (`PIN_BL`) equal to the current `backlightBit`; the trace only grows. -/
def Obligations.EveryByteCarriesBacklightAndNoRead : Prop :=
  ∀ (i : Instr) (s t : State), s.cfg = Config.defaults → exec i s = .next t →
    ∃ evs, t.trace = s.trace ++ evs ∧ ∀ e ∈ evs, (∀ a ∈ e.addr, a = s.i2cAddr) ∧
      ∀ v ∈ e.byte, v &&& 0x02 = 0 ∧ v &&& 0x08 = (if t.backlightBit then 0x08 else 0x00)

/-- R80, R194: the trace of an operation, whatever the environment does, is made of whole pulses (enable set,
`Dly(T_EN_HIGH)`, the same byte with enable clear, `Dly(T_EN_LOW)`) with settle delays between them, and may stop at a failed
write, an unanswered write or a delay that a reset cuts. -/
def Obligations.OperationTraceIsMadeOfPulses : Prop :=
  ∀ (i : Instr) (s t : State), s.cfg = Config.defaults → exec i s = .next t →
    ∃ evs, t.trace = s.trace ++ evs ∧ pulseShaped Config.defaults evs = true

/-- R10's "written by" column and R13, R19: which operations may change which register, in any phase, with any operands,
whatever the answers; nothing but INIT changes `phase`; nothing changes `I2C_ADDR` or the parameters. -/
def Obligations.RegistersAreWrittenOnlyByTheirOperations : Prop :=
  ∀ (i : Instr) (s t : State), exec i s = .next t →
    (i ∉ [.init, .displayOn, .displayOff, .cursorOn, .cursorOff, .blinkOn, .blinkOff] →
      t.displayControl = s.displayControl) ∧
    (i ∉ [.init, .leftToRight, .rightToLeft, .autoscrollOn, .autoscrollOff] → t.entryMode = s.entryMode) ∧
    (i ≠ .init → t.functionSet = s.functionSet ∧ t.phase = s.phase) ∧
    (i ∉ [.backlightOn, .backlightOff] → t.backlightBit = s.backlightBit) ∧
    t.i2cAddr = s.i2cAddr ∧ t.cfg = s.cfg ∧ t.inputs = s.inputs

/-- R19, R164: INIT ends in `Ready` exactly with status OK, in `Failed` exactly with `InitializationFailure`, or stays
`Uninit` with nothing posted while it waits on a write never answered or a reset has cut it. -/
def Obligations.InitPhaseFollowsStatus : Prop :=
  ∀ s t : State, exec .init s = .next t →
    (t.phase = .ready ∧ t.responses = s.responses ++ [.ok] ∧ t.sequencer = .idle) ∨
    (t.phase = .failed ∧ t.responses = s.responses ++ [.initializationFailure] ∧ t.sequencer = .idle) ∨
    (t.phase = .uninit ∧ t.responses = s.responses ∧ t.reqReady = false)

/-- R30, R34: whatever the environment does, an operation changes no location of the address space but the one at `I2C_ADDR`,
and records no other; when nothing disturbs an admitted operation with legal operands, that location holds the last byte it
wrote, and where it wrote none, what it held. -/
def Obligations.OnlyTheAddressedLatchChanges : Prop :=
  (∀ (i : Instr) (s t : State), exec i s = .next t →
    (∀ x : Nat, x ≠ s.i2cAddr.toNat → t.expander.read x = s.expander.read x) ∧
    ∃ pins, t.pinLog = s.pinLog ++ pins ∧ ∀ p ∈ pins, p.1 = s.i2cAddr) ∧
  (∀ (i : Instr) (s : State), s.cfg = Config.defaults → (i = .init ∨ s.phase = .ready) → i.wf = true →
    s.okFor (planned i s) → ∃ t, exec i s = .next t ∧
      t.expander.read s.i2cAddr.toNat =
        (((planned i s).filterMap Event.byte).getLast?).or (s.expander.read s.i2cAddr.toNat))

/-- R86: an admitted operation with legal operands, none of its writes failing, makes 24 transport writes (INIT), four a
character (WRITE), four and four a character (WRITELN), four (every other). -/
def Obligations.TransportWriteCounts : Prop :=
  ∀ (i : Instr) (s : State), s.cfg = Config.defaults → (i = .init ∨ s.phase = .ready) → i.wf = true →
    s.okFor (planned i s) → ∃ t evs, exec i s = .next t ∧ t.trace = s.trace ++ evs ∧ writeCount evs = writesOf i ∧
      t.transportCalls = s.transportCalls + writesOf i

/-- R209: the sums of minimum delays, in microseconds: 12.5 ms for INIT, 201.2 ms for CLEAR and HOME, 1.2 ms a character for
WRITE, 1.2 ms times n + 1 for WRITELN, 1.2 ms for every other; 0 for a refused request. -/
def Obligations.MinimumDelaySums : Prop :=
  (∀ (i : Instr) (s : State), s.cfg = Config.defaults → (i = .init ∨ s.phase = .ready) → i.wf = true →
    s.okFor (planned i s) → ∃ t evs, exec i s = .next t ∧ t.trace = s.trace ++ evs ∧
      minDelays Config.defaults evs = minDelayOf i) ∧
  (∀ (i : Instr) (s : State), s.cfg = Config.defaults → i ≠ .init → (s.phase ≠ .ready ∨ i.wf = false) →
    ∃ t, exec i s = .next t ∧ t.trace = s.trace)

/-- R36, R37, for a model that tracks what the controller latches: a data or a command byte reaches it as its high nibble and
then its low nibble, with register-select 1 for data and 0 for a command; INIT as the nibbles 3, 3, 3, 2 and the bytes 0x28,
0x0C, 0x06, 0x01, appended to whatever was latched before, failed writes included. A byte that fails at its write `k` has
latched the nibbles of its whole pulses, and at most one more edge, which is free. The sampling on the falling edge of enable is
from general knowledge, and what failed and unanswered writes leave is the model's free value (log entry 19). -/
def Obligations.ControllerLatchesNibblesHighFirst : Prop :=
  (∀ (byte : Byte) (data : Bool) (s : State), s.cfg = Config.defaults → s.phase = .ready →
    let i : Instr := if data then .sendData byte else .sendCommand byte
    let nibbles := [(data, byte.extractLsb' 4 4), (data, byte.extractLsb' 0 4)]
    (s.okFor (byteEvents s byte data) →
      ∃ t, exec i s = .next t ∧ t.latched s.i2cAddr = s.latched s.i2cAddr ++ nibbles) ∧
    (∀ k, s.failsAt k (byteEvents s byte data) →
      ∃ t edge, exec i s = .next t ∧ edge.length ≤ 1 ∧
        t.latched s.i2cAddr = s.latched s.i2cAddr ++ nibbles.take (k / 2) ++ edge)) ∧
  (∀ s : State, s.cfg = Config.defaults → s.okFor (initEvents s) →
    ∃ t new, exec .init s = .next t ∧ t.latched s.i2cAddr = s.latched s.i2cAddr ++ new ∧
      new.take 4 = [(false, 0x3), (false, 0x3), (false, 0x3), (false, 0x2)] ∧
      latchedBytes (new.drop 4) = [(false, 0x28), (false, 0x0C), (false, 0x06), (false, 0x01)])

/-- R14: INIT, none of its writes failing, leaves the three mirrors reflecting the last command byte of their kind actually
sent; and every admitted operation none of whose writes fails keeps that so, but for a raw SEND_COMMAND of a byte of one of
the three kinds (0x08..0x0F, 0x04..0x07, 0x20..0x3F). -/
def Obligations.MirrorsReflectLastByteSent : Prop :=
  (∀ s : State, s.cfg = Config.defaults → s.okFor (initEvents s) → ∃ t, exec .init s = .next t ∧ MirrorsReflectTrace t) ∧
  (∀ (i : Instr) (s : State), s.cfg = Config.defaults → s.phase = .ready → MirrorsReflectTrace s →
    s.okFor (planned i s) →
    (∀ byte, i = .sendCommand byte → ofKind 0x08 byte = false ∧ ofKind 0x04 byte = false ∧ ofKind 0x20 byte = false) →
    ∃ t, exec i s = .next t ∧ MirrorsReflectTrace t)

/-- No step takes anything back: the trace, the responses (R160: at most one a step) and the record of the pins only grow, and
the address space keeps its canonical form. No rule of the spec says so as a whole: R42 defines the trace and R160 the response,
but that State keeps both is log entry 12, the record of the pins and the form of the address space are log entry 9, and that a
reset step leaves all of them as they are is log entry 17: the model's choices. -/
def Obligations.StepOnlyAppends : Prop :=
  ∀ s t : State, step s = .next t →
    (∃ evs, t.trace = s.trace ++ evs) ∧ (∃ sts, t.responses = s.responses ++ sts ∧ sts.length ≤ 1) ∧
    (∃ pins, t.pinLog = s.pinLog ++ pins) ∧ (s.expander.wf = true → t.expander.wf = true)

/-- R30, R34: every step keeps the address space in agreement with the record of what the pins have held (log entry 9), and
they agree at reset. -/
def Obligations.PinsAgreeWithTheirRecord : Prop :=
  PinsAgree State.reset ∧ ∀ s t : State, PinsAgree s → step s = .next t → PinsAgree t

/-- R15, R16, R17, R35, R165, R190: the invariant of a safe block is kept by every step. -/
def Obligations.StepKeepsInvariant : Prop :=
  ∀ s t : State, Inv s → step s = .next t → Inv t

/-- The invariant holds right after reset. -/
def Obligations.ResetMeetsInvariant : Prop := Inv State.reset

/-- R20: what the mirror registers hold before INIT has written them is unobservable. Two states that differ at most in the
mirrors, and in `Ready` not at all, take steps of the same kind to states that differ at most so: the same trace, the same
responses, the same pins, for ever. -/
def Obligations.UnwrittenMirrorsAreUnobservable : Prop :=
  ∀ s t : State, sameButUnreadMirrors s t → outcomesRelated sameButUnreadMirrors (step s) (step t)

/-! ## Encoding (30_encoding.md) -/

/-- R64, R66: decoding the request an operation is encoded as gives the operation back, for all 24 operations and every value
of their operands. -/
def Obligations.DecodeOfEncode : Prop := ∀ i : Instr, decode (encode i) = .ok i

/-- R66, R67: a request decodes exactly if its `op` is one of the 24 assigned values; the error names the opcode. -/
def Obligations.DecodeFailsExactlyOnUnassigned : Prop :=
  ∀ r : Request, (opField r.word ∈ assignedOpcodes ↔ ∃ i, decode r = .ok i) ∧
    (opField r.word ∉ assignedOpcodes → decode r = .error (.unassignedOpcode (opField r.word)))

/-- R65, R67: only the fields a format uses matter: two requests with the same opcode decode to the same operation if they
agree on `a` where the format is B, CR or TL, on `b` where it is CR, and on the text where it is T or TL. -/
def Obligations.IgnoredFieldsHaveNoEffect : Prop :=
  ∀ q r : Request, opField q.word = opField r.word →
    (opField q.word ∈ ([0x30, 0x41, 0x50, 0x51] : List Byte) → aField q.word = aField r.word) →
    (opField q.word = 0x30 → bField q.word = bField r.word) →
    (opField q.word ∈ ([0x40, 0x41] : List Byte) → q.text = r.text) → decode q = decode r

/-- Words of the spec's programs P1 to P4 decode to the operations they stand for (R64, R66). -/
def Obligations.DecodesWordsOfTheSpec : Prop :=
  decode ⟨0x000000, []⟩ = .ok .init ∧ decode ⟨0x410000, [0x48, 0x69]⟩ = .ok (.writeln [0x48, 0x69] 0) ∧
  decode ⟨0x130000, []⟩ = .ok .cursorOn ∧ decode ⟨0x190000, []⟩ = .ok .autoscrollOn ∧
  decode ⟨0x300704, []⟩ = .ok (.setCursor 7 4) ∧ decode ⟨0x400000, [0x43]⟩ = .ok (.write [0x43]) ∧
  decode ⟨0x1A0000, []⟩ = .ok .backlightOff ∧ decode ⟨0x030000, []⟩ = .error (.unassignedOpcode 0x03)
end

