-- ==== Sys2Proof/Laws/Decode.lean ====
section
/-! SUPPORT. The fields of a packed request word (spec 30_encoding.md R64). -/

namespace Sys2Proof

theorem opField_packWord (op a b : Byte) : opField (packWord op a b) = op := by
  unfold opField packWord
  ext j hj
  simp only [BitVec.getElem_extractLsb', BitVec.getLsbD_append]
  rw [if_neg (by omega), if_neg (by omega), show 16 + j - 8 - 8 = j by omega]
  exact BitVec.getLsbD_eq_getElem hj

theorem aField_packWord (op a b : Byte) : aField (packWord op a b) = a := by
  unfold aField packWord
  ext j hj
  simp only [BitVec.getElem_extractLsb', BitVec.getLsbD_append]
  rw [if_neg (by omega), if_pos (by omega), show 8 + j - 8 = j by omega]
  exact BitVec.getLsbD_eq_getElem hj

theorem bField_packWord (op a b : Byte) : bField (packWord op a b) = b := by
  unfold bField packWord
  ext j hj
  simp only [BitVec.getElem_extractLsb', BitVec.getLsbD_append]
  rw [if_pos (by omega), show 0 + j = j by omega]
  exact BitVec.getLsbD_eq_getElem hj

end Sys2Proof
end

