-- ==== Sys2Proof/Laws/Memory.lean ====
section
/-! SUPPORT. The laws of the address space (spec 20_memory.md R30, R34): read after write, and that a write keeps the
canonical form. -/

namespace Sys2Proof.Machine

theorem memory_read_write_same (m : Memory) (a : Nat) (b : Byte) : (m.write a b).read a = some b := by
  induction m with
  | nil => simp [Memory.write, Memory.read]
  | cons e rest ih =>
    obtain ⟨k, v⟩ := e
    simp only [Memory.write]
    split
    · simp [Memory.read]
    · split
      · simp [Memory.read]
      · rename_i h
        simp only [Memory.read, if_neg (fun hk : k = a => h hk.symm)]
        exact ih

theorem memory_read_write_other (m : Memory) {a x : Nat} (b : Byte) (h : x ≠ a) :
    (m.write a b).read x = m.read x := by
  induction m with
  | nil => simp [Memory.write, Memory.read, Ne.symm h]
  | cons e rest ih =>
    obtain ⟨k, v⟩ := e
    simp only [Memory.write]
    split
    · simp [Memory.read, Ne.symm h]
    · split
      · rename_i hk
        subst hk
        simp [Memory.read, Ne.symm h]
      · simp only [Memory.read, ih]

/-- The addresses of a written memory still rise from any bound that the written address respects. -/
theorem memory_write_rises (m : Memory) (lo : Option Nat) (a : Nat) (b : Byte)
    (hlo : lo.all (fun l => decide (l < a)) = true) (h : m.risesFrom lo = true) :
    (m.write a b).risesFrom lo = true := by
  induction m generalizing lo with
  | nil => simp [Memory.write, Memory.risesFrom, hlo]
  | cons e rest ih =>
    obtain ⟨k, v⟩ := e
    simp only [Memory.risesFrom, Bool.and_eq_true] at h
    simp only [Memory.write]
    split
    · rename_i hk
      simp [Memory.risesFrom, hlo, hk, h.2]
    · split
      · rename_i hk
        subst hk
        simp [Memory.risesFrom, hlo, h.2]
      · rename_i h1 h2
        simp only [Memory.risesFrom, Bool.and_eq_true]
        exact ⟨h.1, ih (some k) (by simp; omega) h.2⟩

theorem memory_write_bounded (m : Memory) (n a : Nat) (b : Byte) (ha : a < n)
    (h : m.all (fun e => decide (e.1 < n)) = true) : (m.write a b).all (fun e => decide (e.1 < n)) = true := by
  induction m with
  | nil => simp [Memory.write, ha]
  | cons e rest ih =>
    obtain ⟨k, v⟩ := e
    simp only [List.all_cons, Bool.and_eq_true] at h
    simp only [Memory.write]
    split
    · simp only [List.all_cons, Bool.and_eq_true]
      exact ⟨decide_eq_true ha, h⟩
    · split
      · simp only [List.all_cons, Bool.and_eq_true]
        exact ⟨decide_eq_true ha, h.2⟩
      · simp only [List.all_cons, Bool.and_eq_true]
        exact ⟨h.1, ih h.2⟩

/-- A write to an I2C address keeps the canonical form. -/
theorem memory_write_wf (m : Memory) (a : I2cAddr) (b : Byte) (h : m.wf = true) : (m.write a.toNat b).wf = true := by
  simp only [Memory.wf, Bool.and_eq_true] at h ⊢
  exact ⟨memory_write_bounded m 128 _ b a.isLt h.1, memory_write_rises m none _ b rfl h.2⟩

/-- A second write to the same address replaces the first. -/
theorem memory_write_write (m : Memory) (a : Nat) (b c : Byte) : (m.write a b).write a c = m.write a c := by
  induction m with
  | nil => simp [Memory.write]
  | cons e rest ih =>
    obtain ⟨k, v⟩ := e
    simp only [Memory.write]
    split
    · simp [Memory.write]
    · split
      · simp [Memory.write]
      · rename_i h1 h2
        simp only [Memory.write, if_neg h1, if_neg h2, ih]

/-- The operations on the address space keep its canonical form. -/
theorem setPins_wf (s : State) (a : I2cAddr) (v : Byte) (h : s.expander.wf = true) :
    (s.setPins a v).expander.wf = true := memory_write_wf s.expander a v h

theorem reset_memory_wf : State.reset.expander.wf = true := by decide

/-! ## The record of the pins, and what was latched -/

theorem pinsAt_setPins_same (s : State) (a : I2cAddr) (v : Byte) : (s.setPins a v).pinsAt a = s.pinsAt a ++ [v] := by
  simp [State.pinsAt, State.setPins]

theorem pinsAt_setPins_other (s : State) {a x : I2cAddr} (v : Byte) (h : x ≠ a) :
    (s.setPins a v).pinsAt x = s.pinsAt x := by
  simp [State.pinsAt, State.setPins, Ne.symm h]

/-- A byte with enable set makes no falling edge, whatever was before it, and what follows starts with enable high. -/
theorem latchedFrom_enable_set (c : Config) (high : Bool) (xs : List Byte) {v : Byte} (ys : List Byte)
    (h : hasFlag c.pinEn v = true) :
    latchedFrom c high (xs ++ v :: ys) = latchedFrom c high xs ++ latchedFrom c true ys := by
  induction xs generalizing high with
  | nil => simp [latchedFrom, h]
  | cons x xs ih =>
    simp only [List.cons_append, latchedFrom]
    split
    · exact ih true
    · split <;> simp [ih]

end Sys2Proof.Machine
end

