-- ==== Sys2Proof/Laws/State.lean ====
section
/-! SUPPORT. The fields of State after each update, one lemma per field per update, all by rfl. -/

namespace Sys2Proof.Machine

variable (s : State)

@[simp] theorem countWrite_displayControl : (s.countWrite).displayControl = s.displayControl := rfl
@[simp] theorem countWrite_entryMode : (s.countWrite).entryMode = s.entryMode := rfl
@[simp] theorem countWrite_functionSet : (s.countWrite).functionSet = s.functionSet := rfl
@[simp] theorem countWrite_backlightBit : (s.countWrite).backlightBit = s.backlightBit := rfl
@[simp] theorem countWrite_phase : (s.countWrite).phase = s.phase := rfl
@[simp] theorem countWrite_i2cAddr : (s.countWrite).i2cAddr = s.i2cAddr := rfl
@[simp] theorem countWrite_cfg : (s.countWrite).cfg = s.cfg := rfl
@[simp] theorem countWrite_sequencer : (s.countWrite).sequencer = s.sequencer := rfl
@[simp] theorem countWrite_inputs : (s.countWrite).inputs = s.inputs := rfl
@[simp] theorem countWrite_answers : (s.countWrite).answers = s.answers.tail := rfl
@[simp] theorem countWrite_transportCalls : (s.countWrite).transportCalls = s.transportCalls + 1 := rfl
@[simp] theorem countWrite_trace : (s.countWrite).trace = s.trace := rfl
@[simp] theorem countWrite_responses : (s.countWrite).responses = s.responses := rfl
@[simp] theorem countWrite_expander : (s.countWrite).expander = s.expander := rfl

@[simp] theorem countWrite_delayResets : (s.countWrite).delayResets = s.delayResets := rfl
@[simp] theorem countWrite_pinLog : (s.countWrite).pinLog = s.pinLog := rfl

@[simp] theorem log_delayResets (e : Event) : (s.log e).delayResets = s.delayResets := rfl
@[simp] theorem log_pinLog (e : Event) : (s.log e).pinLog = s.pinLog := rfl
@[simp] theorem log_displayControl (e : Event) : (s.log e).displayControl = s.displayControl := rfl
@[simp] theorem log_entryMode (e : Event) : (s.log e).entryMode = s.entryMode := rfl
@[simp] theorem log_functionSet (e : Event) : (s.log e).functionSet = s.functionSet := rfl
@[simp] theorem log_backlightBit (e : Event) : (s.log e).backlightBit = s.backlightBit := rfl
@[simp] theorem log_phase (e : Event) : (s.log e).phase = s.phase := rfl
@[simp] theorem log_i2cAddr (e : Event) : (s.log e).i2cAddr = s.i2cAddr := rfl
@[simp] theorem log_cfg (e : Event) : (s.log e).cfg = s.cfg := rfl
@[simp] theorem log_sequencer (e : Event) : (s.log e).sequencer = s.sequencer := rfl
@[simp] theorem log_inputs (e : Event) : (s.log e).inputs = s.inputs := rfl
@[simp] theorem log_answers (e : Event) : (s.log e).answers = s.answers := rfl
@[simp] theorem log_transportCalls (e : Event) : (s.log e).transportCalls = s.transportCalls := rfl
@[simp] theorem log_trace (e : Event) : (s.log e).trace = s.trace ++ [e] := rfl
@[simp] theorem log_responses (e : Event) : (s.log e).responses = s.responses := rfl
@[simp] theorem log_expander (e : Event) : (s.log e).expander = s.expander := rfl

@[simp] theorem setPins_displayControl (a : I2cAddr) (v : Byte) : (s.setPins a v).displayControl = s.displayControl := rfl
@[simp] theorem setPins_entryMode (a : I2cAddr) (v : Byte) : (s.setPins a v).entryMode = s.entryMode := rfl
@[simp] theorem setPins_functionSet (a : I2cAddr) (v : Byte) : (s.setPins a v).functionSet = s.functionSet := rfl
@[simp] theorem setPins_backlightBit (a : I2cAddr) (v : Byte) : (s.setPins a v).backlightBit = s.backlightBit := rfl
@[simp] theorem setPins_phase (a : I2cAddr) (v : Byte) : (s.setPins a v).phase = s.phase := rfl
@[simp] theorem setPins_i2cAddr (a : I2cAddr) (v : Byte) : (s.setPins a v).i2cAddr = s.i2cAddr := rfl
@[simp] theorem setPins_cfg (a : I2cAddr) (v : Byte) : (s.setPins a v).cfg = s.cfg := rfl
@[simp] theorem setPins_sequencer (a : I2cAddr) (v : Byte) : (s.setPins a v).sequencer = s.sequencer := rfl
@[simp] theorem setPins_inputs (a : I2cAddr) (v : Byte) : (s.setPins a v).inputs = s.inputs := rfl
@[simp] theorem setPins_answers (a : I2cAddr) (v : Byte) : (s.setPins a v).answers = s.answers := rfl
@[simp] theorem setPins_transportCalls (a : I2cAddr) (v : Byte) : (s.setPins a v).transportCalls = s.transportCalls := rfl
@[simp] theorem setPins_trace (a : I2cAddr) (v : Byte) : (s.setPins a v).trace = s.trace := rfl
@[simp] theorem setPins_responses (a : I2cAddr) (v : Byte) : (s.setPins a v).responses = s.responses := rfl
@[simp] theorem setPins_expander (a : I2cAddr) (v : Byte) : (s.setPins a v).expander = s.expander.write a.toNat v := rfl

@[simp] theorem wrote_displayControl (v : Byte) : (s.wrote v).displayControl = s.displayControl := rfl
@[simp] theorem wrote_entryMode (v : Byte) : (s.wrote v).entryMode = s.entryMode := rfl
@[simp] theorem wrote_functionSet (v : Byte) : (s.wrote v).functionSet = s.functionSet := rfl
@[simp] theorem wrote_backlightBit (v : Byte) : (s.wrote v).backlightBit = s.backlightBit := rfl
@[simp] theorem wrote_phase (v : Byte) : (s.wrote v).phase = s.phase := rfl
@[simp] theorem wrote_i2cAddr (v : Byte) : (s.wrote v).i2cAddr = s.i2cAddr := rfl
@[simp] theorem wrote_cfg (v : Byte) : (s.wrote v).cfg = s.cfg := rfl
@[simp] theorem wrote_sequencer (v : Byte) : (s.wrote v).sequencer = s.sequencer := rfl
@[simp] theorem wrote_inputs (v : Byte) : (s.wrote v).inputs = s.inputs := rfl
@[simp] theorem wrote_answers (v : Byte) : (s.wrote v).answers = s.answers.tail := rfl
@[simp] theorem wrote_transportCalls (v : Byte) : (s.wrote v).transportCalls = s.transportCalls + 1 := rfl
@[simp] theorem wrote_trace (v : Byte) : (s.wrote v).trace = s.trace ++ [.written s.i2cAddr v] := rfl
@[simp] theorem wrote_responses (v : Byte) : (s.wrote v).responses = s.responses := rfl
@[simp] theorem wrote_expander (v : Byte) : (s.wrote v).expander = s.expander.write s.i2cAddr.toNat v := rfl

@[simp] theorem wroteBadly_displayControl (v : Byte) : (s.wroteBadly v).displayControl = s.displayControl := rfl
@[simp] theorem wroteBadly_entryMode (v : Byte) : (s.wroteBadly v).entryMode = s.entryMode := rfl
@[simp] theorem wroteBadly_functionSet (v : Byte) : (s.wroteBadly v).functionSet = s.functionSet := rfl
@[simp] theorem wroteBadly_backlightBit (v : Byte) : (s.wroteBadly v).backlightBit = s.backlightBit := rfl
@[simp] theorem wroteBadly_phase (v : Byte) : (s.wroteBadly v).phase = s.phase := rfl
@[simp] theorem wroteBadly_i2cAddr (v : Byte) : (s.wroteBadly v).i2cAddr = s.i2cAddr := rfl
@[simp] theorem wroteBadly_cfg (v : Byte) : (s.wroteBadly v).cfg = s.cfg := rfl
@[simp] theorem wroteBadly_sequencer (v : Byte) : (s.wroteBadly v).sequencer = s.sequencer := rfl
@[simp] theorem wroteBadly_inputs (v : Byte) : (s.wroteBadly v).inputs = s.inputs := rfl
@[simp] theorem wroteBadly_answers (v : Byte) : (s.wroteBadly v).answers = s.answers.tail := rfl
@[simp] theorem wroteBadly_transportCalls (v : Byte) : (s.wroteBadly v).transportCalls = s.transportCalls + 1 := rfl
@[simp] theorem wroteBadly_trace (v : Byte) : (s.wroteBadly v).trace = s.trace ++ [.writeFailed s.i2cAddr v] := rfl
@[simp] theorem wroteBadly_responses (v : Byte) : (s.wroteBadly v).responses = s.responses := rfl
@[simp] theorem wroteBadly_expander (v : Byte) : (s.wroteBadly v).expander = s.expander.write s.i2cAddr.toNat (Config.pinsAfterFailedWrite s.transportCalls) := rfl

@[simp] theorem writePending_displayControl (v : Byte) : (s.writePending v).displayControl = s.displayControl := rfl
@[simp] theorem writePending_entryMode (v : Byte) : (s.writePending v).entryMode = s.entryMode := rfl
@[simp] theorem writePending_functionSet (v : Byte) : (s.writePending v).functionSet = s.functionSet := rfl
@[simp] theorem writePending_backlightBit (v : Byte) : (s.writePending v).backlightBit = s.backlightBit := rfl
@[simp] theorem writePending_phase (v : Byte) : (s.writePending v).phase = s.phase := rfl
@[simp] theorem writePending_i2cAddr (v : Byte) : (s.writePending v).i2cAddr = s.i2cAddr := rfl
@[simp] theorem writePending_cfg (v : Byte) : (s.writePending v).cfg = s.cfg := rfl
@[simp] theorem writePending_sequencer (v : Byte) : (s.writePending v).sequencer = .waiting s.i2cAddr v := rfl
@[simp] theorem writePending_inputs (v : Byte) : (s.writePending v).inputs = s.inputs := rfl
@[simp] theorem writePending_answers (v : Byte) : (s.writePending v).answers = s.answers.tail := rfl
@[simp] theorem writePending_transportCalls (v : Byte) : (s.writePending v).transportCalls = s.transportCalls + 1 := rfl
@[simp] theorem writePending_trace (v : Byte) : (s.writePending v).trace = s.trace := rfl
@[simp] theorem writePending_responses (v : Byte) : (s.writePending v).responses = s.responses := rfl
@[simp] theorem writePending_expander (v : Byte) : (s.writePending v).expander = s.expander.write s.i2cAddr.toNat (Config.pinsAfterFailedWrite s.transportCalls) := rfl

@[simp] theorem respond_displayControl (st : Status) : (respond st s).displayControl = s.displayControl := rfl
@[simp] theorem respond_entryMode (st : Status) : (respond st s).entryMode = s.entryMode := rfl
@[simp] theorem respond_functionSet (st : Status) : (respond st s).functionSet = s.functionSet := rfl
@[simp] theorem respond_backlightBit (st : Status) : (respond st s).backlightBit = s.backlightBit := rfl
@[simp] theorem respond_phase (st : Status) : (respond st s).phase = s.phase := rfl
@[simp] theorem respond_i2cAddr (st : Status) : (respond st s).i2cAddr = s.i2cAddr := rfl
@[simp] theorem respond_cfg (st : Status) : (respond st s).cfg = s.cfg := rfl
@[simp] theorem respond_sequencer (st : Status) : (respond st s).sequencer = .idle := rfl
@[simp] theorem respond_inputs (st : Status) : (respond st s).inputs = s.inputs := rfl
@[simp] theorem respond_answers (st : Status) : (respond st s).answers = s.answers := rfl
@[simp] theorem respond_transportCalls (st : Status) : (respond st s).transportCalls = s.transportCalls := rfl
@[simp] theorem respond_trace (st : Status) : (respond st s).trace = s.trace := rfl
@[simp] theorem respond_responses (st : Status) : (respond st s).responses = s.responses ++ [st] := rfl
@[simp] theorem respond_expander (st : Status) : (respond st s).expander = s.expander := rfl

@[simp] theorem applyReset_displayControl (a : I2cAddr) : (applyReset a s).displayControl = mirrorReset := rfl
@[simp] theorem applyReset_entryMode (a : I2cAddr) : (applyReset a s).entryMode = mirrorReset := rfl
@[simp] theorem applyReset_functionSet (a : I2cAddr) : (applyReset a s).functionSet = mirrorReset := rfl
@[simp] theorem applyReset_backlightBit (a : I2cAddr) : (applyReset a s).backlightBit = s.cfg.blReset := rfl
@[simp] theorem applyReset_phase (a : I2cAddr) : (applyReset a s).phase = .uninit := rfl
@[simp] theorem applyReset_i2cAddr (a : I2cAddr) : (applyReset a s).i2cAddr = a := rfl
@[simp] theorem applyReset_cfg (a : I2cAddr) : (applyReset a s).cfg = s.cfg := rfl
@[simp] theorem applyReset_sequencer (a : I2cAddr) : (applyReset a s).sequencer = .boot := rfl
@[simp] theorem applyReset_inputs (a : I2cAddr) : (applyReset a s).inputs = s.inputs := rfl
@[simp] theorem applyReset_answers (a : I2cAddr) : (applyReset a s).answers = s.answers := rfl
@[simp] theorem applyReset_transportCalls (a : I2cAddr) : (applyReset a s).transportCalls = s.transportCalls := rfl
@[simp] theorem applyReset_trace (a : I2cAddr) : (applyReset a s).trace = s.trace := rfl
@[simp] theorem applyReset_responses (a : I2cAddr) : (applyReset a s).responses = s.responses := rfl
@[simp] theorem applyReset_expander (a : I2cAddr) : (applyReset a s).expander = s.expander := rfl

@[simp] theorem afterEvents_displayControl (evs : List Event) : (s.afterEvents evs).displayControl = s.displayControl := rfl
@[simp] theorem afterEvents_entryMode (evs : List Event) : (s.afterEvents evs).entryMode = s.entryMode := rfl
@[simp] theorem afterEvents_functionSet (evs : List Event) : (s.afterEvents evs).functionSet = s.functionSet := rfl
@[simp] theorem afterEvents_backlightBit (evs : List Event) : (s.afterEvents evs).backlightBit = s.backlightBit := rfl
@[simp] theorem afterEvents_phase (evs : List Event) : (s.afterEvents evs).phase = s.phase := rfl
@[simp] theorem afterEvents_i2cAddr (evs : List Event) : (s.afterEvents evs).i2cAddr = s.i2cAddr := rfl
@[simp] theorem afterEvents_cfg (evs : List Event) : (s.afterEvents evs).cfg = s.cfg := rfl
@[simp] theorem afterEvents_sequencer (evs : List Event) : (s.afterEvents evs).sequencer = s.sequencer := rfl
@[simp] theorem afterEvents_inputs (evs : List Event) : (s.afterEvents evs).inputs = s.inputs := rfl
@[simp] theorem afterEvents_answers (evs : List Event) : (s.afterEvents evs).answers = s.answers.drop (writeCount evs) := rfl
@[simp] theorem afterEvents_transportCalls (evs : List Event) : (s.afterEvents evs).transportCalls = s.transportCalls + writeCount evs := rfl
@[simp] theorem afterEvents_trace (evs : List Event) : (s.afterEvents evs).trace = s.trace ++ evs := rfl
@[simp] theorem afterEvents_responses (evs : List Event) : (s.afterEvents evs).responses = s.responses := rfl
@[simp] theorem afterEvents_expander (evs : List Event) : (s.afterEvents evs).expander = evs.foldl Memory.afterEvent s.expander := rfl

@[simp] theorem setPins_delayResets (a : I2cAddr) (v : Byte) : (s.setPins a v).delayResets = s.delayResets := rfl
@[simp] theorem setPins_pinLog (a : I2cAddr) (v : Byte) : (s.setPins a v).pinLog = s.pinLog ++ [(a, v)] := rfl
@[simp] theorem wrote_delayResets (v : Byte) : (s.wrote v).delayResets = s.delayResets := rfl
@[simp] theorem wrote_pinLog (v : Byte) : (s.wrote v).pinLog = s.pinLog ++ [(s.i2cAddr, v)] := rfl
@[simp] theorem wroteBadly_delayResets (v : Byte) : (s.wroteBadly v).delayResets = s.delayResets := rfl
@[simp] theorem wroteBadly_pinLog (v : Byte) : (s.wroteBadly v).pinLog =
    s.pinLog ++ [(s.i2cAddr, Config.pinsAfterFailedWrite s.transportCalls)] := rfl
@[simp] theorem writePending_delayResets (v : Byte) : (s.writePending v).delayResets = s.delayResets := rfl
@[simp] theorem writePending_pinLog (v : Byte) : (s.writePending v).pinLog =
    s.pinLog ++ [(s.i2cAddr, Config.pinsAfterFailedWrite s.transportCalls)] := rfl
@[simp] theorem respond_delayResets (st : Status) : (respond st s).delayResets = s.delayResets := rfl
@[simp] theorem respond_pinLog (st : Status) : (respond st s).pinLog = s.pinLog := rfl
@[simp] theorem applyReset_delayResets (a : I2cAddr) : (applyReset a s).delayResets = s.delayResets := rfl
@[simp] theorem applyReset_pinLog (a : I2cAddr) : (applyReset a s).pinLog = s.pinLog := rfl
@[simp] theorem afterEvents_delayResets (evs : List Event) :
    (s.afterEvents evs).delayResets = tickDelays (delayCount evs) s.delayResets := rfl
@[simp] theorem afterEvents_pinLog (evs : List Event) :
    (s.afterEvents evs).pinLog = s.pinLog ++ evs.filterMap Event.pins := rfl

@[simp] theorem held_displayControl (d : DelayName) : (s.held d).displayControl = s.displayControl := rfl
@[simp] theorem held_entryMode (d : DelayName) : (s.held d).entryMode = s.entryMode := rfl
@[simp] theorem held_functionSet (d : DelayName) : (s.held d).functionSet = s.functionSet := rfl
@[simp] theorem held_backlightBit (d : DelayName) : (s.held d).backlightBit = s.backlightBit := rfl
@[simp] theorem held_phase (d : DelayName) : (s.held d).phase = s.phase := rfl
@[simp] theorem held_i2cAddr (d : DelayName) : (s.held d).i2cAddr = s.i2cAddr := rfl
@[simp] theorem held_cfg (d : DelayName) : (s.held d).cfg = s.cfg := rfl
@[simp] theorem held_sequencer (d : DelayName) : (s.held d).sequencer = s.sequencer := rfl
@[simp] theorem held_inputs (d : DelayName) : (s.held d).inputs = s.inputs := rfl
@[simp] theorem held_answers (d : DelayName) : (s.held d).answers = s.answers := rfl
@[simp] theorem held_transportCalls (d : DelayName) : (s.held d).transportCalls = s.transportCalls := rfl
@[simp] theorem held_responses (d : DelayName) : (s.held d).responses = s.responses := rfl
@[simp] theorem held_expander (d : DelayName) : (s.held d).expander = s.expander := rfl
@[simp] theorem held_pinLog (d : DelayName) : (s.held d).pinLog = s.pinLog := rfl
@[simp] theorem held_trace (d : DelayName) : (s.held d).trace = s.trace ++ [.delay d] := rfl
@[simp] theorem held_delayResets (d : DelayName) : (s.held d).delayResets = tickDelays 1 s.delayResets := rfl

end Sys2Proof.Machine
end

