-- ==== Sys2Proof/Laws/Run.lean ====
section
/-! SUPPORT. What a run of transport writes and delays does, said once: everything `Ok` (`run_ok`), cut at a failed write
(`run_fail`), cut at a write never answered (`run_hang`), cut in a delay by a reset (`run_cut`), that there is no fifth (`disturbed`), and what
no run touches (`run_kept`). The primitives of spec
40_primitives.md as runs. -/

namespace Sys2Proof.Machine

/-! ## Answers and pieces of trace -/

theorem answerAt_countWrite (s : State) (k : Nat) : s.countWrite.answerAt k = s.answerAt (k + 1) := by
  unfold State.answerAt State.countWrite
  have h : s.transportCalls + 1 + k = s.transportCalls + (k + 1) := by omega
  cases s.answers <;> simp [h]

@[simp] theorem answerAt_wrote (s : State) (v : Byte) (k : Nat) :
    (s.wrote v).answerAt k = s.answerAt (k + 1) := answerAt_countWrite s k

@[simp] theorem answerAt_log (s : State) (e : Event) (k : Nat) : (s.log e).answerAt k = s.answerAt k := rfl

theorem answerAt_afterEvents (s : State) (evs : List Event) (k : Nat) :
    (s.afterEvents evs).answerAt k = s.answerAt (writeCount evs + k) := by
  simp [State.answerAt, List.getD, List.getElem?_drop, Nat.add_assoc]

@[simp] theorem writeCount_nil : writeCount [] = 0 := rfl

@[simp] theorem writeCount_written (a : I2cAddr) (v : Byte) (evs : List Event) :
    writeCount (.written a v :: evs) = writeCount evs + 1 := List.countP_cons_of_pos rfl

@[simp] theorem writeCount_writeFailed (a : I2cAddr) (v : Byte) (evs : List Event) :
    writeCount (.writeFailed a v :: evs) = writeCount evs + 1 := List.countP_cons_of_pos rfl

@[simp] theorem writeCount_delay (d : DelayName) (evs : List Event) :
    writeCount (.delay d :: evs) = writeCount evs := List.countP_cons_of_neg Bool.false_ne_true

@[simp] theorem writeCount_append (xs ys : List Event) : writeCount (xs ++ ys) = writeCount xs + writeCount ys := by
  simp [writeCount]

@[simp] theorem delayCount_nil : delayCount [] = 0 := rfl

@[simp] theorem delayCount_written (a : I2cAddr) (v : Byte) (evs : List Event) :
    delayCount (.written a v :: evs) = delayCount evs := List.countP_cons_of_neg Bool.false_ne_true

@[simp] theorem delayCount_writeFailed (a : I2cAddr) (v : Byte) (evs : List Event) :
    delayCount (.writeFailed a v :: evs) = delayCount evs := List.countP_cons_of_neg Bool.false_ne_true

@[simp] theorem delayCount_delay (d : DelayName) (evs : List Event) :
    delayCount (.delay d :: evs) = delayCount evs + 1 := List.countP_cons_of_pos rfl

@[simp] theorem delayCount_append (xs ys : List Event) : delayCount (xs ++ ys) = delayCount xs + delayCount ys := by
  simp [delayCount]

@[simp] theorem tickDelays_zero (rs : List (Nat × I2cAddr)) : tickDelays 0 rs = rs := by cases rs <;> rfl

@[simp] theorem tickDelays_tickDelays (m n : Nat) (rs : List (Nat × I2cAddr)) :
    tickDelays n (tickDelays m rs) = tickDelays (m + n) rs := by
  cases rs with
  | nil => rfl
  | cons p rest => simp [tickDelays, Nat.sub_sub]

@[simp] theorem pins_written (a : I2cAddr) (v : Byte) : (Event.written a v).pins = some (a, v) := rfl
@[simp] theorem pins_writeFailed (a : I2cAddr) (v : Byte) : (Event.writeFailed a v).pins = none := rfl
@[simp] theorem pins_delay (d : DelayName) : (Event.delay d).pins = none := rfl

@[simp] theorem afterEvents_nil (s : State) : s.afterEvents [] = s := by simp [State.afterEvents]

theorem afterEvents_append (s : State) (xs ys : List Event) :
    s.afterEvents (xs ++ ys) = (s.afterEvents xs).afterEvents ys := by
  simp [State.afterEvents, List.drop_drop, Nat.add_assoc]

theorem afterEvents_written (s : State) (v : Byte) (evs : List Event) :
    (s.wrote v).afterEvents evs = s.afterEvents (.written s.i2cAddr v :: evs) := by
  simp [State.afterEvents, State.wrote, State.log, State.setPins, State.countWrite, Memory.afterEvent, Nat.add_assoc,
    Nat.add_comm 1]

theorem afterEvents_delay (s : State) (d : DelayName) (evs : List Event) :
    (s.held d).afterEvents evs = s.afterEvents (.delay d :: evs) := by
  simp [State.afterEvents, State.held, State.log, Memory.afterEvent, Nat.add_comm 1, List.filterMap_cons]

/-! ## One delay -/

/-- A delay that no reset lands in elapses, and leaves the later ones as quiet as they were. -/
theorem hold_quiet {s : State} {n : Nat} (d : DelayName) (h : s.quietFor (n + 1)) :
    hold d s = .going (s.held d) ∧ (s.held d).quietFor n := by
  unfold hold State.quietFor
  unfold State.quietFor at h
  rw [held_delayResets]
  match hr : s.delayResets with
  | [] => exact ⟨rfl, by simp [tickDelays]⟩
  | (0, a) :: later => exact absurd (h (0, a) (by simp [hr])) (by simp)
  | (k + 1, a) :: later =>
    have hk := h (k + 1, a) (by simp [hr])
    simp only [tickDelays]
    exact ⟨trivial, by simpa using hk⟩

/-- Every delay elapses, or a reset cuts it. -/
theorem hold_cases (d : DelayName) (s : State) :
    hold d s = .going (s.held d) ∨
    ∃ a, hold d s = .stopped { s with sequencer := .resetting a, delayResets := s.delayResets.tail } := by
  unfold hold
  split
  · exact .inl rfl
  · rename_i a later hr
    exact .inr ⟨a, by rw [hr]; rfl⟩
  · exact .inl rfl

/-! ## Runs -/

/-- The event of a line that does not fail. -/
def Micro.event (a : I2cAddr) : Micro → Event
  | .put v => .written a v
  | .hold d => .delay d

/-- The trace of lines none of which fails. -/
def eventsOf (a : I2cAddr) (ms : List Micro) : List Event := ms.map (Micro.event a)

@[simp] theorem eventsOf_nil (a : I2cAddr) : eventsOf a [] = [] := rfl
@[simp] theorem eventsOf_put (a : I2cAddr) (v : Byte) (ms : List Micro) :
    eventsOf a (.put v :: ms) = .written a v :: eventsOf a ms := rfl
@[simp] theorem eventsOf_hold (a : I2cAddr) (d : DelayName) (ms : List Micro) :
    eventsOf a (.hold d :: ms) = .delay d :: eventsOf a ms := rfl
@[simp] theorem eventsOf_append (a : I2cAddr) (xs ys : List Micro) :
    eventsOf a (xs ++ ys) = eventsOf a xs ++ eventsOf a ys := by simp [eventsOf]

@[simp] theorem andThen_going (s : State) (f : State → Run) : (Run.going s).andThen f = f s := rfl
@[simp] theorem andThen_failed (s : State) (f : State → Run) : (Run.failed s).andThen f = .failed s := rfl
@[simp] theorem andThen_stopped (s : State) (f : State → Run) : (Run.stopped s).andThen f = .stopped s := rfl

theorem andThen_assoc (r : Run) (f g : State → Run) :
    (r.andThen f).andThen g = r.andThen fun s => (f s).andThen g := by cases r <;> rfl

theorem memWrite_ok {s : State} (v : Byte) (h : s.answerAt 0 = .ok) : memWrite v s = .going (s.wrote v) := by
  simp [memWrite, h]

theorem memWrite_err {s : State} (v : Byte) (h : s.answerAt 0 = .err) : memWrite v s = .failed (s.wroteBadly v) := by
  simp [memWrite, h]

theorem memWrite_never {s : State} (v : Byte) (h : s.answerAt 0 = .never) :
    memWrite v s = .stopped (s.writePending v) := by simp [memWrite, h]

theorem run_append (xs ys : List Micro) (s : State) : run (xs ++ ys) s = (run xs s).andThen (run ys) := by
  induction xs generalizing s with
  | nil => rfl
  | cons m rest ih =>
    cases m with
    | put v =>
      rw [List.cons_append, run, run, andThen_assoc]
      exact congrArg _ (funext ih)
    | hold d =>
      rw [List.cons_append, run, run, andThen_assoc]
      exact congrArg _ (funext ih)

/-- Nothing disturbs it: the whole trace, and nothing else. -/
theorem run_ok (ms : List Micro) (s : State) (h : s.okFor (eventsOf s.i2cAddr ms)) :
    run ms s = .going (s.afterEvents (eventsOf s.i2cAddr ms)) := by
  induction ms generalizing s with
  | nil => simp [run]
  | cons m rest ih =>
    obtain ⟨ha, hq⟩ := h
    cases m with
    | put v =>
      simp only [eventsOf_put, writeCount_written] at ha
      rw [run, memWrite_ok v (ha 0 (by omega)), andThen_going, ih, wrote_i2cAddr, afterEvents_written, eventsOf_put]
      refine ⟨fun k hk => ?_, by simpa using hq⟩
      rw [answerAt_wrote]
      exact ha (k + 1) (by rw [wrote_i2cAddr] at hk; omega)
    | hold d =>
      simp only [eventsOf_hold, writeCount_delay, delayCount_delay] at ha hq
      obtain ⟨hh, hq⟩ := hold_quiet d hq
      rw [run, hh, andThen_going, ih (s.held d) ⟨ha, hq⟩, held_i2cAddr, afterEvents_delay, eventsOf_hold]

/-- The `k`-th write answered `Err`, undisturbed before it: the trace cut there. -/
theorem run_fail (ms : List Micro) (s : State) {k : Nat} (h : s.failsAt k (eventsOf s.i2cAddr ms)) :
    ∃ v, writeAt k (eventsOf s.i2cAddr ms) = some (s.i2cAddr, v) ∧
      run ms s = .failed ((s.afterEvents (cutBefore k (eventsOf s.i2cAddr ms))).wroteBadly v) := by
  induction ms generalizing s k with
  | nil => exact absurd h.1 (by simp)
  | cons m rest ih =>
    obtain ⟨hk, ha, he, hq⟩ := h
    cases m with
    | put v =>
      simp only [eventsOf_put, writeCount_written] at hk
      cases k with
      | zero => exact ⟨v, rfl, by rw [run, memWrite_err v he]; simp [cutBefore]⟩
      | succ k =>
        obtain ⟨w, hw, hr⟩ := ih (s.wrote v) (k := k)
          ⟨by rw [wrote_i2cAddr]; omega, fun j hj => by rw [answerAt_wrote]; exact ha (j + 1) (by omega),
            by rw [answerAt_wrote]; exact he, by simpa [cutBefore] using hq⟩
        refine ⟨w, hw, ?_⟩
        rw [run, memWrite_ok v (ha 0 (by omega)), andThen_going, hr, wrote_i2cAddr, afterEvents_written]
        rfl
    | hold d =>
      simp only [eventsOf_hold, writeCount_delay] at hk
      have hc : cutBefore k (eventsOf s.i2cAddr (.hold d :: rest)) = .delay d :: cutBefore k (eventsOf s.i2cAddr rest) := by
        cases k <;> rfl
      rw [hc, delayCount_delay] at hq
      obtain ⟨hh, hq⟩ := hold_quiet d hq
      obtain ⟨w, hw, hr⟩ := ih (s.held d) ⟨hk, ha, he, hq⟩
      refine ⟨w, by cases k <;> exact hw, ?_⟩
      rw [run, hh, andThen_going, hr, held_i2cAddr, afterEvents_delay, hc]

/-- The `k`-th write never answered, undisturbed before it: the trace up to it, the write outstanding. -/
theorem run_hang (ms : List Micro) (s : State) {k : Nat} (h : s.hangsAt k (eventsOf s.i2cAddr ms)) :
    ∃ v, writeAt k (eventsOf s.i2cAddr ms) = some (s.i2cAddr, v) ∧
      run ms s = .stopped ((s.afterEvents (cutBefore k (eventsOf s.i2cAddr ms))).writePending v) := by
  induction ms generalizing s k with
  | nil => exact absurd h.1 (by simp)
  | cons m rest ih =>
    obtain ⟨hk, ha, he, hq⟩ := h
    cases m with
    | put v =>
      simp only [eventsOf_put, writeCount_written] at hk
      cases k with
      | zero => exact ⟨v, rfl, by rw [run, memWrite_never v he]; simp [cutBefore]⟩
      | succ k =>
        obtain ⟨w, hw, hr⟩ := ih (s.wrote v) (k := k)
          ⟨by rw [wrote_i2cAddr]; omega, fun j hj => by rw [answerAt_wrote]; exact ha (j + 1) (by omega),
            by rw [answerAt_wrote]; exact he, by simpa [cutBefore] using hq⟩
        refine ⟨w, hw, ?_⟩
        rw [run, memWrite_ok v (ha 0 (by omega)), andThen_going, hr, wrote_i2cAddr, afterEvents_written]
        rfl
    | hold d =>
      simp only [eventsOf_hold, writeCount_delay] at hk
      have hc : cutBefore k (eventsOf s.i2cAddr (.hold d :: rest)) = .delay d :: cutBefore k (eventsOf s.i2cAddr rest) := by
        cases k <;> rfl
      rw [hc, delayCount_delay] at hq
      obtain ⟨hh, hq⟩ := hold_quiet d hq
      obtain ⟨w, hw, hr⟩ := ih (s.held d) ⟨hk, ha, he, hq⟩
      refine ⟨w, by cases k <;> exact hw, ?_⟩
      rw [run, hh, andThen_going, hr, held_i2cAddr, afterEvents_delay, hc]

/-- A reset inside the `j`-th delay, undisturbed before it: the trace up to it, nothing posted, the reset to be taken. -/
theorem run_cut (ms : List Micro) (s : State) {j : Nat} {a : I2cAddr} (h : s.cutAt j a (eventsOf s.i2cAddr ms)) :
    run ms s = .stopped { s.afterEvents (cutBeforeDelay j (eventsOf s.i2cAddr ms)) with
      sequencer := .resetting a, delayResets := s.delayResets.tail } := by
  induction ms generalizing s j with
  | nil => exact absurd h.1 (by simp)
  | cons m rest ih =>
    obtain ⟨hj, ha, hr⟩ := h
    cases m with
    | put v =>
      have hc : cutBeforeDelay j (eventsOf s.i2cAddr (.put v :: rest)) =
          .written s.i2cAddr v :: cutBeforeDelay j (eventsOf s.i2cAddr rest) := by cases j <;> rfl
      rw [hc, writeCount_written] at ha
      rw [run, memWrite_ok v (ha 0 (by omega)), andThen_going, ih (s.wrote v) ⟨by simpa using hj, fun n hn => by
        rw [answerAt_wrote]; exact ha (n + 1) (by rw [wrote_i2cAddr] at hn; omega), hr⟩, wrote_i2cAddr, afterEvents_written, hc]
      rfl
    | hold d =>
      match hl : s.delayResets with
      | [] => rw [hl] at hr; exact absurd hr (by simp)
      | p :: later =>
        rw [hl] at hr
        obtain rfl : p = (j, a) := by simpa using hr
        cases j with
        | zero => simp [run, hold, hl, cutBeforeDelay]
        | succ j =>
          have hh : hold d s = .going (s.held d) := by simp [hold, hl]
          have ht : (s.held d).delayResets = (j, a) :: later := by simp [hl, tickDelays]
          rw [run, hh, andThen_going, ih (s.held d) (j := j) ⟨by simpa using hj, fun n hn => ha n hn, by rw [ht]; rfl⟩,
            held_i2cAddr, afterEvents_delay, ht]
          rfl

/-- Whatever the environment: nothing disturbs the lines, or what first does is a write answered `Err`, a write never answered,
or a reset inside a delay. -/
theorem disturbed (b : I2cAddr) (ms : List Micro) (s : State) :
    s.okFor (eventsOf b ms) ∨ (∃ k, s.failsAt k (eventsOf b ms)) ∨ (∃ k, s.hangsAt k (eventsOf b ms)) ∨
      ∃ j a, s.cutAt j a (eventsOf b ms) := by
  induction ms generalizing s with
  | nil => exact .inl ⟨fun k hk => absurd hk (by simp), fun p _ => by simp⟩
  | cons m rest ih =>
    cases m with
    | put v =>
      have first : ∀ (n : Nat) (x : Answer), s.answerAt 0 = .ok → (∀ k, k < n → (s.wrote v).answerAt k = .ok) →
          ∀ k, k < n + 1 → s.answerAt k = .ok := fun n _ h0 h k hk => by
        cases k with
        | zero => exact h0
        | succ k => rw [← answerAt_wrote s v]; exact h k (by omega)
      cases h0 : s.answerAt 0 with
      | ok =>
        obtain ⟨ha, hq⟩ | ⟨k, hk, ha, he, hq⟩ | ⟨k, hk, ha, he, hq⟩ | ⟨j, a, hj, ha, hr⟩ := ih (s.wrote v)
        · exact .inl ⟨by simpa using first _ .ok h0 ha, by simpa using hq⟩
        · exact .inr (.inl ⟨k + 1, by simpa using hk, first _ .ok h0 ha, by rw [← answerAt_wrote s v]; exact he,
            by simpa [cutBefore] using hq⟩)
        · exact .inr (.inr (.inl ⟨k + 1, by simpa using hk, first _ .ok h0 ha, by rw [← answerAt_wrote s v]; exact he,
            by simpa [cutBefore] using hq⟩))
        · have hc : cutBeforeDelay j (eventsOf b (.put v :: rest)) = .written b v :: cutBeforeDelay j (eventsOf b rest) := by
            cases j <;> rfl
          exact .inr (.inr (.inr ⟨j, a, by simpa using hj, by rw [hc, writeCount_written]; exact first _ .ok h0 ha, hr⟩))
      | err => exact .inr (.inl ⟨0, by simp, fun n hn => absurd hn (by simp), h0, fun p _ => by simp [cutBefore]⟩)
      | never => exact .inr (.inr (.inl ⟨0, by simp, fun n hn => absurd hn (by simp), h0, fun p _ => by simp [cutBefore]⟩))
    | hold d =>
      have hc : ∀ k, cutBefore k (eventsOf b (.hold d :: rest)) = .delay d :: cutBefore k (eventsOf b rest) := fun k => by
        cases k <;> rfl
      have quiet : ∀ n, (∀ a later, s.delayResets ≠ (0, a) :: later) → (s.held d).quietFor n → s.quietFor (n + 1) :=
        fun n h0 hq => by
          unfold State.quietFor at hq ⊢
          rw [held_delayResets] at hq
          match hl : s.delayResets with
          | [] => simp
          | (0, a) :: later => exact absurd hl (h0 a later)
          | (k + 1, a) :: later => rw [hl] at hq; simpa [tickDelays] using hq
      match hl : s.delayResets with
      | (0, a) :: later =>
        exact .inr (.inr (.inr ⟨0, a, by simp, fun n hn => absurd hn (by simp [cutBeforeDelay]), by rw [hl]; rfl⟩))
      | [] =>
        obtain ⟨ha, hq⟩ | ⟨k, hk, ha, he, hq⟩ | ⟨k, hk, ha, he, hq⟩ | ⟨j, a, hj, ha, hr⟩ := ih (s.held d)
        · exact .inl ⟨ha, by simp [hl]⟩
        · exact .inr (.inl ⟨k, hk, ha, he, by simp [hl]⟩)
        · exact .inr (.inr (.inl ⟨k, hk, ha, he, by simp [hl]⟩))
        · exact absurd hr (by simp [hl, tickDelays])
      | (m + 1, c) :: later =>
        have h0 : ∀ a later, s.delayResets ≠ (0, a) :: later := fun a later h => by simp [hl] at h
        obtain ⟨ha, hq⟩ | ⟨k, hk, ha, he, hq⟩ | ⟨k, hk, ha, he, hq⟩ | ⟨j, a, hj, ha, hr⟩ := ih (s.held d)
        · exact .inl ⟨ha, by rw [eventsOf_hold, delayCount_delay]; exact quiet _ h0 hq⟩
        · exact .inr (.inl ⟨k, hk, ha, he, by rw [hc, delayCount_delay]; exact quiet _ h0 hq⟩)
        · exact .inr (.inr (.inl ⟨k, hk, ha, he, by rw [hc, delayCount_delay]; exact quiet _ h0 hq⟩))
        · obtain ⟨rfl, rfl⟩ : m = j ∧ c = a := by simpa [hl, tickDelays] using hr
          exact .inr (.inr (.inr ⟨m + 1, c, by simpa using hj, ha, by rw [hl]; rfl⟩))

/-! ## What no run touches -/

/-- The state a run has come to. -/
def Run.state : Run → State
  | .going s => s
  | .failed s => s
  | .stopped s => s

/-- The registers, the parameters, the inputs and the responses are as before. -/
structure Kept (s t : State) : Prop where
  displayControl : t.displayControl = s.displayControl
  entryMode : t.entryMode = s.entryMode
  functionSet : t.functionSet = s.functionSet
  backlightBit : t.backlightBit = s.backlightBit
  phase : t.phase = s.phase
  i2cAddr : t.i2cAddr = s.i2cAddr
  cfg : t.cfg = s.cfg
  inputs : t.inputs = s.inputs
  responses : t.responses = s.responses

theorem Kept.refl (s : State) : Kept s s := ⟨rfl, rfl, rfl, rfl, rfl, rfl, rfl, rfl, rfl⟩

theorem Kept.trans {s t u : State} (h : Kept s t) (g : Kept t u) : Kept s u :=
  ⟨g.1.trans h.1, g.2.trans h.2, g.3.trans h.3, g.4.trans h.4, g.5.trans h.5, g.6.trans h.6, g.7.trans h.7,
    g.8.trans h.8, g.9.trans h.9⟩

theorem kept_memWrite (v : Byte) (s : State) : Kept s (memWrite v s).state := by
  unfold memWrite
  split <;> exact ⟨rfl, rfl, rfl, rfl, rfl, rfl, rfl, rfl, rfl⟩

theorem kept_hold (d : DelayName) (s : State) : Kept s (hold d s).state := by
  obtain h | ⟨a, h⟩ := hold_cases d s <;> rw [h] <;> exact ⟨rfl, rfl, rfl, rfl, rfl, rfl, rfl, rfl, rfl⟩

theorem kept_andThen {s : State} {r : Run} {f : State → Run} (h : Kept s r.state)
    (hf : ∀ t, r = .going t → Kept t (f t).state) : Kept s (r.andThen f).state := by
  cases r with
  | going t => exact h.trans (hf t rfl)
  | failed t => exact h
  | stopped t => exact h

theorem run_kept (ms : List Micro) (s : State) : Kept s (run ms s).state := by
  induction ms generalizing s with
  | nil => exact Kept.refl s
  | cons m rest ih =>
    cases m with
    | put v => exact kept_andThen (kept_memWrite v s) fun t _ => ih t
    | hold d => exact kept_andThen (kept_hold d s) fun t _ => ih t

theorem kept_of_run_going {ms : List Micro} {s t : State} (h : run ms s = .going t) : Kept s t := by
  have hk := run_kept ms s
  rwa [h] at hk

/-- The trace of a run only grows, by events to `I2C_ADDR` whose bytes are the run's own. -/
theorem run_trace (ms : List Micro) (s : State) : ∃ evs, (run ms s).state.trace = s.trace ++ evs ∧
    ∀ e ∈ evs, (∀ a ∈ e.addr, a = s.i2cAddr) ∧ ∀ v ∈ e.byte, Micro.put v ∈ ms := by
  induction ms generalizing s with
  | nil => exact ⟨[], by simp [run, Run.state]⟩
  | cons m rest ih =>
    cases m with
    | put v =>
      unfold run memWrite
      split
      · obtain ⟨evs, ht, he⟩ := ih (s.wrote v)
        refine ⟨.written s.i2cAddr v :: evs, by simpa using ht, fun e hm => ?_⟩
        rcases List.mem_cons.mp hm with rfl | hm
        · simp [Event.addr, Event.byte]
        · exact ⟨(he e hm).1, fun w hw => List.mem_cons_of_mem _ ((he e hm).2 w hw)⟩
      · exact ⟨[.writeFailed s.i2cAddr v], by simp [Run.state], by simp [Event.addr, Event.byte]⟩
      · exact ⟨[], by simp [Run.state]⟩
    | hold d =>
      obtain h | ⟨a, h⟩ := hold_cases d s
      · obtain ⟨evs, ht, he⟩ := ih (s.held d)
        refine ⟨.delay d :: evs, by simpa [run, h] using ht, fun e hm => ?_⟩
        rcases List.mem_cons.mp hm with rfl | hm
        · simp [Event.addr, Event.byte]
        · exact ⟨(he e hm).1, fun w hw => List.mem_cons_of_mem _ ((he e hm).2 w hw)⟩
      · exact ⟨[], by simp [run, h, Run.state]⟩

/-- Where the sequencer may stand after a run of `ms` from `s`. -/
def SequencerAfter (ms : List Micro) (s : State) : Run → Prop
  | .going t => t.sequencer = s.sequencer
  | .failed t => t.sequencer = s.sequencer
  | .stopped t => (∃ v, Micro.put v ∈ ms ∧ t.sequencer = .waiting s.i2cAddr v) ∨ ∃ a, t.sequencer = .resetting a

theorem SequencerAfter.cons {m : Micro} {ms : List Micro} {s t : State} {r : Run} (h : SequencerAfter ms t r)
    (hs : t.sequencer = s.sequencer) (ha : t.i2cAddr = s.i2cAddr) : SequencerAfter (m :: ms) s r := by
  cases r with
  | going u => exact Eq.trans h hs
  | failed u => exact Eq.trans h hs
  | stopped u =>
    obtain ⟨v, hm, hv⟩ | h := h
    · exact .inl ⟨v, List.mem_cons_of_mem _ hm, by rw [hv, ha]⟩
    · exact .inr h

/-- Only a run that stops moves the sequencer: one of the run's bytes is outstanding to `I2C_ADDR`, or a reset cut it. -/
theorem run_sequencer (ms : List Micro) (s : State) : SequencerAfter ms s (run ms s) := by
  induction ms generalizing s with
  | nil => rfl
  | cons m rest ih =>
    cases m with
    | put v =>
      cases h : s.answerAt 0 with
      | ok =>
        rw [run, memWrite_ok v h]
        exact (ih (s.wrote v)).cons rfl rfl
      | err =>
        rw [run, memWrite_err v h]
        rfl
      | never =>
        rw [run, memWrite_never v h]
        exact .inl ⟨v, List.mem_cons_self, rfl⟩
    | hold d =>
      obtain h | ⟨a, h⟩ := hold_cases d s <;> rw [run, h]
      · exact (ih (s.held d)).cons rfl rfl
      · exact .inr ⟨a, rfl⟩

/-- A run keeps the canonical form of the address space. -/
theorem run_expander_wf (ms : List Micro) (s : State) (h : s.expander.wf = true) :
    (run ms s).state.expander.wf = true := by
  induction ms generalizing s with
  | nil => exact h
  | cons m rest ih =>
    cases m with
    | put v =>
      unfold run memWrite
      split
      · exact ih _ (memory_write_wf s.expander s.i2cAddr v h)
      · exact memory_write_wf s.expander s.i2cAddr _ h
      · exact memory_write_wf s.expander s.i2cAddr _ h
    | hold d =>
      obtain hh | ⟨a, hh⟩ := hold_cases d s <;> rw [run, hh]
      · exact ih (s.held d) h
      · exact h

/-- A run changes no location of the address space but the one at `I2C_ADDR`. -/
theorem run_expander_other (ms : List Micro) (s : State) {x : Nat} (hx : x ≠ s.i2cAddr.toNat) :
    (run ms s).state.expander.read x = s.expander.read x := by
  induction ms generalizing s with
  | nil => rfl
  | cons m rest ih =>
    cases m with
    | put v =>
      unfold run memWrite
      split
      · exact (ih (s.wrote v) hx).trans (memory_read_write_other s.expander v hx)
      · exact memory_read_write_other s.expander _ hx
      · exact memory_read_write_other s.expander _ hx
    | hold d =>
      obtain hh | ⟨a, hh⟩ := hold_cases d s <;> rw [run, hh]
      · exact ih (s.held d) hx
      · rfl

/-! ## The primitives of 40_primitives.md as runs -/

/-- The lines of one pulse of a payload composed with the backlight bit (R80, R81). -/
def pulseMicros (s : State) (p : Byte) : List Micro :=
  [.put (compose p s ||| s.cfg.pinEn), .hold .enHigh, .put (compose p s &&& ~~~s.cfg.pinEn), .hold .enLow]

/-- The lines of the nibble encoder (R82). -/
def byteMicros (s : State) (v : Byte) (data : Bool) : List Micro :=
  pulseMicros s (highPayload s.cfg v data) ++ pulseMicros s (lowPayload s.cfg v data)

theorem pulseMicros_kept {s t : State} (h : Kept s t) (p : Byte) : pulseMicros t p = pulseMicros s p := by
  simp [pulseMicros, compose, State.bl, h.cfg, h.backlightBit]

theorem byteMicros_kept {s t : State} (h : Kept s t) (v : Byte) (data : Bool) :
    byteMicros t v data = byteMicros s v data := by
  simp [byteMicros, pulseMicros_kept h, h.cfg]

theorem pulseComposed_eq_run (p : Byte) (s : State) : pulseComposed p s = run (pulseMicros s p) s := rfl

theorem rawNibble_eq_run (n : Nibble) (s : State) : rawNibble n s = run (pulseMicros s (rawPayload s.cfg n)) s := rfl

/-- Two runs whose second part depends only on what no run touches are one run. -/
theorem run_andThen_run (xs ys : List Micro) (f : State → Run) (s : State)
    (hf : ∀ t, run xs s = .going t → f t = run ys t) : (run xs s).andThen f = run (xs ++ ys) s := by
  rw [run_append]
  cases h : run xs s with
  | going t => exact hf t h
  | failed t => rfl
  | stopped t => rfl

theorem sendByte_eq_run (v : Byte) (data : Bool) (s : State) : sendByte v data s = run (byteMicros s v data) s := by
  refine run_andThen_run (pulseMicros s (highPayload s.cfg v data)) _ _ s fun t ht => ?_
  have hk := kept_of_run_going ht
  rw [pulseComposed_eq_run, hk.cfg, pulseMicros_kept hk]

theorem sendCommand_eq_run (v : Byte) (s : State) : sendCommand v s = run (byteMicros s v false) s :=
  sendByte_eq_run v false s

theorem sendData_eq_run (v : Byte) (s : State) : sendData v s = run (byteMicros s v true) s :=
  sendByte_eq_run v true s

theorem sendText_eq_run (text : List Byte) (s : State) :
    sendText text s = run (text.flatMap fun c => byteMicros s c true) s := by
  induction text generalizing s with
  | nil => rfl
  | cons c cs ih =>
    rw [sendText, sendData_eq_run, List.flatMap_cons]
    refine run_andThen_run _ _ _ s fun t ht => ?_
    rw [ih]
    congr 1
    exact congrArg (fun f => cs.flatMap f) (funext fun c => byteMicros_kept (kept_of_run_going ht) c true)

/-! ## The primitives' traces with the parameters of R6 -/

theorem eventsOf_pulseMicros (s : State) (p : Byte) (hc : s.cfg = Config.defaults) (hp : p &&& 0xFB = p) :
    eventsOf s.i2cAddr (pulseMicros s p) = pulseEvents s p := by
  have h8 : (0x08 : Byte) &&& 0xFB = 0x08 := by decide
  have hx : ∀ q : Byte, q &&& 0xFB = q → (p ||| q) &&& 0xFB = p ||| q := fun q hq => by
    rw [BitVec.and_comm, BitVec.and_or_distrib_left, BitVec.and_comm _ p, BitVec.and_comm _ q, hp, hq]
  have he : ~~~(0x04 : Byte) = 0xFB := by decide
  have hen : s.cfg.pinEn = 0x04 := by rw [hc]; rfl
  have hbl : s.cfg.pinBl = 0x08 := by rw [hc]; rfl
  have h0 : (0x00 : Byte) &&& 0xFB = 0x00 := by decide
  cases hb : s.backlightBit
  · simp only [pulseMicros, pulseEvents, compose, State.bl, hb, hen, he]
    simp only [eventsOf_put, eventsOf_hold, eventsOf_nil, Bool.false_eq_true, if_false, hx _ h0]
  · simp only [pulseMicros, pulseEvents, compose, State.bl, hb, hen, hbl, he, if_true]
    simp only [eventsOf_put, eventsOf_hold, eventsOf_nil, hx _ h8]

theorem payload_defaults (v : Byte) (data : Bool) :
    highPayload Config.defaults v data = (v &&& 0xF0) ||| (if data then 0x01 else 0x00) ∧
    lowPayload Config.defaults v data = ((v <<< 4) &&& 0xF0) ||| (if data then 0x01 else 0x00) := ⟨rfl, rfl⟩

theorem payload_enable_clear (x : Byte) (data : Bool) :
    ((x &&& 0xF0) ||| (if data then 0x01 else 0x00)) &&& 0xFB = (x &&& 0xF0) ||| (if data then 0x01 else 0x00) := by
  have h : (0xF0 : Byte) &&& 0xFB = 0xF0 := by decide
  have h1 : (0xFB : Byte) &&& 0x01 = 0x01 := by decide
  rw [BitVec.and_comm, BitVec.and_or_distrib_left, BitVec.and_comm _ (x &&& 0xF0), BitVec.and_assoc, h]
  cases data
  · simp
  · rw [if_pos rfl, h1]

theorem eventsOf_byteMicros (s : State) (v : Byte) (data : Bool) (hc : s.cfg = Config.defaults) :
    eventsOf s.i2cAddr (byteMicros s v data) = byteEvents s v data := by
  have hp := payload_defaults v data
  rw [byteMicros, eventsOf_append, hc, hp.1, hp.2, eventsOf_pulseMicros s _ hc (payload_enable_clear v data),
    eventsOf_pulseMicros s _ hc (payload_enable_clear (v <<< 4) data)]
  rfl

end Sys2Proof.Machine
end

