-- ==== Sys2Proof/Laws/Exec.lean ====
section
/-! SUPPORT. Every operation but INIT as ONE run, from the state in which its register has been stored (`exec_eq_run`), and
INIT as its stages; the trace of that run with the parameters of R6 is the planned one (`eventsOf_microsOf`). -/

namespace Sys2Proof.Machine

/-- The lines an admitted operation with legal operands runs, from the state in which its register has been stored. -/
def microsOf (i : Instr) (t : State) : List Micro :=
  match i with
  | .init => []
  | .clear => byteMicros t t.cfg.cmdClearDisplay false ++ [.hold .clearHome]
  | .home => byteMicros t t.cfg.cmdReturnHome false ++ [.hold .clearHome]
  | .displayOn | .displayOff | .cursorOn | .cursorOff | .blinkOn | .blinkOff => byteMicros t t.displayControl false
  | .leftToRight | .rightToLeft | .autoscrollOn | .autoscrollOff => byteMicros t t.entryMode false
  | .backlightOn | .backlightOff => byteMicros t t.cfg.cmdNop false
  | .cursorMoveLeft => byteMicros t (shiftCommand t.cfg false false) false
  | .cursorMoveRight => byteMicros t (shiftCommand t.cfg false true) false
  | .displayMoveLeft => byteMicros t (shiftCommand t.cfg true false) false
  | .displayMoveRight => byteMicros t (shiftCommand t.cfg true true) false
  | .setCursor col row => byteMicros t (setDdramCommand t.cfg (ddramAddr t.cfg col row)) false
  | .write text => text.flatMap fun c => byteMicros t c true
  | .writeln text line =>
    byteMicros t (setDdramCommand t.cfg (lineBaseOf t.cfg line)) false ++ text.flatMap fun c => byteMicros t c true
  | .sendCommand byte => byteMicros t byte false
  | .sendData byte => byteMicros t byte true

theorem admitted_ready {s : State} (op : State → Host.Outcome State Fault Refusal) (h : s.phase = .ready) :
    admitted s op = op s := by simp [admitted, h]

theorem admitted_refused {s : State} (op : State → Host.Outcome State Fault Refusal) (h : s.phase ≠ .ready) :
    admitted s op = .next (respond .notReady s) := by simp [admitted, raise, h]

theorem directCommand_eq_run (v : Byte) (after : List Micro) (s : State) :
    directCommand v after s = endOperation (run (byteMicros s v false ++ after) s) := by
  rw [directCommand, sendCommand_eq_run, run_append]

theorem directCommand_eq_run_nil (v : Byte) (s : State) :
    directCommand v [] s = endOperation (run (byteMicros s v false) s) := by
  rw [directCommand_eq_run, List.append_nil]

theorem sendText_after_eq_run (ms : List Micro) (text : List Byte) (s : State) :
    (run ms s).andThen (sendText text) = run (ms ++ text.flatMap fun c => byteMicros s c true) s := by
  refine run_andThen_run ms _ _ s fun t ht => ?_
  rw [sendText_eq_run]
  congr 1
  exact congrArg (fun f => text.flatMap f) (funext fun c => byteMicros_kept (kept_of_run_going ht) c true)

theorem rowLegal_defaults (row : Byte) : rowLegal Config.defaults row = rowWf row := by
  have h : (Config.defaults.rows : Int) = 4 := rfl
  unfold rowLegal rowWf
  rw [h]
  congr 1
  exact decide_eq_decide.mpr ⟨fun h => by omega, fun h => by omega⟩

/-- Every admitted operation but INIT, its operands legal, is one run. -/
theorem exec_eq_run (i : Instr) {s : State} (hc : s.cfg = Config.defaults) (hr : s.phase = .ready) (hi : i ≠ .init)
    (hw : i.wf = true) : exec i s = endOperation (run (microsOf i (stored i s)) (stored i s)) := by
  cases i with
  | init => exact absurd rfl hi
  | clear => rw [exec, execClear, admitted_ready _ hr, directCommand_eq_run]; rfl
  | home => rw [exec, execHome, admitted_ready _ hr, directCommand_eq_run]; rfl
  | displayOff =>
    rw [exec, execDisplayOff, admitted_ready _ hr, sendDisplayControl, sendCommand_eq_run, show s.cfg.flagDisplayOn = 0x04 by rw [hc]; rfl]
    rfl
  | displayOn =>
    rw [exec, execDisplayOn, admitted_ready _ hr, sendDisplayControl, sendCommand_eq_run, show s.cfg.flagDisplayOn = 0x04 by rw [hc]; rfl]
    rfl
  | cursorOff =>
    rw [exec, execCursorOff, admitted_ready _ hr, sendDisplayControl, sendCommand_eq_run, show s.cfg.flagCursorOn = 0x02 by rw [hc]; rfl]
    rfl
  | cursorOn =>
    rw [exec, execCursorOn, admitted_ready _ hr, sendDisplayControl, sendCommand_eq_run, show s.cfg.flagCursorOn = 0x02 by rw [hc]; rfl]
    rfl
  | blinkOff =>
    rw [exec, execBlinkOff, admitted_ready _ hr, sendDisplayControl, sendCommand_eq_run, show s.cfg.flagBlinkOn = 0x01 by rw [hc]; rfl]
    rfl
  | blinkOn =>
    rw [exec, execBlinkOn, admitted_ready _ hr, sendDisplayControl, sendCommand_eq_run, show s.cfg.flagBlinkOn = 0x01 by rw [hc]; rfl]
    rfl
  | rightToLeft =>
    rw [exec, execRightToLeft, admitted_ready _ hr, sendEntryMode, sendCommand_eq_run, show s.cfg.flagEntryLeft = 0x02 by rw [hc]; rfl]
    rfl
  | leftToRight =>
    rw [exec, execLeftToRight, admitted_ready _ hr, sendEntryMode, sendCommand_eq_run, show s.cfg.flagEntryLeft = 0x02 by rw [hc]; rfl]
    rfl
  | autoscrollOff =>
    rw [exec, execAutoscrollOff, admitted_ready _ hr, sendEntryMode, sendCommand_eq_run, show s.cfg.flagEntryShiftInc = 0x01 by rw [hc]; rfl]
    rfl
  | autoscrollOn =>
    rw [exec, execAutoscrollOn, admitted_ready _ hr, sendEntryMode, sendCommand_eq_run, show s.cfg.flagEntryShiftInc = 0x01 by rw [hc]; rfl]
    rfl
  | backlightOff => rw [exec, execBacklightOff, admitted_ready _ hr, sendBacklight, sendCommand_eq_run]; rfl
  | backlightOn => rw [exec, execBacklightOn, admitted_ready _ hr, sendBacklight, sendCommand_eq_run]; rfl
  | cursorMoveLeft => rw [exec, execCursorMoveLeft, admitted_ready _ hr, directCommand_eq_run_nil]; rfl
  | cursorMoveRight => rw [exec, execCursorMoveRight, admitted_ready _ hr, directCommand_eq_run_nil]; rfl
  | displayMoveLeft => rw [exec, execDisplayMoveLeft, admitted_ready _ hr, directCommand_eq_run_nil]; rfl
  | displayMoveRight => rw [exec, execDisplayMoveRight, admitted_ready _ hr, directCommand_eq_run_nil]; rfl
  | setCursor col row =>
    have hl : rowLegal s.cfg row = true := by rw [hc, rowLegal_defaults]; exact hw
    rw [exec, execSetCursor, admitted_ready _ hr, if_pos hl, directCommand_eq_run_nil]
    rfl
  | write text => rw [exec, execWrite, admitted_ready _ hr, sendText_eq_run]; rfl
  | writeln text line =>
    have hl : lineLegal line = true := hw
    rw [exec, execWriteln, admitted_ready _ hr, if_pos hl, sendCommand_eq_run, sendText_after_eq_run]
    rfl
  | sendCommand byte => rw [exec, execSendCommand, admitted_ready _ hr, directCommand_eq_run_nil]; rfl
  | sendData byte => rw [exec, execSendData, admitted_ready _ hr, sendData_eq_run]; rfl

/-! ## The traces with the parameters of R6 -/

theorem rowOffsetOf_defaults : ∀ row : Byte, rowWf row = true → rowOffsetOf Config.defaults row = rowBase row := by
  decide

theorem lineBaseOf_defaults : ∀ line : Byte, lineWf line = true → lineBaseOf Config.defaults line = lineBase line := by
  decide

theorem eventsOf_textMicros (text : List Byte) (t : State) (hc : t.cfg = Config.defaults) :
    eventsOf t.i2cAddr (text.flatMap fun c => byteMicros t c true) = textEvents t text := by
  induction text with
  | nil => rfl
  | cons c cs ih =>
    rw [List.flatMap_cons, eventsOf_append, eventsOf_byteMicros t c true hc, ih]
    rfl

theorem stored_cfg (i : Instr) (s : State) : (stored i s).cfg = s.cfg := by cases i <;> rfl
theorem stored_phase (i : Instr) (s : State) : (stored i s).phase = s.phase := by cases i <;> rfl
theorem stored_i2cAddr (i : Instr) (s : State) : (stored i s).i2cAddr = s.i2cAddr := by cases i <;> rfl
theorem stored_answerAt (i : Instr) (s : State) (k : Nat) : (stored i s).answerAt k = s.answerAt k := by cases i <;> rfl
theorem stored_trace (i : Instr) (s : State) : (stored i s).trace = s.trace := by cases i <;> rfl
theorem stored_responses (i : Instr) (s : State) : (stored i s).responses = s.responses := by cases i <;> rfl
theorem stored_inputs (i : Instr) (s : State) : (stored i s).inputs = s.inputs := by cases i <;> rfl
theorem stored_answers (i : Instr) (s : State) : (stored i s).answers = s.answers := by cases i <;> rfl
theorem stored_transportCalls (i : Instr) (s : State) : (stored i s).transportCalls = s.transportCalls := by cases i <;> rfl
theorem stored_delayResets (i : Instr) (s : State) : (stored i s).delayResets = s.delayResets := by cases i <;> rfl

/-- Storing a register changes nothing of the environment: the premises carry over. -/
theorem stored_quietFor {i : Instr} {s : State} {n : Nat} (h : s.quietFor n) : (stored i s).quietFor n := by
  unfold State.quietFor
  rw [stored_delayResets]
  exact h

theorem stored_okFor {i : Instr} {s : State} {evs : List Event} (h : s.okFor evs) : (stored i s).okFor evs :=
  ⟨fun k hk => (stored_answerAt i s k).trans (h.1 k hk), stored_quietFor h.2⟩

theorem stored_failsAt {i : Instr} {s : State} {k : Nat} {evs : List Event} (h : s.failsAt k evs) :
    (stored i s).failsAt k evs :=
  ⟨h.1, fun n hn => (stored_answerAt i s n).trans (h.2.1 n hn), (stored_answerAt i s k).trans h.2.2.1, stored_quietFor h.2.2.2⟩

theorem stored_hangsAt {i : Instr} {s : State} {k : Nat} {evs : List Event} (h : s.hangsAt k evs) :
    (stored i s).hangsAt k evs :=
  ⟨h.1, fun n hn => (stored_answerAt i s n).trans (h.2.1 n hn), (stored_answerAt i s k).trans h.2.2.1, stored_quietFor h.2.2.2⟩

theorem stored_cutAt {i : Instr} {s : State} {j : Nat} {a : I2cAddr} {evs : List Event} (h : s.cutAt j a evs) :
    (stored i s).cutAt j a evs :=
  ⟨h.1, fun n hn => (stored_answerAt i s n).trans (h.2.1 n hn), by rw [stored_delayResets]; exact h.2.2⟩

/-- The trace of an operation's run is the planned one. -/
theorem eventsOf_microsOf (i : Instr) (t : State) (hc : t.cfg = Config.defaults) (hi : i ≠ .init) (hw : i.wf = true) :
    eventsOf t.i2cAddr (microsOf i t) = plannedFrom i t := by
  have hb (v : Byte) (data : Bool) := eventsOf_byteMicros t v data hc
  cases i with
  | init => exact absurd rfl hi
  | clear => rw [microsOf, eventsOf_append, hb, hc]; rfl
  | home => rw [microsOf, eventsOf_append, hb, hc]; rfl
  | displayOff => exact hb _ _
  | displayOn => exact hb _ _
  | cursorOff => exact hb _ _
  | cursorOn => exact hb _ _
  | blinkOff => exact hb _ _
  | blinkOn => exact hb _ _
  | rightToLeft => exact hb _ _
  | leftToRight => exact hb _ _
  | autoscrollOff => exact hb _ _
  | autoscrollOn => exact hb _ _
  | backlightOff => rw [microsOf, hb, hc]; rfl
  | backlightOn => rw [microsOf, hb, hc]; rfl
  | cursorMoveLeft => rw [microsOf, hb, hc]; rfl
  | cursorMoveRight => rw [microsOf, hb, hc]; rfl
  | displayMoveLeft => rw [microsOf, hb, hc]; rfl
  | displayMoveRight => rw [microsOf, hb, hc]; rfl
  | setCursor col row => rw [microsOf, hb, hc, ddramAddr, rowOffsetOf_defaults row hw]; rfl
  | write text => exact eventsOf_textMicros text t hc
  | writeln text line =>
    rw [microsOf, eventsOf_append, hb, hc, lineBaseOf_defaults line hw, eventsOf_textMicros text t hc]
    rfl
  | sendCommand byte => exact hb _ _
  | sendData byte => exact hb _ _

@[simp] theorem writeCount_pulseEvents (s : State) (p : Byte) : writeCount (pulseEvents s p) = 2 := rfl

@[simp] theorem writeCount_byteEvents (s : State) (v : Byte) (data : Bool) : writeCount (byteEvents s v data) = 4 := rfl

@[simp] theorem writeCount_commandEvents (s : State) (v : Byte) : writeCount (commandEvents s v) = 4 := rfl

@[simp] theorem writeCount_dataEvents (s : State) (v : Byte) : writeCount (dataEvents s v) = 4 := rfl

@[simp] theorem writeCount_textEvents (s : State) (text : List Byte) :
    writeCount (textEvents s text) = 4 * text.length := by
  induction text with
  | nil => rfl
  | cons c cs ih =>
    rw [textEvents, List.flatMap_cons, writeCount_append, writeCount_dataEvents, ← textEvents, ih, List.length_cons]
    omega

theorem writeCount_plannedFrom (i : Instr) (t : State) : writeCount (plannedFrom i t) = writesOf i := by
  cases i with
  | write text => exact writeCount_textEvents t text
  | writeln text line => rw [plannedFrom, writeCount_append, writeCount_textEvents, writeCount_commandEvents]; rfl
  | _ => rfl

/-! ## INIT as its stages -/

/-- The lines of steps 1 and 2 (R100). -/
def bringUpMicros (s : State) : List Micro :=
  (pulseMicros s (rawPayload s.cfg s.cfg.initNibble8Bit) ++ [.hold .initSettle]) ++
  (pulseMicros s (rawPayload s.cfg s.cfg.initNibble8Bit) ++ [.hold .initSettle]) ++
  (pulseMicros s (rawPayload s.cfg s.cfg.initNibble8Bit) ++ [.hold .initSettle]) ++
  pulseMicros s (rawPayload s.cfg s.cfg.initNibble4Bit)

theorem bringUpNibble_eq_run (s : State) :
    bringUpNibble s = run (pulseMicros s (rawPayload s.cfg s.cfg.initNibble8Bit) ++ [.hold .initSettle]) s := by
  rw [bringUpNibble, rawNibble_eq_run, run_append]
  rfl

theorem bringUp_eq_run (s : State) : bringUp s = run (bringUpMicros s) s := by
  have hn : ∀ xs : List Micro, (run xs s).andThen bringUpNibble =
      run (xs ++ (pulseMicros s (rawPayload s.cfg s.cfg.initNibble8Bit) ++ [.hold .initSettle])) s := fun xs =>
    run_andThen_run xs _ _ s fun t ht => by
      have hk := kept_of_run_going ht
      rw [bringUpNibble_eq_run, hk.cfg, pulseMicros_kept hk]
  rw [bringUp, bringUpNibble_eq_run, hn, hn]
  refine run_andThen_run _ _ _ s fun t ht => ?_
  have hk := kept_of_run_going ht
  rw [rawNibble_eq_run, hk.cfg, pulseMicros_kept hk]

/-- Steps 3 to 5 as four runs, each register written before the run that sends it (R100). -/
theorem initCommands_eq_runs (s : State) : initCommands s =
    ((((run (byteMicros s (initFunctionSet s.cfg) false) { s with functionSet := initFunctionSet s.cfg }).andThen fun s =>
      run (byteMicros s (initDisplayControl s.cfg) false) { s with displayControl := initDisplayControl s.cfg }).andThen fun s =>
      run (byteMicros s (initEntryMode s.cfg) false) { s with entryMode := initEntryMode s.cfg }).andThen fun s =>
      run (byteMicros s s.cfg.cmdClearDisplay false) s).andThen (run [.hold .initFinal]) := by
  unfold initCommands sendFunctionSet sendDisplayControl sendEntryMode
  simp only [sendCommand_eq_run]
  rfl

end Sys2Proof.Machine
end

