-- ==== Sys2Proof/Laws/PerInstr.lean ====
section
/-! SUPPORT. Statements about the operations as syntax, one lemma per constructor. EncodedOpcode: the request an operation is
encoded as carries the operation's opcode, one of the 24 of spec 30_encoding.md R66. -/

namespace Sys2Proof.Laws.EncodedOpcode

/-- The `op` field of the encoded request is the operation's opcode, and that opcode is assigned. -/
def Statement (i : Instr) : Prop := opField (encode i).word = i.opcode ∧ i.opcode ∈ assignedOpcodes

theorem init : Statement .init := ⟨opField_packWord _ _ _, by decide⟩
theorem clear : Statement .clear := ⟨opField_packWord _ _ _, by decide⟩
theorem home : Statement .home := ⟨opField_packWord _ _ _, by decide⟩
theorem displayOff : Statement .displayOff := ⟨opField_packWord _ _ _, by decide⟩
theorem displayOn : Statement .displayOn := ⟨opField_packWord _ _ _, by decide⟩
theorem cursorOff : Statement .cursorOff := ⟨opField_packWord _ _ _, by decide⟩
theorem cursorOn : Statement .cursorOn := ⟨opField_packWord _ _ _, by decide⟩
theorem blinkOff : Statement .blinkOff := ⟨opField_packWord _ _ _, by decide⟩
theorem blinkOn : Statement .blinkOn := ⟨opField_packWord _ _ _, by decide⟩
theorem rightToLeft : Statement .rightToLeft := ⟨opField_packWord _ _ _, by decide⟩
theorem leftToRight : Statement .leftToRight := ⟨opField_packWord _ _ _, by decide⟩
theorem autoscrollOff : Statement .autoscrollOff := ⟨opField_packWord _ _ _, by decide⟩
theorem autoscrollOn : Statement .autoscrollOn := ⟨opField_packWord _ _ _, by decide⟩
theorem backlightOff : Statement .backlightOff := ⟨opField_packWord _ _ _, by decide⟩
theorem backlightOn : Statement .backlightOn := ⟨opField_packWord _ _ _, by decide⟩
theorem cursorMoveLeft : Statement .cursorMoveLeft := ⟨opField_packWord _ _ _, by decide⟩
theorem cursorMoveRight : Statement .cursorMoveRight := ⟨opField_packWord _ _ _, by decide⟩
theorem displayMoveLeft : Statement .displayMoveLeft := ⟨opField_packWord _ _ _, by decide⟩
theorem displayMoveRight : Statement .displayMoveRight := ⟨opField_packWord _ _ _, by decide⟩
theorem setCursor (col row : Byte) : Statement (.setCursor col row) :=
  ⟨opField_packWord _ _ _, by change (0x30 : Byte) ∈ assignedOpcodes; decide⟩
theorem write (text : List Byte) : Statement (.write text) :=
  ⟨opField_packWord _ _ _, by change (0x40 : Byte) ∈ assignedOpcodes; decide⟩
theorem writeln (text : List Byte) (line : Byte) : Statement (.writeln text line) :=
  ⟨opField_packWord _ _ _, by change (0x41 : Byte) ∈ assignedOpcodes; decide⟩
theorem sendCommand (byte : Byte) : Statement (.sendCommand byte) :=
  ⟨opField_packWord _ _ _, by change (0x50 : Byte) ∈ assignedOpcodes; decide⟩
theorem sendData (byte : Byte) : Statement (.sendData byte) :=
  ⟨opField_packWord _ _ _, by change (0x51 : Byte) ∈ assignedOpcodes; decide⟩

end Sys2Proof.Laws.EncodedOpcode
end

