-- ==== Sys2Proof/Tests/Slice0.lean ====
section
/-! SUPPORT. Tests of the model: the checks of WellFormed, words written out from spec 30_encoding.md, single steps with the
traces of spec 95_test_vectors.md (each test names its vector), and one witness for the hypotheses of every obligation. -/

set_option maxRecDepth 20000

namespace Sys2Proof.Tests

open Sys2Proof
open Sys2Proof.Machine

/-! ## Helpers -/

/-- `n` answers `Ok`, then the given ones. -/
def oks (n : Nat) (rest : List Answer) : List Answer := List.replicate n .ok ++ rest

/-- A block in `Ready` with the given registers (function set 0x28) and answers. -/
def block (dc em : Byte) (bl : Bool) (answers : List Answer) : State :=
  { State.reset with
    phase := .ready, sequencer := .idle, displayControl := dc, entryMode := em, functionSet := 0x28, backlightBit := bl
    answers := answers }

/-- The state INIT leaves, backlight on. -/
def ready (answers : List Answer) : State := block 0x0C 0x06 true answers

/-- A block whose last INIT failed. -/
def failedBlock (answers : List Answer) : State := { ready answers with phase := .failed }

/-- A block waiting on a write never answered. -/
def hungBlock (inputs : List Input) : State := { ready [] with sequencer := .waiting 0x27 0x0C, inputs := inputs }

/-- The INIT state, a reset to address 0x3F landing in the delay after `n` whole ones. -/
def cutBlock (n : Nat) (answers : List Answer) : State := { ready answers with delayResets := [(n, 0x3F)] }

/-- `W(v)` to the default address. -/
def w (v : Byte) : Event := .written 0x27 v

/-- `W!(v)` to the default address. -/
def bad (v : Byte) : Event := .writeFailed 0x27 v

def dH : Event := .delay .enHigh
def dL : Event := .delay .enLow
def dI : Event := .delay .initSettle
def dF : Event := .delay .initFinal
def dC : Event := .delay .clearHome

/-- The pulse `W(x) dH W(y) dL`. -/
def p (x y : Byte) : List Event := [w x, dH, w y, dL]

/-- What is seen after a step: the trace, the statuses, `functionSet`, `displayControl` and `entryMode`, the backlight, the
phase. -/
structure Seen where
  trace : List Event
  statuses : List Status
  mirrors : List Byte
  backlight : Bool
  phase : Phase
  deriving DecidableEq

def shown : Host.Outcome State Fault Refusal → Option Seen
  | .next s => some ⟨s.trace, s.responses, [s.functionSet, s.displayControl, s.entryMode], s.backlightBit, s.phase⟩
  | .fault _ => none
  | .refused _ => none

/-- What the INIT state shows after an operation that writes no state. -/
def plain (evs : List Event) (st : Status) : Option Seen := some ⟨evs, [st], [0x28, 0x0C, 0x06], true, .ready⟩

/-! ## WellFormed: ill-formed operands are refused (R65) -/

theorem test_wf_row_four_refused : (Instr.setCursor 0 4).wf = false := by decide
theorem test_wf_row_minus_one_refused : (Instr.setCursor 0 0xFF).wf = false := by decide
theorem test_wf_row_three_accepted : (Instr.setCursor 0xFF 3).wf = true := by decide
theorem test_wf_line_two_refused : (Instr.writeln [] 2).wf = false := by decide
theorem test_wf_line_minus_one_refused : (Instr.writeln [] 0xFF).wf = false := by decide
theorem test_wf_line_one_accepted : (Instr.writeln [] 1).wf = true := by decide

/-! ## Decode and encode: words written out from R64 and R66, `op`, `a`, `b` -/

theorem test_decode_system_and_direct :
    decodeTableWord 24 0b000000000000000000000000 = some .init ∧
    decodeTableWord 24 0b000000010000000000000000 = some .clear ∧
    decodeTableWord 24 0b000000100000000000000000 = some .home ∧
    decodeTableWord 24 0b001000000000000000000000 = some .cursorMoveLeft ∧
    decodeTableWord 24 0b001000010000000000000000 = some .cursorMoveRight ∧
    decodeTableWord 24 0b001000100000000000000000 = some .displayMoveLeft ∧
    decodeTableWord 24 0b001000110000000000000000 = some .displayMoveRight := by decide

theorem test_decode_toggles :
    decodeTableWord 24 0b000100000000000000000000 = some .displayOff ∧
    decodeTableWord 24 0b000100010000000000000000 = some .displayOn ∧
    decodeTableWord 24 0b000100100000000000000000 = some .cursorOff ∧
    decodeTableWord 24 0b000100110000000000000000 = some .cursorOn ∧
    decodeTableWord 24 0b000101000000000000000000 = some .blinkOff ∧
    decodeTableWord 24 0b000101010000000000000000 = some .blinkOn ∧
    decodeTableWord 24 0b000101100000000000000000 = some .rightToLeft ∧
    decodeTableWord 24 0b000101110000000000000000 = some .leftToRight ∧
    decodeTableWord 24 0b000110000000000000000000 = some .autoscrollOff ∧
    decodeTableWord 24 0b000110010000000000000000 = some .autoscrollOn ∧
    decodeTableWord 24 0b000110100000000000000000 = some .backlightOff ∧
    decodeTableWord 24 0b000110110000000000000000 = some .backlightOn := by decide

theorem test_decode_operands :
    decodeTableWord 24 0b001100000000011100000100 = some (.setCursor 7 4) ∧
    decode ⟨0b010000000000000000000000, [0x43]⟩ = .ok (.write [0x43]) ∧
    decode ⟨0b010000010000000100000000, [0x41, 0x42]⟩ = .ok (.writeln [0x41, 0x42] 1) ∧
    decodeTableWord 24 0b010100001100000000000000 = some (.sendCommand 0xC0) ∧
    decodeTableWord 24 0b010100010100000100000000 = some (.sendData 0x41) := by decide

/-- R65: ignored fields have no effect; R67: so has a text where the format has none; unassigned values are refused. -/
theorem test_decode_ignored_and_illegal :
    decode ⟨0x01FFFF, [0x41]⟩ = .ok .clear ∧ decode ⟨0x410055, []⟩ = .ok (.writeln [] 0) ∧
    decodeTableWord 24 0x030000 = none ∧ decodeTableWord 24 0x1C0000 = none ∧ decodeTableWord 24 0x240000 = none ∧
    decodeTableWord 24 0x310000 = none ∧ decodeTableWord 24 0x420000 = none ∧ decodeTableWord 24 0x520000 = none ∧
    decodeTableWord 24 0xFF0000 = none := by decide

/-- The request words of program P3, and a word for the other two formats. -/
theorem test_encode_words :
    encodeProgram [.backlightOff, .setCursor 7 3, .write [0x43], .backlightOn] =
      [⟨0x1A0000, []⟩, ⟨0x300703, []⟩, ⟨0x400000, [0x43]⟩, ⟨0x1B0000, []⟩] ∧
    encode (.writeln [0x48, 0x69] 0) = ⟨0x410000, [0x48, 0x69]⟩ ∧ encode (.sendData 0x41) = ⟨0x514100, []⟩ := by decide

/-- R69: the written form of a line. -/
theorem test_asm_lines :
    (Instr.setCursor 5 1).asm = "SET_CURSOR 5, 1" ∧ (Instr.setCursor 0 0xFF).asm = "SET_CURSOR 0, -1" ∧
    Instr.clear.asm = "CLEAR" := ⟨rfl, rfl, rfl⟩

/-! ## Steps: the vectors of 95_test_vectors.md -/

/-- The trace of vector I1. -/
def initTraceOn : List Event :=
  p 0x3C 0x38 ++ [dI] ++ p 0x3C 0x38 ++ [dI] ++ p 0x3C 0x38 ++ [dI] ++ p 0x2C 0x28 ++
  p 0x2C 0x28 ++ p 0x8C 0x88 ++ p 0x0C 0x08 ++ p 0xCC 0xC8 ++ p 0x0C 0x08 ++ p 0x6C 0x68 ++ p 0x0C 0x08 ++ p 0x1C 0x18 ++ [dF]

/-- The trace of vector I2. -/
def initTraceOff : List Event :=
  p 0x34 0x30 ++ [dI] ++ p 0x34 0x30 ++ [dI] ++ p 0x34 0x30 ++ [dI] ++ p 0x24 0x20 ++
  p 0x24 0x20 ++ p 0x84 0x80 ++ p 0x04 0x00 ++ p 0xC4 0xC0 ++ p 0x04 0x00 ++ p 0x64 0x60 ++ p 0x04 0x00 ++ p 0x14 0x10 ++ [dF]

/-- I1, by the boot of R191. -/
theorem test_boot_i1 : shown (step { State.reset with answers := oks 24 [] }) =
    some ⟨initTraceOn, [.ok], [0x28, 0x0C, 0x06], true, .ready⟩ := by decide

/-- I9: re-INIT from 0x0F, 0x05, backlight off. -/
theorem test_init_i9 : shown (exec .init (block 0x0F 0x05 false (oks 24 []))) =
    some ⟨initTraceOff, [.ok], [0x28, 0x0C, 0x06], false, .ready⟩ := by decide

/-- I4: the seventh write fails; the registers keep what they held. -/
theorem test_init_i4 : shown (exec .init (block 0x0F 0x05 true (oks 6 [.err]))) =
    some ⟨p 0x3C 0x38 ++ [dI] ++ p 0x3C 0x38 ++ [dI] ++ p 0x3C 0x38 ++ [dI] ++ [bad 0x2C], [.initializationFailure],
      [0x28, 0x0F, 0x05], true, .failed⟩ := by decide

/-- I6: the thirteenth write fails; 0x28 and 0x0C have been stored, `entryMode` not. -/
theorem test_init_i6 : (shown (exec .init (block 0x0F 0x05 true (oks 12 [.err])))).map (fun r => (r.statuses, r.mirrors, r.phase)) =
    some ([.initializationFailure], [0x28, 0x0C, 0x05], .failed) := by decide

/-- DC1. -/
theorem test_clear_dc1 : shown (exec .clear (ready (oks 4 []))) = plain (p 0x0C 0x08 ++ p 0x1C 0x18 ++ [dC]) .ok := by decide

/-- DC2. -/
theorem test_home_dc2 : shown (exec .home (ready (oks 4 []))) = plain (p 0x0C 0x08 ++ p 0x2C 0x28 ++ [dC]) .ok := by decide

/-- DC3. -/
theorem test_cursorMoveLeft_dc3 :
    shown (exec .cursorMoveLeft (ready (oks 4 []))) = plain (p 0x1C 0x18 ++ p 0x0C 0x08) .ok := by decide

/-- DC4. -/
theorem test_cursorMoveRight_dc4 :
    shown (exec .cursorMoveRight (ready (oks 4 []))) = plain (p 0x1C 0x18 ++ p 0x4C 0x48) .ok := by decide

/-- DC5. -/
theorem test_displayMoveLeft_dc5 :
    shown (exec .displayMoveLeft (ready (oks 4 []))) = plain (p 0x1C 0x18 ++ p 0x8C 0x88) .ok := by decide

/-- DC6. -/
theorem test_displayMoveRight_dc6 :
    shown (exec .displayMoveRight (ready (oks 4 []))) = plain (p 0x1C 0x18 ++ p 0xCC 0xC8) .ok := by decide

/-- DC12: the carry is dropped. -/
theorem test_setCursor_dc12 :
    shown (exec (.setCursor 172 3) (ready (oks 4 []))) = plain (p 0x8C 0x88 ++ p 0x0C 0x08) .ok := by decide

/-- DC13, DC14, DC17: row 1; rows 4 and -128 are rejected. -/
theorem test_setCursor_dc13_dc14_dc17 :
    shown (exec (.setCursor 39 1) (ready (oks 4 []))) = plain (p 0xEC 0xE8 ++ p 0x7C 0x78) .ok ∧
    shown (exec (.setCursor 7 4) (ready [])) = plain [] .invalidArgument ∧
    shown (exec (.setCursor 7 0x80) (ready [])) = plain [] .invalidArgument := by decide

/-- DC18, DC19: a raw command leaves the mirror; no delay follows a raw clear. -/
theorem test_sendCommand_dc18_dc19 :
    shown (exec (.sendCommand 0x0F) (ready (oks 4 []))) = plain (p 0x0C 0x08 ++ p 0xFC 0xF8) .ok ∧
    shown (exec (.sendCommand 0x01) (ready (oks 4 []))) = plain (p 0x0C 0x08 ++ p 0x1C 0x18) .ok := by decide

/-- DC21. -/
theorem test_sendData_dc21 :
    shown (exec (.sendData 0x41) (ready (oks 4 []))) = plain (p 0x4D 0x49 ++ p 0x1D 0x19) .ok := by decide

/-- T8. -/
theorem test_displayOff_t8 : shown (exec .displayOff (block 0x0F 0x06 true (oks 4 []))) =
    some ⟨p 0x0C 0x08 ++ p 0xBC 0xB8, [.ok], [0x28, 0x0B, 0x06], true, .ready⟩ := by decide

/-- T2. -/
theorem test_displayOn_t2 : shown (exec .displayOn (block 0x08 0x06 true (oks 4 []))) =
    some ⟨p 0x0C 0x08 ++ p 0xCC 0xC8, [.ok], [0x28, 0x0C, 0x06], true, .ready⟩ := by decide

/-- T6. -/
theorem test_cursorOff_t6 : shown (exec .cursorOff (block 0x0F 0x06 true (oks 4 []))) =
    some ⟨p 0x0C 0x08 ++ p 0xDC 0xD8, [.ok], [0x28, 0x0D, 0x06], true, .ready⟩ := by decide

/-- T4. -/
theorem test_cursorOn_t4 : shown (exec .cursorOn (ready (oks 4 []))) =
    some ⟨p 0x0C 0x08 ++ p 0xEC 0xE8, [.ok], [0x28, 0x0E, 0x06], true, .ready⟩ := by decide

/-- T17: the third write fails, the register keeps its new value. -/
theorem test_cursorOn_t17 : shown (exec .cursorOn (ready (oks 2 [.err]))) =
    some ⟨p 0x0C 0x08 ++ [bad 0xEC], [.transportError], [0x28, 0x0E, 0x06], true, .ready⟩ := by decide

/-- T7. -/
theorem test_blinkOff_t7 : shown (exec .blinkOff (block 0x0D 0x06 true (oks 4 []))) =
    some ⟨p 0x0C 0x08 ++ p 0xCC 0xC8, [.ok], [0x28, 0x0C, 0x06], true, .ready⟩ := by decide

/-- T5. -/
theorem test_blinkOn_t5 : shown (exec .blinkOn (block 0x0E 0x06 true (oks 4 []))) =
    some ⟨p 0x0C 0x08 ++ p 0xFC 0xF8, [.ok], [0x28, 0x0F, 0x06], true, .ready⟩ := by decide

/-- T10. -/
theorem test_rightToLeft_t10 : shown (exec .rightToLeft (block 0x0C 0x07 true (oks 4 []))) =
    some ⟨p 0x0C 0x08 ++ p 0x5C 0x58, [.ok], [0x28, 0x0C, 0x05], true, .ready⟩ := by decide

/-- T12. -/
theorem test_leftToRight_t12 : shown (exec .leftToRight (block 0x0C 0x04 true (oks 4 []))) =
    some ⟨p 0x0C 0x08 ++ p 0x6C 0x68, [.ok], [0x28, 0x0C, 0x06], true, .ready⟩ := by decide

/-- T11. -/
theorem test_autoscrollOff_t11 : shown (exec .autoscrollOff (block 0x0C 0x05 true (oks 4 []))) =
    some ⟨p 0x0C 0x08 ++ p 0x4C 0x48, [.ok], [0x28, 0x0C, 0x04], true, .ready⟩ := by decide

/-- T9. -/
theorem test_autoscrollOn_t9 : shown (exec .autoscrollOn (ready (oks 4 []))) =
    some ⟨p 0x0C 0x08 ++ p 0x7C 0x78, [.ok], [0x28, 0x0C, 0x07], true, .ready⟩ := by decide

/-- T14. -/
theorem test_backlightOff_t14 : shown (exec .backlightOff (ready (oks 4 []))) =
    some ⟨p 0x04 0x00 ++ p 0x04 0x00, [.ok], [0x28, 0x0C, 0x06], false, .ready⟩ := by decide

/-- E6: the first write fails, the bit keeps its new value. -/
theorem test_backlightOff_e6 : shown (exec .backlightOff (ready [.err])) =
    some ⟨[bad 0x04], [.transportError], [0x28, 0x0C, 0x06], false, .ready⟩ := by decide

/-- T15. -/
theorem test_backlightOn_t15 : shown (exec .backlightOn (block 0x0C 0x06 false (oks 4 []))) =
    some ⟨p 0x0C 0x08 ++ p 0x0C 0x08, [.ok], [0x28, 0x0C, 0x06], true, .ready⟩ := by decide

/-- X3: codes are not interpreted. -/
theorem test_write_x3 : shown (exec (.write [0x00, 0x0A]) (ready (oks 8 []))) =
    plain (p 0x0D 0x09 ++ p 0x0D 0x09 ++ p 0x0D 0x09 ++ p 0xAD 0xA9) .ok := by decide

/-- X9: the fifth write fails; the first character was sent whole. -/
theorem test_write_x9 : shown (exec (.write [0x41, 0x42, 0x43]) (ready (oks 4 [.err]))) =
    plain (p 0x4D 0x49 ++ p 0x1D 0x19 ++ [bad 0x4D]) .transportError := by decide

/-- S5. -/
theorem test_writeln_s5 : shown (exec (.writeln [0x41, 0x42] 1) (ready (oks 12 []))) =
    plain (p 0xCC 0xC8 ++ p 0x0C 0x08 ++ p 0x4D 0x49 ++ p 0x1D 0x19 ++ p 0x4D 0x49 ++ p 0x2D 0x29) .ok := by decide

/-- S6, X8: the sixth write fails; line -1 is rejected. -/
theorem test_writeln_s6_x8 :
    shown (exec (.writeln [0x41, 0x42] 1) (ready (oks 5 [.err]))) =
      plain (p 0xCC 0xC8 ++ p 0x0C 0x08 ++ [w 0x4D, dH, bad 0x49]) .transportError ∧
    shown (exec (.writeln [0x78] 0xFF) (ready [])) = plain [] .invalidArgument := by decide

/-- E1, E2: `NotReady` in `Failed`, checked before the operand. -/
theorem test_notReady_e1_e2 :
    shown (exec .clear (failedBlock [])) = some ⟨[], [.notReady], [0x28, 0x0C, 0x06], true, .failed⟩ ∧
    shown (exec (.setCursor 0 9) (failedBlock [])) = some ⟨[], [.notReady], [0x28, 0x0C, 0x06], true, .failed⟩ := by decide

/-- E3: an unassigned opcode is checked before the phase. -/
theorem test_illegal_e3 : shown (step { failedBlock [] with inputs := [.request ⟨0x7F0000, []⟩] }) =
    some ⟨[], [.invalidArgument], [0x28, 0x0C, 0x06], true, .failed⟩ := by decide

/-- B9, B5 and RN4: bytes and nibbles, backlight on and off. -/
theorem test_primitives_b9_b5_rn4 :
    byteEvents (ready []) 0xFF true = p 0xFD 0xF9 ++ p 0xFD 0xF9 ∧
    byteEvents (block 0 0 false []) 0x00 false = p 0x04 0x00 ++ p 0x04 0x00 ∧
    rawNibble 0x2 (block 0 0 false (oks 2 [])) = .going ((block 0 0 false (oks 2 [])).afterEvents (p 0x24 0x20)) := by decide

/-- R208: a write never answered is outstanding, and nothing has been posted. -/
theorem test_hang_posts_nothing :
    shown (exec .clear (ready (oks 1 [.never]))) = some ⟨[w 0x0C, dH], [], [0x28, 0x0C, 0x06], true, .ready⟩ ∧
    step (hungBlock []) = .fault .transportNeverAnswers := ⟨by decide, rfl⟩

/-- A reset releases it: `Uninit`, the new address, about to boot (R175, R190). -/
theorem test_reset_releases_hung_block :
    step (hungBlock [.request ⟨0x010000, []⟩, .reset 0x3F]) =
      .next (applyReset 0x3F { hungBlock [] with inputs := [.request ⟨0x010000, []⟩] }) := rfl

/-- A request placed by `withFetchWord` is the first operation after the boot INIT (log entry 10). -/
theorem test_fetch_word_runs_first :
    step (State.reset.withFetchWord 24 0x130000) =
      exec .cursorOn { bootCompleted State.reset with inputs := [] } := rfl

/-- R175: a reset inside the last delay of CLEAR: the four writes and their holds, no `dC`, nothing posted; then the reset to
the sampled address, then the boot INIT. -/
theorem test_reset_in_last_delay :
    shown (exec .clear (cutBlock 4 (oks 4 []))) =
      some ⟨p 0x0C 0x08 ++ p 0x1C 0x18, [], [0x28, 0x0C, 0x06], true, .ready⟩ ∧
    step { cutBlock 4 [] with sequencer := .resetting 0x3F } = .next (applyReset 0x3F (cutBlock 4 [])) ∧
    step (applyReset 0x3F (cutBlock 4 [])) = exec .init (applyReset 0x3F (cutBlock 4 [])) := ⟨by decide, rfl, rfl⟩

/-- R160: the port shows a new response after an operation, and none while one waits, whatever was posted before. -/
theorem test_response_port :
    ({ ready [] with responses := [.ok, .notReady] } : State).rspStatus = some 4 ∧
    ({ hungBlock [] with responses := [.ok] } : State).rspValid = false ∧
    ({ hungBlock [] with responses := [.ok] } : State).rspStatus = none ∧
    State.newResponse (ready []) { ready [] with responses := [.transportError] } = some .transportError := by decide

/-- R36: pulses after a failed write are latched; its own edge is the free value's (here the failed write raised enable). -/
theorem test_latched_after_failure :
    latchedFrom Config.defaults false ([0x0C, 0x0C] ++ [0x4C, 0x48, 0x1C, 0x18]) = [(false, 4), (false, 1)] := by decide

/-- P1: what the controller latched in "Hi": the address command 0x80 and the data bytes 0x48, 0x69 (R36, R37). -/
theorem test_latched_p1 :
    (shown (exec (.writeln [0x48, 0x69] 0) (ready (oks 12 [])))).map (fun r => latchedBytes (latchedIn Config.defaults r.trace)) =
      some [(false, 0x80), (true, 0x48), (true, 0x69)] := by decide

/-! ## Witnesses for the hypotheses of the obligations, in their order -/

theorem witness_ResetInputLeavesStatedValues :
    ({ ready [] with inputs := [.reset 0x3F] } : State).sequencer = .idle ∧
    ({ ready [] with inputs := [.reset 0x3F] } : State).inputs = .reset 0x3F :: [] := by decide

theorem witness_BootRunsInitByItself :
    State.reset.sequencer = .boot ∧ ({ State.reset with answers := oks 24 [] } : State).cfg = Config.defaults ∧
    ({ State.reset with answers := oks 24 [] } : State).okFor (initEvents State.reset) ∧
    ({ State.reset with answers := [.err] } : State).failsAt 0 (initEvents State.reset) ∧
    ({ State.reset with answers := oks 23 [.err] } : State).failsAt 23 (initEvents State.reset) := by decide

theorem witness_StepRunsDecodedRequest :
    ({ ready [] with inputs := [.request ⟨0x300704, []⟩] } : State).sequencer = .idle ∧
    ({ ready [] with inputs := [.request ⟨0x300704, []⟩] } : State).inputs = .request ⟨0x300704, []⟩ :: [] ∧
    decode ⟨0x300704, []⟩ = .ok (.setCursor 7 4) := by decide

theorem witness_IdleBlockKeepsState : (ready []).sequencer = .idle ∧ (ready []).inputs = [] := by decide

theorem witness_UnassignedOpcodeIsInvalidArgument :
    (failedBlock []).sequencer = .idle ∧ opField 0x030000 ∉ assignedOpcodes ∧ opField 0x0F0000 ∉ assignedOpcodes ∧
    opField 0x1C0000 ∉ assignedOpcodes ∧ opField 0xFF0000 ∉ assignedOpcodes ∧
    opField 0x010000 ≠ 0x40 ∧ opField 0x010000 ≠ 0x41 ∧
    ({ failedBlock [] with inputs := [.request ⟨0xFF0000, []⟩] } : State).inputs = .request ⟨0xFF0000, []⟩ :: [] := by decide

/-- Both clauses: a reset behind a request, and none. -/
theorem witness_HungBlockLeavesOnlyByReset :
    (hungBlock [.request ⟨0, []⟩, .reset 0x27]).sequencer = .waiting 0x27 0x0C ∧
    (∀ a, Input.reset a ∉ ([.request ⟨0, []⟩] : List Input)) ∧ (∀ a, Input.reset a ∉ ([] : List Input)) ∧
    (hungBlock [.request ⟨0, []⟩, .reset 0x27]).inputs = [.request ⟨0, []⟩] ++ .reset 0x27 :: [] ∧
    (hungBlock [.request ⟨0, []⟩]).inputs = [.request ⟨0, []⟩] ∧ (hungBlock []).inputs = [] := by
  refine ⟨rfl, fun a => by simp, fun a => by simp, rfl, rfl, rfl⟩

theorem witness_NotReadyOutsideReady :
    Instr.setCursor 0 9 ≠ .init ∧ (failedBlock []).phase ≠ .ready ∧ State.reset.phase ≠ .ready := by decide

theorem witness_PulseIsTwoWritesAndTwoHolds :
    (ready (oks 2 [])).okFor (p 0x2C 0x28) ∧ (cutBlock 2 (oks 2 [])).okFor (p 0x2C 0x28) ∧
    (ready [.err]).failsAt 0 (p 0x2C 0x28) ∧ (ready [.ok, .err]).failsAt 1 (p 0x2C 0x28) := by decide

theorem witness_SendByteIsTwoPulsesHighNibbleFirst :
    (ready (oks 4 [])).okFor (commandEvents (ready []) 0x01) ∧ (ready [.err]).failsAt 0 (commandEvents (ready []) 0x01) ∧
    (ready (oks 1 [.err])).failsAt 1 (commandEvents (ready []) 0x01) ∧ (ready (oks 2 [.err])).failsAt 2 (commandEvents (ready []) 0x01) ∧
    (ready (oks 3 [.err])).failsAt 3 (commandEvents (ready []) 0x01) := by decide

theorem witness_RawNibbleIsOnePulse : (ready (oks 2 [])).cfg = Config.defaults ∧
    (ready (oks 2 [])).okFor (p 0x3C 0x38) := by decide

/-- INIT all `Ok`, and failing at its first and last write and on both sides of each register it stores; the opcode. -/
theorem witness_InitSequence :
    opField 0x00FFFF = 0x00 ∧ (failedBlock (oks 24 [])).cfg = Config.defaults ∧
    (failedBlock (oks 24 [])).okFor (initEvents (ready [])) ∧ (ready [.err]).failsAt 0 (initEvents (ready [])) ∧
    (ready (oks 7 [.err])).failsAt 7 (initEvents (ready [])) ∧ (ready (oks 8 [.err])).failsAt 8 (initEvents (ready [])) ∧
    (ready (oks 11 [.err])).failsAt 11 (initEvents (ready [])) ∧ (ready (oks 12 [.err])).failsAt 12 (initEvents (ready [])) ∧
    (ready (oks 15 [.err])).failsAt 15 (initEvents (ready [])) ∧ (ready (oks 16 [.err])).failsAt 16 (initEvents (ready [])) ∧
    (ready (oks 23 [.err])).failsAt 23 (initEvents (ready [])) := by decide

/-- Both clauses, at the first and the last write and delay and on both sides of each register stored. -/
theorem witness_InitStoppedPartWay :
    (ready [.never]).hangsAt 0 (initEvents (ready [])) ∧ (ready (oks 7 [.never])).hangsAt 7 (initEvents (ready [])) ∧
    (ready (oks 8 [.never])).hangsAt 8 (initEvents (ready [])) ∧ (ready (oks 23 [.never])).hangsAt 23 (initEvents (ready [])) ∧
    (cutBlock 0 (oks 24 [])).cutAt 0 0x3F (initEvents (ready [])) ∧ (cutBlock 10 (oks 24 [])).cutAt 10 0x3F (initEvents (ready [])) ∧
    (cutBlock 11 (oks 24 [])).cutAt 11 0x3F (initEvents (ready [])) ∧ (cutBlock 14 (oks 24 [])).cutAt 14 0x3F (initEvents (ready [])) ∧
    (cutBlock 15 (oks 24 [])).cutAt 15 0x3F (initEvents (ready [])) ∧ (cutBlock 18 (oks 24 [])).cutAt 18 0x3F (initEvents (ready [])) ∧
    (cutBlock 19 (oks 24 [])).cutAt 19 0x3F (initEvents (ready [])) ∧ (cutBlock 27 (oks 24 [])).cutAt 27 0x3F (initEvents (ready [])) := 
  ⟨by decide, by decide, by decide, by decide, by decide, by decide, by decide, by decide, by decide, by decide, by decide, by decide⟩

/-- The registers at those boundaries, for a wait (R100's thresholds) and for a cut. -/
theorem test_init_stopped_registers :
    ([7, 8, 11, 12, 15, 16].map fun k => (shown (exec .init (block 0x0F 0x05 true (oks k [.never])))).map fun r => r.mirrors) =
      [some [0x28, 0x0F, 0x05], some [0x28, 0x0F, 0x05], some [0x28, 0x0F, 0x05], some [0x28, 0x0C, 0x05],
       some [0x28, 0x0C, 0x05], some [0x28, 0x0C, 0x06]] ∧
    ([14, 15, 18, 19].map fun j => (shown (exec .init { block 0x0F 0x05 true (oks 24 []) with
        delayResets := [(j, 0x3F)] })).map fun r => r.mirrors) =
      [some [0x28, 0x0F, 0x05], some [0x28, 0x0C, 0x05], some [0x28, 0x0C, 0x05], some [0x28, 0x0C, 0x06]] := by decide

/-- The hypotheses of every completion statement of four writes: ready and undisturbed, a reset landing just after the last
delay, failing at the first and at the last write, and not ready. -/
theorem witness_four_writes :
    (ready (oks 4 [])).cfg = Config.defaults ∧ (ready (oks 4 [])).phase = .ready ∧
    (ready (oks 4 [])).okFor (commandEvents (ready []) 0x01 ++ [.delay .clearHome]) ∧
    (cutBlock 5 (oks 4 [])).okFor (commandEvents (ready []) 0x01 ++ [.delay .clearHome]) ∧
    (ready [.err]).failsAt 0 (commandEvents (ready []) 0x01) ∧ (ready (oks 3 [.err])).failsAt 3 (commandEvents (ready []) 0x01) ∧
    (ready (oks 3 [.err])).failsAt 3 (dataEvents (ready []) 0x41) ∧ (failedBlock []).phase ≠ .ready := by decide

theorem witness_ClearAndHomeComplete : opField 0x010000 = 0x01 ∧ opField 0x02FF00 = 0x02 ∧
    (ready (oks 4 [])).phase = .ready ∧ (ready (oks 4 [])).okFor (commandEvents (ready []) 0x02 ++ [.delay .clearHome]) := by decide

theorem witness_ShiftsComplete : opField 0x200000 = 0x20 ∧ opField 0x210000 = 0x21 ∧ opField 0x220000 = 0x22 ∧
    opField 0x230000 = 0x23 ∧ (ready (oks 4 [])).phase = .ready ∧ (ready (oks 4 [])).okFor (commandEvents (ready []) 0x1C) := by decide

/-- The first and the last legal row, and the rows just outside and at the ends of the signed range. -/
theorem witness_SetCursorCompletes : opField 0x3007FF = 0x30 ∧
    ((0 : Byte), (0x00 : Byte)) ∈ ([(0, 0x00), (1, 0x40), (2, 0x14), (3, 0x54)] : List (Byte × Byte)) ∧
    ((3 : Byte), (0x54 : Byte)) ∈ ([(0, 0x00), (1, 0x40), (2, 0x14), (3, 0x54)] : List (Byte × Byte)) ∧
    4 ≤ (4 : Byte).toInt ∧ 4 ≤ (0x7F : Byte).toInt ∧ (0xFF : Byte).toInt < 0 ∧ (0x80 : Byte).toInt < 0 ∧
    (ready (oks 4 [])).phase = .ready ∧ (ready (oks 4 [])).okFor (commandEvents (ready []) 0xD4) := by decide

/-- Row 0 and row 3, and the sum on both sides of 0x7F. -/
theorem witness_SetCursorByteAsNumber : rowWf 0 = true ∧ rowWf 3 = true ∧
    (0x7F : Byte).toNat + (rowBase 0).toNat ≤ 0x7F ∧ (0x2B : Byte).toNat + (rowBase 3).toNat ≤ 0x7F ∧
    ¬ (0x2C : Byte).toNat + (rowBase 3).toNat ≤ 0x7F := by decide

theorem witness_SendCommandCompletes : opField 0x50C000 = 0x50 ∧ (ready (oks 4 [])).phase = .ready ∧
    (ready (oks 4 [])).okFor (commandEvents (ready []) 0xC0) := by decide

theorem witness_SendDataCompletes : opField 0x514100 = 0x51 ∧ (ready (oks 4 [])).phase = .ready ∧
    (ready (oks 4 [])).okFor (dataEvents (ready []) 0x41) := by decide

theorem witness_ToggleAfterRawCommandSendsMirror : (ready (oks 8 [])).cfg = Config.defaults ∧
    (ready (oks 8 [])).phase = .ready ∧
    (ready (oks 8 [])).okFor (commandEvents (ready (oks 8 [])) 0x0F ++ planned .displayOff (ready (oks 8 []))) ∧
    Instr.displayOff ∈ ([.displayOn, .displayOff, .cursorOn, .cursorOff, .blinkOn, .blinkOff, .leftToRight, .rightToLeft,
      .autoscrollOn, .autoscrollOff] : List Instr) := by decide

/-- DC18 and then DISPLAY_OFF: the toggle works on the mirror 0x0C. -/
theorem test_displayOff_after_raw_dc18 :
    (match exec (.sendCommand 0x0F) (ready (oks 8 [])) with
      | .next t => shown (exec .displayOff t)
      | .fault _ => none
      | .refused _ => none) =
    some ⟨p 0x0C 0x08 ++ p 0xFC 0xF8 ++ p 0x0C 0x08 ++ p 0x8C 0x88, [.ok, .ok], [0x28, 0x08, 0x06], true, .ready⟩ := by
  decide

theorem witness_DisplayControlTogglesComplete : opField 0x100000 = 0x10 ∧ opField 0x110000 = 0x11 ∧
    opField 0x120000 = 0x12 ∧ opField 0x130000 = 0x13 ∧ opField 0x140000 = 0x14 ∧ opField 0x150000 = 0x15 ∧
    (block 0x0F 0x06 true (oks 4 [])).phase = .ready ∧ (block 0x0F 0x06 true (oks 4 [])).okFor (commandEvents (ready []) 0x0B) := by decide

theorem witness_EntryModeTogglesComplete : opField 0x160000 = 0x16 ∧ opField 0x170000 = 0x17 ∧
    opField 0x180000 = 0x18 ∧ opField 0x190000 = 0x19 ∧
    (block 0x0C 0x05 true (oks 4 [])).phase = .ready ∧ (block 0x0C 0x05 true (oks 4 [])).okFor (commandEvents (ready []) 0x04) := by decide

theorem witness_BacklightOperationsComplete : opField 0x1A0000 = 0x1A ∧ opField 0x1B0000 = 0x1B ∧
    (block 0x0C 0x06 false (oks 4 [])).phase = .ready ∧ (block 0x0C 0x06 false (oks 4 [])).okFor (p 0x0C 0x08 ++ p 0x0C 0x08) := by decide

/-- Failing at the first and at the last write, and the retry undisturbed. -/
theorem witness_FailedToggleKeepsRegisterAndRetries :
    (ready ([.err] ++ oks 4 [])).failsAt 0 (planned .backlightOff (ready [])) ∧
    (ready (oks 3 [.err] ++ oks 4 [])).failsAt 3 (planned .backlightOff (ready [])) ∧
    (ready (oks 4 [])).okFor (planned .backlightOff (ready [])) ∧
    Instr.backlightOff ∈ ([.displayOn, .displayOff, .cursorOn, .cursorOff, .blinkOn, .blinkOff, .leftToRight, .rightToLeft,
      .autoscrollOn, .autoscrollOff, .backlightOn, .backlightOff] : List Instr) ∧
    (ready ([.err] ++ oks 4 [])).phase = .ready ∧ (ready ([.err] ++ oks 4 [])).cfg = Config.defaults := by decide

/-- From the cursor bit clear and from the cursor bit set. -/
theorem witness_CursorRoundTrip : (ready (oks 8 [])).phase = .ready ∧
    (ready (oks 8 [])).okFor (planned .cursorOn (ready []) ++ planned .cursorOff (stored .cursorOn (ready []))) ∧
    (ready (oks 8 [])).displayControl &&& 0x02 = 0 ∧ (block 0x0E 0x06 true (oks 8 [])).displayControl &&& 0x02 ≠ 0 := by
  decide

theorem witness_ToggleChangesAtMostItsBit :
    ((ready (oks 2 [.err])).cfg = Config.defaults ∧ (∃ t, exec .cursorOn (ready (oks 2 [.err])) = .next t) ∧
      (Instr.cursorOn, (0x02 : Byte), (0 : Byte)) ∈ ([(.displayOn, 0x04, 0), (.displayOff, 0x04, 0), (.cursorOn, 0x02, 0),
        (.cursorOff, 0x02, 0), (.blinkOn, 0x01, 0), (.blinkOff, 0x01, 0), (.leftToRight, 0, 0x02), (.rightToLeft, 0, 0x02),
        (.autoscrollOn, 0, 0x01), (.autoscrollOff, 0, 0x01)] : List (Instr × Byte × Byte))) ∧
    ∃ t, exec .autoscrollOff (failedBlock []) = .next t := ⟨⟨rfl, ⟨_, rfl⟩, by decide⟩, _, rfl⟩

/-- A text of two characters, undisturbed, failing at its first and last write, and the empty text. -/
theorem witness_WriteCompletes : opField 0x40FFFF = 0x40 ∧ (ready (oks 8 [])).okFor (textEvents (ready []) [0x41, 0x42]) ∧
    (ready []).okFor (textEvents (ready []) []) ∧ (ready [.err]).failsAt 0 (textEvents (ready []) [0x41, 0x42]) ∧ (ready (oks 7 [.err])).failsAt 7 (textEvents (ready []) [0x41, 0x42]) ∧
    (ready (oks 8 [])).phase = .ready ∧ (failedBlock []).phase ≠ .ready := by decide

/-- Both lines, and the values beside them and at the ends of the signed range. -/
theorem witness_WritelnCompletes : opField 0x4101FF = 0x41 ∧
    ((0 : Byte), (0x80 : Byte)) ∈ ([(0, 0x80), (1, 0xC0)] : List (Byte × Byte)) ∧
    ((1 : Byte), (0xC0 : Byte)) ∈ ([(0, 0x80), (1, 0xC0)] : List (Byte × Byte)) ∧
    (ready (oks 12 [])).okFor (commandEvents (ready []) 0xC0 ++ textEvents (ready []) [0x41, 0x42]) ∧
    (ready (oks 11 [.err])).failsAt 11 (commandEvents (ready []) 0xC0 ++ textEvents (ready []) [0x41, 0x42]) ∧
    (2 : Byte).toInt ≠ 0 ∧ (2 : Byte).toInt ≠ 1 ∧ (0xFF : Byte).toInt ≠ 0 ∧ (0xFF : Byte).toInt ≠ 1 ∧
    (0x7F : Byte).toInt ≠ 0 ∧ (0x80 : Byte).toInt ≠ 1 ∧ (ready (oks 12 [])).phase = .ready := by decide

/-- The second character failing at its first and at its last write; the first one failing. -/
theorem witness_FailedWriteSendsNoLaterCharacter :
    (ready (oks 4 [.err])).failsAt (4 * [(0x41 : Byte)].length + 0) (textEvents (ready []) [0x41, 0x42]) ∧
    (ready (oks 7 [.err])).failsAt (4 * [(0x41 : Byte)].length + 3) (textEvents (ready []) [0x41, 0x42]) ∧
    (ready [.err]).failsAt (4 * ([] : List Byte).length + 0) (textEvents (ready []) [0x41, 0x42]) ∧ (ready [.err]).phase = .ready ∧
    (ready [.err]).cfg = Config.defaults := by decide

theorem witness_WriteOfOneCharacterIsSendData : (ready []).phase = .ready := by decide

theorem witness_WritelnIsCommandThenWrite : (ready (oks 8 [])).cfg = Config.defaults ∧ (ready (oks 8 [])).phase = .ready ∧
    (ready (oks 8 [])).okFor (commandEvents (ready []) 0x80 ++ textEvents (ready []) [0x41]) := by decide

/-- All four clauses, at the first and at the last write and delay of a WRITELN of one character. -/
theorem witness_OperationIsPlannedTraceCutAtFirstFailure :
    Instr.writeln [0x41] 1 ≠ .init ∧ (Instr.writeln [0x41] 1).wf = true ∧
    (ready (oks 8 [])).okFor (planned (.writeln [0x41] 1) (ready [])) ∧ (ready [.err]).failsAt 0 (planned (.writeln [0x41] 1) (ready [])) ∧ (ready (oks 7 [.err])).failsAt 7 (planned (.writeln [0x41] 1) (ready [])) ∧
    (ready [.never]).hangsAt 0 (planned (.writeln [0x41] 1) (ready [])) ∧ (ready (oks 7 [.never])).hangsAt 7 (planned (.writeln [0x41] 1) (ready [])) ∧
    (cutBlock 0 [.ok]).cutAt 0 0x3F (planned (.writeln [0x41] 1) (ready [])) ∧ (cutBlock 7 (oks 8 [])).cutAt 7 0x3F (planned (.writeln [0x41] 1) (ready [])) := by decide

/-- Each clause: not ready, an illegal operand, undisturbed, and one `Err` among the answers. -/
theorem witness_EveryAnsweredOperationPostsOneStatus :
    (failedBlock (oks 4 [])).answeredFor (planned (.setCursor 0 9) (ready [])) ∧ (failedBlock (oks 4 [])).phase ≠ .ready ∧
    (ready (oks 4 [])).answeredFor (planned (.setCursor 0 9) (ready [])) ∧ (Instr.setCursor 0 9).wf = false ∧
    (failedBlock (oks 24 [])).okFor (planned .init (ready [])) ∧
    (ready (oks 23 [.err])).answeredFor (planned .init (ready [])) ∧
    ¬ (ready (oks 23 [.err])).okFor (planned .init (ready [])) ∧
    (ready (oks 3 [.err])).answeredFor (planned .clear (ready [])) ∧
    ¬ (ready (oks 3 [.err])).okFor (planned .clear (ready [])) :=
  ⟨.inl (by decide), by decide, .inl (by decide), by decide, by decide, .inr ⟨23, by decide⟩, by decide, .inr ⟨3, by decide⟩,
    by decide⟩

theorem witness_UnansweredWriteHangsOperation :
    (State.reset.phase ≠ .ready) ∧
    ({ State.reset with answers := oks 23 [.never] } : State).hangsAt 23 (planned .init State.reset) ∧
    (ready [.never]).hangsAt 0 (planned .clear (ready [])) ∧ (ready [.never]).phase = .ready ∧ Instr.clear.wf = true := by
  decide

/-- The first delay and the last one: of INIT in the boot, and of CLEAR. -/
theorem witness_ResetInDelayStopsOperation :
    ({ State.reset with answers := oks 24 [], delayResets := [(27, 0x3F)] } : State).cutAt 27 0x3F (planned .init State.reset) ∧
    (cutBlock 0 [.ok]).cutAt 0 0x3F (planned .clear (ready [])) ∧
    (cutBlock 4 (oks 4 [])).cutAt 4 0x3F (planned .clear (ready [])) ∧ (cutBlock 4 (oks 4 [])).phase = .ready := by decide

/-- EveryByteCarriesBacklightAndNoRead, OperationTraceIsMadeOfPulses, RegistersAreWrittenOnlyByTheirOperations,
OnlyTheAddressedLatchChanges: an operation that sends, one that fails, one that hangs and one that a reset cuts. -/
theorem witness_exec_answers : (∃ t, exec .clear (cutBlock 4 (oks 4 [])) = .next t) ∧ (∃ t, exec (.sendData 0x41) (ready (oks 4 [])) = .next t) ∧
    (∃ t, exec .backlightOff (ready (oks 1 [.err])) = .next t) ∧
    (∃ t, exec .init { State.reset with answers := oks 9 [.never] } = .next t) ∧
    (ready []).cfg = Config.defaults ∧ (0x20 : Nat) ≠ (ready []).i2cAddr.toNat := ⟨⟨_, rfl⟩, ⟨_, rfl⟩, ⟨_, rfl⟩, ⟨_, rfl⟩, rfl, by decide⟩

/-- Each end of INIT: answered, failed, hung, cut. -/
theorem witness_InitPhaseFollowsStatus :
    (∃ t, exec .init (ready (oks 24 [])) = .next t ∧ t.phase = .ready) ∧
    (∃ t, exec .init (ready (oks 23 [.err])) = .next t ∧ t.phase = .failed) ∧
    (∃ t, exec .init (ready (oks 23 [.never])) = .next t ∧ t.phase = .uninit) ∧
    (∃ t, exec .init (cutBlock 27 (oks 24 [])) = .next t ∧ t.phase = .uninit) :=
  ⟨⟨_, rfl, by decide⟩, ⟨_, rfl, by decide⟩, ⟨_, rfl, by decide⟩, ⟨_, rfl, by decide⟩⟩

/-- OnlyTheAddressedLatchChanges, TransportWriteCounts, MinimumDelaySums: INIT in `Failed`, a WRITE in `Ready`, an empty
WRITE, and the refused requests of the last. -/
theorem witness_writes_of :
    (failedBlock (oks 24 [])).okFor (planned .init (ready [])) ∧
    (ready (oks 8 [])).okFor (planned (.write [0x41, 0x42]) (ready [])) ∧
    (ready []).okFor (planned (.write []) (ready [])) ∧ (Instr.write []).wf = true ∧ (ready []).phase = .ready ∧
    Instr.setCursor 0 4 ≠ .init ∧ (Instr.setCursor 0 4).wf = false ∧ (failedBlock []).phase ≠ .ready := by decide

theorem witness_ControllerLatchesNibblesHighFirst : (ready (oks 4 [])).phase = .ready ∧
    (ready (oks 4 [])).okFor (byteEvents (ready []) 0x41 true) ∧ (ready [.err]).failsAt 0 (byteEvents (ready []) 0x41 true) ∧
    (ready (oks 3 [.err])).failsAt 3 (byteEvents (ready []) 0x41 false) ∧
    (ready (oks 24 [])).okFor (initEvents (ready [])) ∧ (ready (oks 24 [])).cfg = Config.defaults := by decide

/-- The state INIT leaves, its trace and all: the mirrors reflect the last bytes sent; four more answers. -/
def afterInit : State := { ready (oks 4 []) with trace := initTraceOn }

theorem witness_MirrorsReflectLastByteSent : MirrorsReflectTrace afterInit ∧ afterInit.cfg = Config.defaults ∧
    afterInit.phase = .ready ∧ afterInit.okFor (planned .cursorOn afterInit) ∧
    (ready (oks 24 [])).okFor (initEvents (ready [])) ∧
    (∀ byte, Instr.cursorOn = .sendCommand byte →
      ofKind 0x08 byte = false ∧ ofKind 0x04 byte = false ∧ ofKind 0x20 byte = false) ∧
    ofKind 0x08 0x10 = false ∧ ofKind 0x04 0x03 = false ∧ ofKind 0x20 0x40 = false :=
  ⟨⟨[], initTraceOn, by decide⟩, rfl, rfl, by decide, by decide, fun _ h => (nomatch h), by decide, by decide, by decide⟩

theorem witness_StepOnlyAppends : (∃ t, step { ready (oks 4 []) with inputs := [.request ⟨0x010000, []⟩] } = .next t) ∧
    ({ ready (oks 4 []) with expander := [(0x27, 0x08)] } : State).expander.wf = true := ⟨⟨_, rfl⟩, by decide⟩

theorem witness_PinsAgreeWithTheirRecord : PinsAgree State.reset ∧
    PinsAgree { ready [] with expander := [(0x27, 0x08)], pinLog := [(0x27, 0x0C), (0x27, 0x08)] } ∧
    ∃ t, step { ready [] with expander := [(0x27, 0x08)], pinLog := [(0x27, 0x0C), (0x27, 0x08)] } = .next t :=
  ⟨by decide, by decide, _, rfl⟩

/-- The invariant holds of a booting block, of a ready one and of one waiting in the middle of INIT, and each takes a step. -/
theorem witness_StepKeepsInvariant :
    (Inv State.reset ∧ ∃ t, step State.reset = .next t) ∧ (Inv (ready []) ∧ ∃ t, step (ready []) = .next t) ∧
    (Inv { hungBlock [.reset 0x27] with phase := .uninit } ∧
      ∃ t, step { hungBlock [.reset 0x27] with phase := .uninit } = .next t) :=
  ⟨⟨by decide, _, rfl⟩, ⟨by decide, _, rfl⟩, ⟨by decide, _, rfl⟩⟩

/-- Two `Failed` blocks that differ in every mirror, and a `Ready` block and itself. -/
theorem witness_UnwrittenMirrorsAreUnobservable :
    sameButUnreadMirrors (failedBlock []) { failedBlock [] with displayControl := 1, entryMode := 2, functionSet := 3 } ∧
    sameButUnreadMirrors (ready []) (ready []) := by decide

theorem witness_DecodeFailsExactlyOnUnassigned : opField 0x510000 ∈ assignedOpcodes ∧ opField 0x520000 ∉ assignedOpcodes := by
  decide

/-- Each clause of the ignored fields: format N, format CR, formats T and TL. -/
theorem witness_IgnoredFieldsHaveNoEffect :
    opField 0x010203 = opField 0x01FFFF ∧ opField 0x010203 ∉ ([0x30, 0x41, 0x50, 0x51] : List Byte) ∧
    opField 0x300102 ∈ ([0x30, 0x41, 0x50, 0x51] : List Byte) ∧ aField 0x500102 = aField 0x5001FF ∧
    opField 0x410100 ∈ ([0x40, 0x41] : List Byte) ∧ opField 0x510100 ∉ ([0x40, 0x41] : List Byte) := by decide

end Sys2Proof.Tests
end

