-- ==== Sys2Proof/Proofs/Operations.lean ====
section
/-! What every operation does, for every setting of the parameters: how it is admitted (`exec_cases`), and what a piece of it
leaves unchanged when it has come to an end of any kind (`Progress`), for INIT too. -/

namespace Sys2Proof.Machine

/-! ## Admission -/

/-- What an operation stores in the block's registers before its first transport call; `stored` with the parameters of R6. -/
def storing (i : Instr) (s : State) : State :=
  match i with
  | .displayOn => { s with displayControl := setFlag s.cfg.flagDisplayOn s.displayControl }
  | .displayOff => { s with displayControl := clearFlag s.cfg.flagDisplayOn s.displayControl }
  | .cursorOn => { s with displayControl := setFlag s.cfg.flagCursorOn s.displayControl }
  | .cursorOff => { s with displayControl := clearFlag s.cfg.flagCursorOn s.displayControl }
  | .blinkOn => { s with displayControl := setFlag s.cfg.flagBlinkOn s.displayControl }
  | .blinkOff => { s with displayControl := clearFlag s.cfg.flagBlinkOn s.displayControl }
  | .leftToRight => { s with entryMode := setFlag s.cfg.flagEntryLeft s.entryMode }
  | .rightToLeft => { s with entryMode := clearFlag s.cfg.flagEntryLeft s.entryMode }
  | .autoscrollOn => { s with entryMode := setFlag s.cfg.flagEntryShiftInc s.entryMode }
  | .autoscrollOff => { s with entryMode := clearFlag s.cfg.flagEntryShiftInc s.entryMode }
  | .backlightOn => { s with backlightBit := true }
  | .backlightOff => { s with backlightBit := false }
  | .init | .clear | .home | .cursorMoveLeft | .cursorMoveRight | .displayMoveLeft | .displayMoveRight => s
  | .setCursor _ _ | .write _ | .writeln _ _ | .sendCommand _ | .sendData _ => s

theorem storing_defaults (i : Instr) {s : State} (hc : s.cfg = Config.defaults) : storing i s = stored i s := by
  cases i <;> simp only [storing, stored, hc] <;> rfl

/-- The operand checks as an operation makes them (R116, R151); `Instr.wf` with the parameters of R6. -/
def operandsLegal (c : Config) : Instr → Bool
  | .setCursor _ row => rowLegal c row
  | .writeln _ line => lineLegal line
  | _ => true

theorem operandsLegal_defaults (i : Instr) : operandsLegal Config.defaults i = i.wf := by
  cases i with
  | setCursor col row => exact rowLegal_defaults row
  | _ => rfl

/-- Outside `Ready` every operation but INIT is refused (R165). -/
theorem exec_notReady {i : Instr} {s : State} (hi : i ≠ .init) (hp : s.phase ≠ .ready) :
    exec i s = .next (respond .notReady s) := by
  cases i with
  | init => exact absurd rfl hi
  | _ =>
    rw [exec]
    exact admitted_refused _ hp

/-- An operand out of range is refused in `Ready` (R116, R151). -/
theorem exec_illegal {i : Instr} {s : State} (hr : s.phase = .ready) (hl : operandsLegal s.cfg i = false) :
    exec i s = .next (respond .invalidArgument s) := by
  have hn : ¬ operandsLegal s.cfg i = true := by simp [hl]
  cases i with
  | setCursor col row =>
    rw [exec]
    exact (admitted_ready _ hr).trans (if_neg hn)
  | writeln text line =>
    rw [exec]
    exact (admitted_ready _ hr).trans (if_neg hn)
  | _ => exact absurd rfl hn

/-- Every admitted operation but INIT, its operands legal, is one run from where it has stored its register. -/
theorem exec_legal {i : Instr} {s : State} (hi : i ≠ .init) (hr : s.phase = .ready)
    (hl : operandsLegal s.cfg i = true) :
    exec i s = endOperation (run (microsOf i (storing i s)) (storing i s)) := by
  cases i with
  | init => exact absurd rfl hi
  | clear | home =>
    rw [exec]
    exact (admitted_ready _ hr).trans (directCommand_eq_run _ _ _)
  | displayOff | displayOn | cursorOff | cursorOn | blinkOff | blinkOn | rightToLeft | leftToRight | autoscrollOff
  | autoscrollOn | backlightOff | backlightOn =>
    rw [exec]
    exact (admitted_ready _ hr).trans (congrArg endOperation (sendCommand_eq_run _ _))
  | cursorMoveLeft | cursorMoveRight | displayMoveLeft | displayMoveRight | sendCommand byte =>
    rw [exec]
    exact (admitted_ready _ hr).trans (directCommand_eq_run_nil _ _)
  | setCursor col row =>
    rw [exec]
    exact (admitted_ready _ hr).trans ((if_pos hl).trans (directCommand_eq_run_nil _ _))
  | write text =>
    rw [exec]
    exact (admitted_ready _ hr).trans (congrArg endOperation (sendText_eq_run _ _))
  | writeln text line =>
    rw [exec, execWriteln, admitted_ready _ hr, if_pos (show lineLegal line = true from hl), sendCommand_eq_run,
      sendText_after_eq_run]
    rfl
  | sendData byte =>
    rw [exec]
    exact (admitted_ready _ hr).trans (congrArg endOperation (sendData_eq_run _ _))

/-- The three ways an operation other than INIT goes: refused by the phase, refused by its operands, or run (R166). -/
theorem exec_cases {i : Instr} (hi : i ≠ .init) (s : State) :
    (s.phase ≠ .ready ∧ exec i s = .next (respond .notReady s)) ∨
    (s.phase = .ready ∧ exec i s = .next (respond .invalidArgument s)) ∨
    (s.phase = .ready ∧ exec i s = endOperation (run (microsOf i (storing i s)) (storing i s))) := by
  by_cases hr : s.phase = .ready
  · cases hl : operandsLegal s.cfg i with
    | false => exact .inr (.inl ⟨hr, exec_illegal hr hl⟩)
    | true => exact .inr (.inr ⟨hr, exec_legal hi hr hl⟩)
  · exact .inl ⟨hr, exec_notReady hi hr⟩

/-! ## How an operation ends -/

/-- An operation other than INIT ends with a response, or stopped with none. -/
theorem endOperation_cases {r : Run} {t : State} (h : endOperation r = .next t) :
    (∃ st, t = respond st r.state) ∨ r = .stopped t := by
  cases r with
  | going u => exact .inl ⟨.ok, (Host.Outcome.next.inj h).symm⟩
  | failed u => exact .inl ⟨.transportError, (Host.Outcome.next.inj h).symm⟩
  | stopped u => exact .inr (congrArg Run.stopped (Host.Outcome.next.inj h))

/-! ## What a piece of an operation leaves unchanged -/

/-- What a piece of an operation begun in `s` has done when it has come to `r`, the mirror registers aside. Every byte it has
put on the bus, an outstanding one too, has `P`. -/
structure Progress (P : Byte → Prop) (s : State) (r : Run) : Prop where
  backlightBit : r.state.backlightBit = s.backlightBit
  phase : r.state.phase = s.phase
  i2cAddr : r.state.i2cAddr = s.i2cAddr
  cfg : r.state.cfg = s.cfg
  inputs : r.state.inputs = s.inputs
  responses : r.state.responses = s.responses
  expander : s.expander.wf = true → r.state.expander.wf = true
  trace : (∀ e ∈ s.trace, ∀ v ∈ e.byte, P v) → ∀ e ∈ r.state.trace, ∀ v ∈ e.byte, P v
  stopped : ∀ t, r = .stopped t → (∃ a v, P v ∧ t.sequencer = .waiting a v) ∨ ∃ a, t.sequencer = .resetting a

theorem progress_run {P : Byte → Prop} {ms : List Micro} (s : State) (hP : ∀ v, Micro.put v ∈ ms → P v) :
    Progress P s (run ms s) := by
  have hk := run_kept ms s
  refine ⟨hk.backlightBit, hk.phase, hk.i2cAddr, hk.cfg, hk.inputs, hk.responses, run_expander_wf ms s, ?_, ?_⟩
  · obtain ⟨evs, htrace, hevs⟩ := run_trace ms s
    intro h e he v hv
    rw [htrace, List.mem_append] at he
    exact he.elim (fun he => h e he v hv) fun he => hP v ((hevs e he).2 v hv)
  · intro t ht
    have hs := run_sequencer ms s
    rw [ht] at hs
    exact hs.imp_left fun ⟨v, hv, hw⟩ => ⟨s.i2cAddr, v, hP v hv, hw⟩

/-- Two pieces one after the other. -/
theorem Progress.andThen {P : Byte → Prop} {s : State} {r : Run} {f : State → Run} (h : Progress P s r)
    (hf : ∀ t, t.cfg = s.cfg → Progress P t (f t)) : Progress P s (r.andThen f) := by
  cases r with
  | going t =>
    have g := hf t h.cfg
    exact ⟨g.backlightBit.trans h.backlightBit, g.phase.trans h.phase, g.i2cAddr.trans h.i2cAddr, g.cfg.trans h.cfg,
      g.inputs.trans h.inputs, g.responses.trans h.responses, g.expander ∘ h.expander, g.trace ∘ h.trace, g.stopped⟩
  | failed t => exact h
  | stopped t => exact h

/-- A piece that begins by storing mirror registers. -/
theorem Progress.of_mirrors {P : Byte → Prop} {s : State} {r : Run} {d e f : Byte}
    (h : Progress P { s with displayControl := d, entryMode := e, functionSet := f } r) : Progress P s r :=
  ⟨h.backlightBit, h.phase, h.i2cAddr, h.cfg, h.inputs, h.responses, h.expander, h.trace, h.stopped⟩

/-! ## INIT -/

/-- INIT up to its end (R100). -/
def initRun (s : State) : Run := (bringUp { s with phase := .uninit }).andThen initCommands

theorem exec_init (s : State) : exec .init s = endInit (initRun s) := rfl

/-- INIT ends in `Ready`, in `Failed`, or stopped with no response. -/
theorem exec_init_cases {s t : State} (h : exec .init s = .next t) :
    (∃ u, initRun s = .going u ∧ t = respond .ok { u with phase := .ready }) ∨
    (∃ u, initRun s = .failed u ∧ t = respond .initializationFailure { u with phase := .failed }) ∨
    initRun s = .stopped t := by
  rw [exec_init] at h
  cases hr : initRun s with
  | going u =>
    rw [hr] at h
    exact .inl ⟨u, rfl, (Host.Outcome.next.inj h).symm⟩
  | failed u =>
    rw [hr] at h
    exact .inr (.inl ⟨u, rfl, (Host.Outcome.next.inj h).symm⟩)
  | stopped u =>
    rw [hr] at h
    exact .inr (.inr (congrArg Run.stopped (Host.Outcome.next.inj h)))

/-- Every byte that the nibble encoder makes with the parameters `c` has `P`. -/
structure EncodesOnly (P : Byte → Prop) (c : Config) : Prop where
  byte : ∀ (t : State) (v : Byte) (data : Bool) (w : Byte), t.cfg = c → Micro.put w ∈ byteMicros t v data → P w
  raw : ∀ (t : State) (n : Nibble) (w : Byte), t.cfg = c → Micro.put w ∈ pulseMicros t (rawPayload t.cfg n) → P w

theorem encodesOnly_true (c : Config) : EncodesOnly (fun _ => True) c :=
  ⟨fun _ _ _ _ _ _ => trivial, fun _ _ _ _ _ => trivial⟩

theorem microsOf_encodesOnly {P : Byte → Prop} {t : State} (h : EncodesOnly P t.cfg) (i : Instr) (w : Byte)
    (hw : Micro.put w ∈ microsOf i t) : P w := by
  have hb (v : Byte) (data : Bool) (hv : Micro.put w ∈ byteMicros t v data) : P w := h.byte t v data w rfl hv
  have hold (v : Byte) (d : DelayName) (hv : Micro.put w ∈ byteMicros t v false ++ [.hold d]) : P w :=
    hb v false ((List.mem_append.mp hv).resolve_right (by simp))
  have htext (text : List Byte) (hv : Micro.put w ∈ text.flatMap fun c => byteMicros t c true) : P w := by
    obtain ⟨c, -, hc⟩ := List.mem_flatMap.mp hv
    exact hb c true hc
  cases i with
  | init => exact absurd hw (by simp [microsOf])
  | clear | home => exact hold _ _ hw
  | write text => exact htext text hw
  | writeln text line => exact (List.mem_append.mp hw).elim (hb _ _) (htext text)
  | _ => exact hb _ _ hw

theorem bringUpMicros_encodesOnly {P : Byte → Prop} {t : State} (h : EncodesOnly P t.cfg) (w : Byte)
    (hw : Micro.put w ∈ bringUpMicros t) : P w := by
  simp only [bringUpMicros, List.mem_append, List.mem_singleton, reduceCtorEq, or_false] at hw
  obtain ((hw | hw) | hw) | hw := hw
  all_goals exact h.raw t _ w rfl hw

theorem progress_initRun {P : Byte → Prop} {s : State} (h : EncodesOnly P s.cfg) :
    Progress P { s with phase := .uninit } (initRun s) := by
  have command {t : State} (v : Byte) (ht : t.cfg = s.cfg) : Progress P t (run (byteMicros t v false) t) :=
    progress_run t fun w hw => h.byte t v false w ht hw
  rw [initRun, bringUp_eq_run]
  refine (progress_run _ (bringUpMicros_encodesOnly h)).andThen fun t ht => ?_
  rw [initCommands_eq_runs]
  have hstep1 := (command (t := { t with functionSet := initFunctionSet t.cfg }) (initFunctionSet t.cfg) ht).of_mirrors
  refine ((((hstep1.andThen fun u hu => ?_).andThen fun u hu => ?_).andThen fun u hu => ?_).andThen fun u _ => ?_)
  · exact (command (t := { u with displayControl := initDisplayControl u.cfg }) (initDisplayControl u.cfg)
      (hu.trans ht)).of_mirrors
  · exact (command (t := { u with entryMode := initEntryMode u.cfg }) (initEntryMode u.cfg) (hu.trans ht)).of_mirrors
  · exact command _ (hu.trans ht)
  · exact progress_run u (by simp)

theorem andThen_eq_going {r : Run} {f : State → Run} {t : State} :
    r.andThen f = .going t ↔ ∃ u, r = .going u ∧ f u = .going t := by
  cases r <;> simp

/-- An INIT that comes to its end has stored the three mirrors. -/
theorem initRun_going {s t : State} (h : initRun s = .going t) :
    t.functionSet = initFunctionSet s.cfg ∧ t.displayControl = initDisplayControl s.cfg ∧
      t.entryMode = initEntryMode s.cfg := by
  rw [initRun, bringUp_eq_run] at h
  obtain ⟨s₁, h₁, h⟩ := andThen_eq_going.mp h
  simp only [initCommands_eq_runs, andThen_eq_going] at h
  obtain ⟨s₅, ⟨s₄, ⟨s₃, ⟨s₂, h₂, h₃⟩, h₄⟩, h₅⟩, h₆⟩ := h
  have k₁ := kept_of_run_going h₁
  have k₂ := kept_of_run_going h₂
  have k₃ := kept_of_run_going h₃
  have k₄ := kept_of_run_going h₄
  have k₅ := (kept_of_run_going h₅).trans (kept_of_run_going h₆)
  have c₂ : s₂.cfg = s.cfg := k₂.cfg.trans k₁.cfg
  have c₃ : s₃.cfg = s.cfg := k₃.cfg.trans c₂
  refine ⟨?_, ?_, ?_⟩
  · rw [k₅.functionSet, k₄.functionSet, k₃.functionSet, k₂.functionSet, k₁.cfg]
  · rw [k₅.displayControl, k₄.displayControl, k₃.displayControl, c₂]
  · rw [k₅.entryMode, k₄.entryMode, c₃]

end Sys2Proof.Machine
end

