-- ==== Sys2Proof/Proofs/RegisterWrites.lean ====
section
/-! Which operations may change which register (10_state.md R10, R19). -/

namespace Sys2Proof.Machine

section
variable {i : Instr} {s : State}

theorem storing_displayControl (h : i ∉ [.init, .displayOn, .displayOff, .cursorOn, .cursorOff, .blinkOn, .blinkOff]) :
    (storing i s).displayControl = s.displayControl := by
  cases i <;> simp [storing] at h ⊢

theorem storing_entryMode (h : i ∉ [.init, .leftToRight, .rightToLeft, .autoscrollOn, .autoscrollOff]) :
    (storing i s).entryMode = s.entryMode := by
  cases i <;> simp [storing] at h ⊢

theorem storing_backlightBit (h : i ∉ [.backlightOn, .backlightOff]) :
    (storing i s).backlightBit = s.backlightBit := by
  cases i <;> simp [storing] at h ⊢

variable (i s)

@[simp] theorem storing_functionSet : (storing i s).functionSet = s.functionSet := by cases i <;> rfl
@[simp] theorem storing_phase : (storing i s).phase = s.phase := by cases i <;> rfl
@[simp] theorem storing_i2cAddr : (storing i s).i2cAddr = s.i2cAddr := by cases i <;> rfl
@[simp] theorem storing_cfg : (storing i s).cfg = s.cfg := by cases i <;> rfl
@[simp] theorem storing_inputs : (storing i s).inputs = s.inputs := by cases i <;> rfl
@[simp] theorem storing_sequencer : (storing i s).sequencer = s.sequencer := by cases i <;> rfl
@[simp] theorem storing_expander : (storing i s).expander = s.expander := by cases i <;> rfl
@[simp] theorem storing_trace : (storing i s).trace = s.trace := by cases i <;> rfl

end

/-- The registers that `i` does not own are the same in `t` as in `s` (R10's "written by" column). -/
structure OnlyOwnWritten (i : Instr) (s t : State) : Prop where
  displayControl : i ∉ [.init, .displayOn, .displayOff, .cursorOn, .cursorOff, .blinkOn, .blinkOff] →
    t.displayControl = s.displayControl
  entryMode : i ∉ [.init, .leftToRight, .rightToLeft, .autoscrollOn, .autoscrollOff] → t.entryMode = s.entryMode
  functionSet_phase : i ≠ .init → t.functionSet = s.functionSet ∧ t.phase = s.phase
  backlightBit : i ∉ [.backlightOn, .backlightOff] → t.backlightBit = s.backlightBit
  fixed : t.i2cAddr = s.i2cAddr ∧ t.cfg = s.cfg ∧ t.inputs = s.inputs

theorem onlyOwnWritten_storing (i : Instr) (s : State) : OnlyOwnWritten i s (storing i s) :=
  ⟨storing_displayControl, storing_entryMode, fun _ => ⟨storing_functionSet i s, storing_phase i s⟩,
    storing_backlightBit, storing_i2cAddr i s, storing_cfg i s, storing_inputs i s⟩

/-- A run after it writes no register more. -/
theorem OnlyOwnWritten.kept {i : Instr} {s t u : State} (h : OnlyOwnWritten i s t) (hk : Kept t u) :
    OnlyOwnWritten i s u :=
  ⟨fun hi => hk.displayControl.trans (h.displayControl hi), fun hi => hk.entryMode.trans (h.entryMode hi),
    fun hi => (h.functionSet_phase hi).imp hk.functionSet.trans hk.phase.trans,
    fun hi => hk.backlightBit.trans (h.backlightBit hi),
    h.fixed.imp hk.i2cAddr.trans (And.imp hk.cfg.trans hk.inputs.trans)⟩

theorem OnlyOwnWritten.respond {i : Instr} {s t : State} (h : OnlyOwnWritten i s t) (st : Status) :
    OnlyOwnWritten i s (respond st t) :=
  ⟨h.displayControl, h.entryMode, h.functionSet_phase, h.backlightBit, h.fixed⟩

theorem onlyOwnWritten_refl (i : Instr) (s : State) : OnlyOwnWritten i s s :=
  ⟨fun _ => rfl, fun _ => rfl, fun _ => ⟨rfl, rfl⟩, fun _ => rfl, rfl, rfl, rfl⟩

/-- INIT keeps what `Progress` says: all but the mirrors and the phase. -/
theorem exec_init_onlyOwnWritten {s t : State} (h : exec .init s = .next t) : OnlyOwnWritten .init s t := by
  have hp := progress_initRun (encodesOnly_true s.cfg)
  have kept {u : State} (hbl : u.backlightBit = s.backlightBit)
      (hfixed : u.i2cAddr = s.i2cAddr ∧ u.cfg = s.cfg ∧ u.inputs = s.inputs) : OnlyOwnWritten .init s u :=
    ⟨fun hi => absurd List.mem_cons_self hi, fun hi => absurd List.mem_cons_self hi, fun hi => absurd rfl hi,
      fun _ => hbl, hfixed⟩
  obtain ⟨u, hr, rfl⟩ | ⟨u, hr, rfl⟩ | hr := exec_init_cases h <;> rw [hr] at hp
  all_goals exact kept hp.backlightBit ⟨hp.i2cAddr, hp.cfg, hp.inputs⟩

theorem exec_onlyOwnWritten {i : Instr} {s t : State} (h : exec i s = .next t) : OnlyOwnWritten i s t := by
  by_cases hi : i = .init
  · subst hi
    exact exec_init_onlyOwnWritten h
  obtain ⟨-, he⟩ | ⟨-, he⟩ | ⟨-, he⟩ := exec_cases hi s <;> rw [he] at h
  · obtain rfl := Host.Outcome.next.inj h
    exact (onlyOwnWritten_refl i s).respond _
  · obtain rfl := Host.Outcome.next.inj h
    exact (onlyOwnWritten_refl i s).respond _
  · have hk := (onlyOwnWritten_storing i s).kept (run_kept (microsOf i (storing i s)) (storing i s))
    obtain ⟨st, rfl⟩ | hr := endOperation_cases h
    · exact hk.respond st
    · rwa [hr] at hk

/-- Settles O39: every operation stores at most its own register (`storing`) and then only runs lines, which touch none; INIT
keeps all but the mirrors and the phase. -/
theorem registersAreWrittenOnlyByTheirOperations : Obligations.RegistersAreWrittenOnlyByTheirOperations := by
  intro i s t h
  obtain ⟨hdc, hem, hfs, hbl, hfixed⟩ := exec_onlyOwnWritten h
  exact ⟨hdc, hem, hfs, hbl, hfixed⟩

/-- Settles O40: the three ends of INIT, up to which it has posted nothing and stays `Uninit` (`progress_initRun`). -/
theorem initPhaseFollowsStatus : Obligations.InitPhaseFollowsStatus := by
  intro s t h
  have hp := progress_initRun (encodesOnly_true s.cfg)
  obtain ⟨u, hr, rfl⟩ | ⟨u, hr, rfl⟩ | hr := exec_init_cases h <;> rw [hr] at hp
  · exact .inl ⟨rfl, congrArg (fun l : List Status => l ++ [Status.ok]) hp.responses, rfl⟩
  · exact .inr (.inl ⟨rfl, congrArg (fun l : List Status => l ++ [Status.initializationFailure]) hp.responses, rfl⟩)
  · refine .inr (.inr ⟨hp.phase, hp.responses, ?_⟩)
    obtain ⟨a, v, -, hs⟩ | ⟨a, hs⟩ := hp.stopped t rfl <;> simp [State.reqReady, hs]

end Sys2Proof.Machine
end

