-- ==== Sys2Proof/Proofs/Steps.lean ====
section
/-! What a step does, one equation for each place where the sequencer may stand (60_exceptions.md R173, R175;
70_reset_and_hazards.md R190, R191, R208). -/

namespace Sys2Proof.Machine

section
variable {s : State}

theorem step_boot (h : s.sequencer = .boot) : step s = exec .init s := by
  simp [step, fetch, h]

theorem step_waiting {a : I2cAddr} {v : Byte} (h : s.sequencer = .waiting a v) : step s = hungStep s := by
  simp [step, fetch, h]

theorem step_resetting {a : I2cAddr} (h : s.sequencer = .resetting a) : step s = .next (applyReset a s) := by
  simp [step, fetch, h]

theorem step_idle (h : s.sequencer = .idle) (hi : s.inputs = []) : step s = .next s := by
  simp [step, fetch, h, hi]

theorem step_idle_reset {a : I2cAddr} {rest : List Input} (h : s.sequencer = .idle) (hi : s.inputs = .reset a :: rest) :
    step s = .next (applyReset a { s with inputs := rest }) := by
  simp [step, fetch, h, hi]

theorem step_idle_request {r : Request} {i : Instr} {rest : List Input} (h : s.sequencer = .idle)
    (hi : s.inputs = .request r :: rest) (hd : decode r = .ok i) : step s = exec i { s with inputs := rest } := by
  simp [step, fetch, h, hi, hd]

theorem step_idle_illegal {r : Request} {e : DecodeError} {rest : List Input} (h : s.sequencer = .idle)
    (hi : s.inputs = .request r :: rest) (hd : decode r = .error e) :
    step s = .next (respond .invalidArgument { s with inputs := rest }) := by
  simp [step, fetch, h, hi, hd, rejectIllegal, raise]

end

end Sys2Proof.Machine
end

