-- ==== Sys2Proof/Proofs/SafeBlock.lean ====
section
/-! The invariant of a safe block (`Inv`) is kept by every step. The parts that hold in the middle of an operation too are
`Sound`; the mirrors are legal in `Ready` because each toggle keeps its own legal (`legalMirrors_storing`) and INIT stores legal
ones (`initRun_going`). -/

namespace Sys2Proof.Machine

/-! ## Bytes with `PIN_RW` clear (R35) -/

/-- The read/write pin's bit is clear, with R6's `PIN_RW`. -/
abbrev RwClear (v : Byte) : Prop := v &&& 0x02 = 0

theorem rwClear_or {x y : Byte} (hx : RwClear x) (hy : RwClear y) : RwClear (x ||| y) := by
  rw [RwClear, BitVec.and_comm, BitVec.and_or_distrib_left, BitVec.and_comm _ x, BitVec.and_comm _ y, hx, hy]
  rfl

theorem rwClear_and {x : Byte} (hx : RwClear x) (y : Byte) : RwClear (x &&& y) := by
  rw [RwClear, BitVec.and_assoc, BitVec.and_comm y, ← BitVec.and_assoc, hx]
  exact BitVec.zero_and

/-- The data pins alone. -/
theorem rwClear_masked (x : Byte) : RwClear (x &&& 0xF0) := by
  rw [BitVec.and_comm]
  exact rwClear_and (by decide) x

theorem pulseMicros_rwClear {t : State} {p w : Byte} (hc : t.cfg = Config.defaults) (hp : RwClear p)
    (hw : Micro.put w ∈ pulseMicros t p) : RwClear w := by
  have hcomposed : RwClear (compose p t) := by
    refine rwClear_or hp ?_
    rw [State.bl, hc]
    split <;> decide
  simp only [pulseMicros, hc, List.mem_cons, Micro.put.injEq, reduceCtorEq, List.not_mem_nil, or_false, false_or] at hw
  obtain rfl | rfl := hw
  · exact rwClear_or hcomposed (by decide)
  · exact rwClear_and hcomposed _

/-- With R6's parameters the nibble encoder never sets the read/write pin. -/
theorem encodesOnly_rwClear : EncodesOnly RwClear Config.defaults where
  byte t v data w hc hw := by
    have hmode : RwClear (modeBits t.cfg data) := by
      rw [hc]
      cases data <;> decide
    have hpayload (x : Byte) : RwClear ((x &&& t.cfg.dataMask) ||| modeBits t.cfg data) :=
      rwClear_or (by rw [hc]; exact rwClear_masked x) hmode
    exact (List.mem_append.mp hw).elim (pulseMicros_rwClear hc (hpayload v)) (pulseMicros_rwClear hc (hpayload (v <<< 4)))
  raw t n w hc hw := pulseMicros_rwClear hc (by rw [rawPayload, hc]; exact rwClear_masked _) hw

/-! ## The parts of the invariant -/

/-- What holds of a safe block in the middle of an operation too: R6's parameters, the canonical form of the address space,
every byte written with `PIN_RW` clear. -/
structure Sound (s : State) : Prop where
  cfg : s.cfg = Config.defaults
  expander : s.expander.wf = true
  trace : ∀ e ∈ s.trace, ∀ v ∈ e.byte, RwClear v

/-- The mirror registers hold legal command bytes of their kinds (R15, R16, R17). -/
def LegalMirrors (s : State) : Prop :=
  displayControlLegal s.displayControl ∧ entryModeLegal s.entryMode ∧ s.functionSet = 0x28

theorem Inv.sound {s : State} (h : Inv s) : Sound s := by
  obtain ⟨hcfg, hwf, -, -, -, htrace, -⟩ := h
  exact ⟨hcfg, hwf, htrace⟩

theorem Inv.legalMirrors {s : State} (h : Inv s) (hr : s.phase = .ready) : LegalMirrors s := by
  obtain ⟨-, -, hmirrors, -⟩ := h
  exact hmirrors hr

/-- A block that takes requests has left `Uninit` (R165, R191). -/
theorem Inv.phase_of_idle {s : State} (h : Inv s) (hs : s.sequencer = .idle) : s.phase ≠ .uninit := by
  obtain ⟨-, -, -, huninit, -, -, -⟩ := h
  intro hp
  have := huninit hp
  simp [State.reqReady, hs] at this

/-- The invariant of a block that takes requests. -/
theorem inv_of_idle {s : State} (h : Sound s) (hs : s.sequencer = .idle) (hp : s.phase ≠ .uninit)
    (hm : s.phase = .ready → LegalMirrors s) : Inv s :=
  ⟨h.cfg, h.expander, hm, fun hu => absurd hu hp, by simp [hs], h.trace, by simp [State.twData, hs]⟩

/-- The invariant of a block whose operation was stopped with no response. -/
theorem inv_of_stopped {s : State} (h : Sound s)
    (hs : (∃ a v, RwClear v ∧ s.sequencer = .waiting a v) ∨ ∃ a, s.sequencer = .resetting a)
    (hm : s.phase = .ready → LegalMirrors s) : Inv s := by
  obtain ⟨a, v, hv, hs⟩ | ⟨a, hs⟩ := hs
  · exact ⟨h.cfg, h.expander, hm, by simp [State.reqReady, hs], by simp [hs], h.trace,
      by simpa [State.twData, hs, RwClear] using hv⟩
  · exact ⟨h.cfg, h.expander, hm, by simp [State.reqReady, hs], by simp [hs], h.trace, by simp [State.twData, hs]⟩

/-- A reset brings a block to the invariant whatever its registers held (R190). -/
theorem inv_applyReset {s : State} (h : Sound s) (a : I2cAddr) : Inv (applyReset a s) :=
  ⟨h.cfg, h.expander, by simp, by simp [State.reqReady], by simp, h.trace, by simp [State.twData]⟩

theorem Progress.sound {s : State} {r : Run} (h : Progress RwClear s r) (hs : Sound s) : Sound r.state :=
  ⟨h.cfg.trans hs.cfg, h.expander hs.expander, h.trace hs.trace⟩

/-! ## Operations keep it -/

/-- INIT brings a block to the invariant from any registers and any phase. -/
theorem exec_init_inv {s t : State} (h : Sound s) (ht : exec .init s = .next t) : Inv t := by
  have hp : Progress RwClear _ (initRun s) := progress_initRun (h.cfg ▸ encodesOnly_rwClear)
  have hsound := hp.sound ⟨h.cfg, h.expander, h.trace⟩
  obtain ⟨u, hr, rfl⟩ | ⟨u, hr, rfl⟩ | hr := exec_init_cases ht
  · obtain ⟨hfs, hdc, hem⟩ := initRun_going hr
    rw [hr] at hsound
    refine inv_of_idle ⟨hsound.cfg, hsound.expander, hsound.trace⟩ rfl (by simp) fun _ => ?_
    simp only [LegalMirrors, respond_displayControl, respond_entryMode, respond_functionSet, hfs, hdc, hem, h.cfg]
    decide
  · rw [hr] at hsound
    exact inv_of_idle ⟨hsound.cfg, hsound.expander, hsound.trace⟩ rfl (by simp) (by simp)
  · rw [hr] at hsound hp
    refine inv_of_stopped hsound (hp.stopped t rfl) fun hready => ?_
    exact absurd (hp.phase.symm.trans hready) (by simp)

theorem toggled_displayControlLegal : ∀ v : Byte, displayControlLegal v →
    (displayControlLegal (v ||| 0x04) ∧ displayControlLegal (v &&& 0xFB)) ∧
    (displayControlLegal (v ||| 0x02) ∧ displayControlLegal (v &&& 0xFD)) ∧
    displayControlLegal (v ||| 0x01) ∧ displayControlLegal (v &&& 0xFE) := by decide

theorem toggled_entryModeLegal : ∀ v : Byte, entryModeLegal v →
    (entryModeLegal (v ||| 0x02) ∧ entryModeLegal (v &&& 0xFD)) ∧
    entryModeLegal (v ||| 0x01) ∧ entryModeLegal (v &&& 0xFE) := by decide

/-- What an operation stores before it transmits is legal where the mirrors were. -/
theorem legalMirrors_stored {s : State} (h : LegalMirrors s) (i : Instr) : LegalMirrors (stored i s) := by
  obtain ⟨hdc, hem, hfs⟩ := h
  obtain ⟨⟨hd, hd'⟩, ⟨hc, hc'⟩, hb, hb'⟩ := toggled_displayControlLegal _ hdc
  obtain ⟨⟨hl, hl'⟩, ha, ha'⟩ := toggled_entryModeLegal _ hem
  cases i with
  | displayOn => exact ⟨hd, hem, hfs⟩
  | displayOff => exact ⟨hd', hem, hfs⟩
  | cursorOn => exact ⟨hc, hem, hfs⟩
  | cursorOff => exact ⟨hc', hem, hfs⟩
  | blinkOn => exact ⟨hb, hem, hfs⟩
  | blinkOff => exact ⟨hb', hem, hfs⟩
  | leftToRight => exact ⟨hdc, hl, hfs⟩
  | rightToLeft => exact ⟨hdc, hl', hfs⟩
  | autoscrollOn => exact ⟨hdc, ha, hfs⟩
  | autoscrollOff => exact ⟨hdc, ha', hfs⟩
  | _ => exact ⟨hdc, hem, hfs⟩

theorem LegalMirrors.kept {s t : State} (h : LegalMirrors s) (hk : Kept s t) : LegalMirrors t := by
  rwa [LegalMirrors, hk.displayControl, hk.entryMode, hk.functionSet]

/-- A run of the encoder's bytes from a `Ready` block ends in the invariant however it ends. -/
theorem endOperation_run_inv {ms : List Micro} {u t : State} (h : Sound u) (hr : u.phase = .ready) (hm : LegalMirrors u)
    (hms : ∀ w, Micro.put w ∈ ms → RwClear w) (ht : endOperation (run ms u) = .next t) : Inv t := by
  have hp : Progress RwClear u (run ms u) := progress_run u hms
  have hsound := hp.sound h
  have hlegal := hm.kept (run_kept ms u)
  obtain ⟨st, rfl⟩ | hrun := endOperation_cases ht
  · exact inv_of_idle ⟨hsound.cfg, hsound.expander, hsound.trace⟩ rfl (by simp [hp.phase, hr]) fun _ => hlegal
  · rw [hrun] at hsound hlegal hp
    exact inv_of_stopped hsound (hp.stopped t rfl) fun _ => hlegal

theorem inv_respond {s : State} (h : Inv s) (hs : s.sequencer = .idle) (st : Status) : Inv (respond st s) :=
  inv_of_idle ⟨h.sound.cfg, h.sound.expander, h.sound.trace⟩ rfl (h.phase_of_idle hs) h.legalMirrors

/-- Every operation of a block that takes requests keeps the invariant. -/
theorem exec_inv {i : Instr} {s t : State} (h : Inv s) (hs : s.sequencer = .idle) (ht : exec i s = .next t) : Inv t := by
  by_cases hi : i = .init
  · subst hi
    exact exec_init_inv h.sound ht
  obtain ⟨-, he⟩ | ⟨-, he⟩ | ⟨hr, he⟩ := exec_cases hi s <;> rw [he] at ht
  · obtain rfl := Host.Outcome.next.inj ht
    exact inv_respond h hs _
  · obtain rfl := Host.Outcome.next.inj ht
    exact inv_respond h hs _
  · obtain ⟨hc, hwf, htrace⟩ := h.sound
    have hbytes := microsOf_encodesOnly (P := RwClear) (t := storing i s) (by rw [storing_cfg, hc]; exact encodesOnly_rwClear) i
    refine endOperation_run_inv ⟨?_, ?_, ?_⟩ ?_ ?_ hbytes ht
    · rwa [storing_cfg]
    · rwa [storing_expander]
    · rwa [storing_trace]
    · rwa [storing_phase]
    · rw [storing_defaults i hc]
      exact legalMirrors_stored (h.legalMirrors hr) i

/-! ## Every step keeps it -/

theorem inv_inputs {s : State} (h : Inv s) (rest : List Input) : Inv { s with inputs := rest } := h

/-- Settles O48: INIT and every reset bring a block to the invariant, and every other operation runs from an idle block and
keeps it. -/
theorem stepKeepsInvariant : Obligations.StepKeepsInvariant := by
  intro s t h ht
  match hs : s.sequencer with
  | .boot =>
    rw [step_boot hs] at ht
    exact exec_init_inv h.sound ht
  | .waiting a v =>
    rw [step_waiting hs, hungStep] at ht
    split at ht
    · obtain rfl := Host.Outcome.next.inj ht
      exact inv_applyReset (inv_inputs h _).sound _
    · cases ht
  | .resetting a =>
    obtain rfl := Host.Outcome.next.inj ((step_resetting hs).symm.trans ht)
    exact inv_applyReset h.sound a
  | .idle =>
    match hi : s.inputs with
    | [] =>
      obtain rfl := Host.Outcome.next.inj ((step_idle hs hi).symm.trans ht)
      exact h
    | .reset a :: rest =>
      obtain rfl := Host.Outcome.next.inj ((step_idle_reset hs hi).symm.trans ht)
      exact inv_applyReset (inv_inputs h rest).sound a
    | .request r :: rest =>
      match hd : decode r with
      | .ok i => exact exec_inv (inv_inputs h rest) hs ((step_idle_request hs hi hd).symm.trans ht)
      | .error e =>
        obtain rfl := Host.Outcome.next.inj ((step_idle_illegal hs hi hd).symm.trans ht)
        exact inv_respond (inv_inputs h rest) hs _

end Sys2Proof.Machine
end

