-- ==== Sys2Proof/Proofs/UnreadMirrors.lean ====
section
/-! What the mirror registers hold outside `Ready` is unobservable (10_state.md R20): a run never reads them
(`run_related`), INIT stores each before it sends it, and every other operation is refused there. -/

namespace Sys2Proof.Machine

/-- The state with the mirror registers at the given values. -/
def State.withMirrors (s : State) (d e f : Byte) : State :=
  { s with displayControl := d, entryMode := e, functionSet := f }

/-- `t` is `s` with the mirror registers at some values, in any phase. -/
def SameButMirrors (s t : State) : Prop := ∃ d e f : Byte, t = s.withMirrors d e f

theorem SameButMirrors.unread {s t : State} (h : SameButMirrors s t) (hp : s.phase ≠ .ready) : sameButUnreadMirrors s t := by
  obtain ⟨d, e, f, rfl⟩ := h
  exact ⟨rfl, fun hr => absurd hr hp⟩

theorem sameButUnreadMirrors_refl (s : State) : sameButUnreadMirrors s s := ⟨rfl, fun _ => rfl⟩

/-- With the same mirrors it is the same state. -/
theorem SameButMirrors.eq {s t : State} (h : SameButMirrors s t) (hd : t.displayControl = s.displayControl)
    (he : t.entryMode = s.entryMode) (hf : t.functionSet = s.functionSet) : t = s := by
  obtain ⟨d, e, f, rfl⟩ := h
  obtain rfl : d = s.displayControl := hd
  obtain rfl : e = s.entryMode := he
  obtain rfl : f = s.functionSet := hf
  rfl

/-- The two runs have come equally far, in states that differ at most in the mirrors. -/
inductive RunsRelated : Run → Run → Prop where
  | going {s t : State} (h : SameButMirrors s t) : RunsRelated (.going s) (.going t)
  | failed {s t : State} (h : SameButMirrors s t) : RunsRelated (.failed s) (.failed t)
  | stopped {s t : State} (h : SameButMirrors s t) : RunsRelated (.stopped s) (.stopped t)

theorem RunsRelated.andThen {r q : Run} {f g : State → Run} (h : RunsRelated r q)
    (hf : ∀ s t, SameButMirrors s t → RunsRelated (f s) (g t)) : RunsRelated (r.andThen f) (q.andThen g) := by
  cases h with
  | going h => exact hf _ _ h
  | failed h => exact .failed h
  | stopped h => exact .stopped h

theorem memWrite_related (v : Byte) {s t : State} (h : SameButMirrors s t) : RunsRelated (memWrite v s) (memWrite v t) := by
  obtain ⟨d, e, f, rfl⟩ := h
  cases ha : s.answerAt 0 with
  | ok =>
    rw [memWrite_ok v ha, memWrite_ok (s := s.withMirrors d e f) v ha]
    exact .going ⟨d, e, f, rfl⟩
  | err =>
    rw [memWrite_err v ha, memWrite_err (s := s.withMirrors d e f) v ha]
    exact .failed ⟨d, e, f, rfl⟩
  | never =>
    rw [memWrite_never v ha, memWrite_never (s := s.withMirrors d e f) v ha]
    exact .stopped ⟨d, e, f, rfl⟩

theorem hold_related (n : DelayName) {s t : State} (h : SameButMirrors s t) : RunsRelated (hold n s) (hold n t) := by
  obtain ⟨d, e, f, rfl⟩ := h
  have hd : (s.withMirrors d e f).delayResets = s.delayResets := rfl
  simp only [hold, hd]
  split
  · exact .going ⟨d, e, f, rfl⟩
  · exact .stopped ⟨d, e, f, rfl⟩
  · exact .going ⟨d, e, f, rfl⟩

/-- Lines never read a mirror. -/
theorem run_related (ms : List Micro) {s t : State} (h : SameButMirrors s t) : RunsRelated (run ms s) (run ms t) := by
  induction ms generalizing s t with
  | nil => exact .going h
  | cons m rest ih =>
    cases m with
    | put v => exact (memWrite_related v h).andThen fun _ _ => ih
    | hold n => exact (hold_related n h).andThen fun _ _ => ih

theorem initCommands_related {s t : State} (h : SameButMirrors s t) : RunsRelated (initCommands s) (initCommands t) := by
  rw [initCommands_eq_runs, initCommands_eq_runs]
  refine ((((?_ : RunsRelated _ _).andThen ?_).andThen ?_).andThen ?_).andThen fun _ _ => run_related _
  · obtain ⟨d, e, f, rfl⟩ := h
    exact run_related _ ⟨d, e, _, rfl⟩
  · rintro s _ ⟨d, e, f, rfl⟩
    exact run_related _ ⟨_, e, f, rfl⟩
  · rintro s _ ⟨d, e, f, rfl⟩
    exact run_related _ ⟨d, _, f, rfl⟩
  · rintro s _ ⟨d, e, f, rfl⟩
    exact run_related _ ⟨d, e, f, rfl⟩

theorem initRun_related {s t : State} (h : SameButMirrors s t) : RunsRelated (initRun s) (initRun t) := by
  obtain ⟨d, e, f, rfl⟩ := h
  rw [initRun, initRun, bringUp_eq_run, bringUp_eq_run]
  exact (run_related _ ⟨d, e, f, rfl⟩).andThen fun _ _ => initCommands_related

/-- Where INIT comes to its end it has stored the same mirrors in both states; where it does not, it has left `Ready`. -/
theorem exec_init_related {s t : State} (h : SameButMirrors s t) :
    outcomesRelated sameButUnreadMirrors (exec .init s) (exec .init t) := by
  have hrel := initRun_related h
  have hp := progress_initRun (encodesOnly_true s.cfg)
  have hcfg : t.cfg = s.cfg := by
    obtain ⟨d, e, f, rfl⟩ := h
    rfl
  rw [exec_init, exec_init]
  generalize hs : initRun s = r at hrel hp
  generalize ht : initRun t = q at hrel
  cases hrel with
  | going huv =>
    obtain ⟨hfs, hdc, hem⟩ := initRun_going hs
    obtain ⟨hfs', hdc', hem'⟩ := initRun_going ht
    rw [hcfg] at hfs' hdc' hem'
    obtain rfl := huv.eq (hdc'.trans hdc.symm) (hem'.trans hem.symm) (hfs'.trans hfs.symm)
    exact sameButUnreadMirrors_refl _
  | failed huv =>
    obtain ⟨d, e, f, rfl⟩ := huv
    exact SameButMirrors.unread ⟨d, e, f, rfl⟩ (by simp)
  | stopped huv => exact huv.unread fun hr => absurd (hp.phase.symm.trans hr) (by simp)

theorem exec_related (i : Instr) {s t : State} (h : SameButMirrors s t) (hp : s.phase ≠ .ready) :
    outcomesRelated sameButUnreadMirrors (exec i s) (exec i t) := by
  by_cases hi : i = .init
  · subst hi
    exact exec_init_related h
  · obtain ⟨d, e, f, rfl⟩ := h
    rw [exec_notReady hi hp, exec_notReady (s := s.withMirrors d e f) hi hp]
    exact SameButMirrors.unread ⟨d, e, f, rfl⟩ hp

/-- A reset writes every mirror. -/
theorem applyReset_related (a : I2cAddr) {s t : State} (h : SameButMirrors s t) :
    sameButUnreadMirrors (applyReset a s) (applyReset a t) := by
  obtain ⟨d, e, f, rfl⟩ := h
  exact sameButUnreadMirrors_refl _

theorem hungStep_related {s t : State} (h : SameButMirrors s t) :
    outcomesRelated sameButUnreadMirrors (hungStep s) (hungStep t) := by
  obtain ⟨d, e, f, rfl⟩ := h
  have hi : (s.withMirrors d e f).inputs = s.inputs := rfl
  simp only [hungStep, hi]
  split
  · exact applyReset_related _ ⟨d, e, f, rfl⟩
  · rfl

theorem outcomesRelated_refl (o : Host.Outcome State Fault Refusal) : outcomesRelated sameButUnreadMirrors o o := by
  cases o with
  | next s => exact sameButUnreadMirrors_refl s
  | fault r => rfl
  | refused r => rfl

/-- Outside `Ready` a step does not read the mirrors. -/
theorem step_related {s t : State} (h : SameButMirrors s t) (hp : s.phase ≠ .ready) :
    outcomesRelated sameButUnreadMirrors (step s) (step t) := by
  obtain ⟨d, e, f, rfl⟩ := h
  match hs : s.sequencer with
  | .boot =>
    rw [step_boot hs, step_boot (s := s.withMirrors d e f) hs]
    exact exec_init_related ⟨d, e, f, rfl⟩
  | .waiting a v =>
    rw [step_waiting hs, step_waiting (s := s.withMirrors d e f) hs]
    exact hungStep_related ⟨d, e, f, rfl⟩
  | .resetting a =>
    rw [step_resetting hs, step_resetting (s := s.withMirrors d e f) hs]
    exact applyReset_related a ⟨d, e, f, rfl⟩
  | .idle =>
    match hi : s.inputs with
    | [] =>
      rw [step_idle hs hi, step_idle (s := s.withMirrors d e f) hs hi]
      exact SameButMirrors.unread ⟨d, e, f, rfl⟩ hp
    | .reset a :: rest =>
      rw [step_idle_reset hs hi, step_idle_reset (s := s.withMirrors d e f) hs hi]
      exact applyReset_related a ⟨d, e, f, rfl⟩
    | .request r :: rest =>
      match hd : decode r with
      | .ok i =>
        rw [step_idle_request hs hi hd, step_idle_request (s := s.withMirrors d e f) hs hi hd]
        exact exec_related i ⟨d, e, f, rfl⟩ hp
      | .error _ =>
        rw [step_idle_illegal hs hi hd, step_idle_illegal (s := s.withMirrors d e f) hs hi hd]
        exact SameButMirrors.unread ⟨d, e, f, rfl⟩ hp

/-- Settles O50: in `Ready` the two states are one, and outside it `step_related`. -/
theorem unwrittenMirrorsAreUnobservable : Obligations.UnwrittenMirrorsAreUnobservable := by
  rintro s t ⟨hmirrors, hready⟩
  by_cases hp : s.phase = .ready
  · rw [hready hp]
    exact outcomesRelated_refl _
  · exact step_related ⟨_, _, _, hmirrors⟩ hp

end Sys2Proof.Machine
end

