-- ==== Sys2Proof/Proofs/Undisturbed.lean ====
section
/-! What an operation does when nothing disturbs it, with the parameters of R6: INIT (`exec_init_undisturbed`, 41_init.md R100)
and every other admitted one (`exec_undisturbed`). -/

namespace Sys2Proof.Machine

/-- A trace that nothing disturbs, taken in two pieces. -/
theorem okFor_append {s : State} {xs ys : List Event} (h : s.okFor (xs ++ ys)) :
    s.okFor xs ∧ (s.afterEvents xs).okFor ys := by
  obtain ⟨ha, hq⟩ := h
  rw [writeCount_append] at ha
  rw [delayCount_append] at hq
  refine ⟨⟨fun k hk => ha k (by omega), fun p hp => ?_⟩, fun k hk => ?_, fun p hp => ?_⟩
  · have := hq p hp
    omega
  · rw [answerAt_afterEvents]
    exact ha _ (by omega)
  · rw [afterEvents_delayResets] at hp
    match hl : s.delayResets with
    | [] => simp [hl, tickDelays] at hp
    | (n, a) :: later =>
      have hn := hq (n, a) (by simp [hl])
      obtain rfl : (n - delayCount xs, a) = p := by simpa [hl, tickDelays] using hp
      simp only at hn ⊢
      omega

/-- Every admitted operation but INIT, its operands legal. -/
theorem exec_undisturbed {i : Instr} {s : State} (hc : s.cfg = Config.defaults) (hr : s.phase = .ready) (hi : i ≠ .init)
    (hw : i.wf = true) (h : s.okFor (planned i s)) :
    exec i s = .next (respond .ok ((stored i s).afterEvents (planned i s))) := by
  have hevents : eventsOf (stored i s).i2cAddr (microsOf i (stored i s)) = planned i s :=
    eventsOf_microsOf i (stored i s) ((stored_cfg i s).trans hc) hi hw
  rw [exec_eq_run i hc hr hi hw, run_ok _ _ (by rw [hevents]; exact stored_okFor h), hevents]
  rfl

theorem sendCommand_undisturbed {s : State} (v : Byte) {later : List Event} (hc : s.cfg = Config.defaults)
    (h : s.okFor (commandEvents s v ++ later)) :
    sendCommand v s = .going (s.afterEvents (commandEvents s v)) ∧ (s.afterEvents (commandEvents s v)).okFor later := by
  obtain ⟨hbyte, hlater⟩ := okFor_append h
  have hevents : eventsOf s.i2cAddr (byteMicros s v false) = commandEvents s v := eventsOf_byteMicros s v false hc
  rw [sendCommand_eq_run, run_ok _ _ (by rwa [hevents]), hevents]
  exact ⟨rfl, hlater⟩

/-- Steps 1 and 2 of INIT (R100). -/
def bringUpEvents (s : State) : List Event :=
  (pulseEvents s 0x30 ++ [.delay .initSettle]) ++ (pulseEvents s 0x30 ++ [.delay .initSettle]) ++
  (pulseEvents s 0x30 ++ [.delay .initSettle]) ++ pulseEvents s 0x20

/-- Steps 3 to 5 of INIT (R100), each command a piece before all that comes after it. -/
def initCommandEvents (s : State) : List Event :=
  commandEvents s 0x28 ++ (commandEvents s 0x0C ++ (commandEvents s 0x06 ++ (commandEvents s 0x01 ++ [.delay .initFinal])))

theorem initEvents_eq (s : State) : initEvents s = bringUpEvents s ++ initCommandEvents s := by
  simp only [initEvents, bringUpEvents, initCommandEvents, List.append_assoc]

theorem eventsOf_bringUpMicros (s : State) (hc : s.cfg = Config.defaults) :
    eventsOf s.i2cAddr (bringUpMicros s) = bringUpEvents s := by
  have h3 : rawPayload s.cfg s.cfg.initNibble8Bit = 0x30 := by rw [hc]; decide
  have h2 : rawPayload s.cfg s.cfg.initNibble4Bit = 0x20 := by rw [hc]; decide
  simp only [bringUpMicros, bringUpEvents, h3, h2, eventsOf_append, eventsOf_hold, eventsOf_nil,
    eventsOf_pulseMicros s 0x30 hc (by decide), eventsOf_pulseMicros s 0x20 hc (by decide)]

theorem bringUp_undisturbed {s : State} {later : List Event} (hc : s.cfg = Config.defaults)
    (h : s.okFor (bringUpEvents s ++ later)) :
    bringUp s = .going (s.afterEvents (bringUpEvents s)) ∧ (s.afterEvents (bringUpEvents s)).okFor later := by
  obtain ⟨hup, hlater⟩ := okFor_append h
  have hevents := eventsOf_bringUpMicros s hc
  rw [bringUp_eq_run, run_ok _ _ (by rwa [hevents]), hevents]
  exact ⟨rfl, hlater⟩

/-- The state with INIT's three mirrors stored. -/
def withInitMirrors (s : State) : State := { s with functionSet := 0x28, displayControl := 0x0C, entryMode := 0x06 }

theorem initCommands_undisturbed {s : State} (hc : s.cfg = Config.defaults) (h : s.okFor (initCommandEvents s)) :
    initCommands s = .going ((withInitMirrors s).afterEvents (initCommandEvents s)) := by
  let s₁ : State := { s with functionSet := 0x28 }
  let s₂ : State := { s₁.afterEvents (commandEvents s 0x28) with displayControl := 0x0C }
  let s₃ : State := { s₂.afterEvents (commandEvents s 0x0C) with entryMode := 0x06 }
  let s₄ : State := s₃.afterEvents (commandEvents s 0x06)
  let s₅ : State := s₄.afterEvents (commandEvents s 0x01)
  obtain ⟨h₁, h⟩ := sendCommand_undisturbed (s := s₁) 0x28 hc h
  obtain ⟨h₂, h⟩ := sendCommand_undisturbed (s := s₂) 0x0C hc h
  obtain ⟨h₃, h⟩ := sendCommand_undisturbed (s := s₃) 0x06 hc h
  obtain ⟨h₄, h⟩ := sendCommand_undisturbed (s := s₄) 0x01 hc h
  have h₅ : delay .initFinal s₅ = .going (s₅.afterEvents [.delay .initFinal]) := run_ok [.hold .initFinal] s₅ h
  have hfs : sendFunctionSet (initFunctionSet s.cfg) s = .going (s₁.afterEvents (commandEvents s 0x28)) := by
    rw [hc]
    exact h₁
  have hdc : sendDisplayControl (initDisplayControl s.cfg) (s₁.afterEvents (commandEvents s 0x28)) =
      .going (s₂.afterEvents (commandEvents s 0x0C)) := by
    rw [hc]
    exact h₂
  have hem : sendEntryMode (initEntryMode s.cfg) (s₂.afterEvents (commandEvents s 0x0C)) = .going s₄ := by
    rw [hc]
    exact h₃
  have hclear : sendCommand s.cfg.cmdClearDisplay s₄ = .going s₅ := by
    rw [hc]
    exact h₄
  have hend : (withInitMirrors s).afterEvents (initCommandEvents s) = s₅.afterEvents [.delay .initFinal] := by
    simp only [initCommandEvents, afterEvents_append]
    rfl
  rw [hend]
  exact andThen_eq_going.mpr ⟨s₅, andThen_eq_going.mpr ⟨s₄, andThen_eq_going.mpr
    ⟨_, andThen_eq_going.mpr ⟨_, hfs, hdc⟩, hem⟩, hclear⟩, h₅⟩

theorem withInitMirrors_afterEvents (s : State) (evs : List Event) :
    withInitMirrors (s.afterEvents evs) = (withInitMirrors s).afterEvents evs := rfl

theorem initRun_undisturbed {s : State} (hc : s.cfg = Config.defaults) (h : s.okFor (initEvents s)) :
    initRun s = .going ((withInitMirrors { s with phase := .uninit }).afterEvents (initEvents s)) := by
  let s₁ : State := { s with phase := .uninit }
  let s₂ : State := s₁.afterEvents (bringUpEvents s)
  rw [initEvents_eq] at h
  have hup : bringUp s₁ = .going s₂ ∧ s₂.okFor (initCommandEvents s) := bringUp_undisturbed (s := s₁) hc h
  have hcommands : initCommands s₂ = .going ((withInitMirrors s₂).afterEvents (initCommandEvents s)) :=
    initCommands_undisturbed hc hup.2
  rw [initRun, hup.1, andThen_going, hcommands, withInitMirrors_afterEvents, ← afterEvents_append, ← initEvents_eq]

/-- Only the phase is left to write at INIT's end. -/
theorem endInit_afterEvents (s : State) (evs : List Event) :
    endInit (.going ((withInitMirrors { s with phase := .uninit }).afterEvents evs)) =
      .next (respond .ok ((withInitMirrors { s with phase := .ready }).afterEvents evs)) := rfl

/-- INIT, none of its writes failing and no reset in its delays (R100). -/
theorem exec_init_undisturbed {s : State} (hc : s.cfg = Config.defaults) (h : s.okFor (initEvents s)) :
    exec .init s =
      .next (respond .ok ((withInitMirrors { s with phase := .ready }).afterEvents (initEvents s))) := by
  rw [exec_init, initRun_undisturbed hc h]
  exact endInit_afterEvents s (initEvents s)

end Sys2Proof.Machine
end

