-- ==== Sys2Proof/Proofs/CommandsSent.lean ====
section
/-! The command bytes that can be read off a piece of trace of whole bytes (20_memory.md R36, R37), with the parameters of R6:
piece after piece (`SendsCommands.append`), and of every operation's planned trace (`sendsCommands_plannedFrom`). -/

namespace Sys2Proof.Machine

/-! ## Pieces of whole pulses -/

theorem wholePulses_append {c : Config} {xs : List Event} (ys : List Event) (h : wholePulses c xs = true) :
    wholePulses c (xs ++ ys) = wholePulses c ys := by
  induction xs using wholePulses.induct with
  | case1 => rfl
  | case2 a x b y rest ih =>
    obtain ⟨hpair, hrest⟩ := Bool.and_eq_true_iff.mp h
    simp only [List.cons_append, wholePulses, hpair, Bool.true_and, ih hrest]
  | case3 rest ih | case4 rest ih | case5 rest ih => exact ih h
  | case6 evs => simp [wholePulses] at h

/-- The two bytes of a pulse: enable is set in the first and clear in the second. -/
theorem pulsePair_defaults {a b : I2cAddr} {x y : Byte} (h : pulsePair Config.defaults a b x y = true) :
    hasFlag Config.defaults.pinEn x = true ∧ hasFlag Config.defaults.pinEn y = false := by
  have hpin : Config.defaults.pinEn = 0x04 := rfl
  simp only [pulsePair, hpin, Bool.and_eq_true, decide_eq_true_eq] at h
  obtain ⟨⟨-, rfl⟩, hy⟩ := h
  have hset : ∀ v : Byte, hasFlag 0x04 (v ||| 0x04) = true := by decide
  rw [hpin]
  exact ⟨hset y, by rw [hasFlag, hy]; rfl⟩

theorem latchedIn_pulse {a b : I2cAddr} {x y : Byte} (rest : List Event)
    (h : pulsePair Config.defaults a b x y = true) :
    latchedIn Config.defaults (.written a x :: .delay .enHigh :: .written b y :: .delay .enLow :: rest) =
      (hasFlag Config.defaults.pinRs y, nibbleOf y) :: latchedIn Config.defaults rest := by
  obtain ⟨hx, hy⟩ := pulsePair_defaults h
  simp only [latchedIn, List.filterMap_cons, Event.byte, latchedFrom, hx, hy, if_true, Bool.false_eq_true, if_false]

/-- Whole pulses leave enable low, so what follows is latched as if it stood alone. -/
theorem latchedIn_append {xs : List Event} (ys : List Event) (h : wholePulses Config.defaults xs = true) :
    latchedIn Config.defaults (xs ++ ys) = latchedIn Config.defaults xs ++ latchedIn Config.defaults ys := by
  induction xs using wholePulses.induct with
  | case1 => rfl
  | case2 a x b y rest ih =>
    obtain ⟨hpair, hrest⟩ := Bool.and_eq_true_iff.mp h
    simp only [List.cons_append, latchedIn_pulse _ hpair, ih hrest]
  | case3 rest ih | case4 rest ih | case5 rest ih => exact ih h
  | case6 evs => simp [wholePulses] at h

/-- Two writes a nibble. -/
theorem writeCount_eq_latchedIn {xs : List Event} (h : wholePulses Config.defaults xs = true) :
    writeCount xs = 2 * (latchedIn Config.defaults xs).length := by
  induction xs using wholePulses.induct with
  | case1 => rfl
  | case2 a x b y rest ih =>
    obtain ⟨hpair, hrest⟩ := Bool.and_eq_true_iff.mp h
    simp only [writeCount_written, writeCount_delay, latchedIn_pulse _ hpair, List.length_cons, ih hrest]
    omega
  | case3 rest ih | case4 rest ih | case5 rest ih => exact (writeCount_delay _ rest).trans (ih h)
  | case6 evs => simp [wholePulses] at h

/-- A whole number of bytes is read apart from what follows. -/
theorem latchedBytes_append (xs ys : List (Bool × Nibble)) (h : xs.length % 2 = 0) :
    latchedBytes (xs ++ ys) = latchedBytes xs ++ latchedBytes ys := by
  induction xs using latchedBytes.induct with
  | case1 m hi m' lo rest ih =>
    have hrest : rest.length % 2 = 0 := by
      simp only [List.length_cons] at h
      omega
    simp only [List.cons_append, latchedBytes, ih hrest]
  | case2 => simp at h
  | case3 => rfl

/-! ## Pieces of whole bytes -/

/-- A piece of trace is whole bytes, none of them failed, and the command bytes in it are `cmds`. -/
structure SendsCommands (evs : List Event) (cmds : List Byte) : Prop where
  whole : wholeBytes Config.defaults evs = true
  sent : commandsSent Config.defaults evs = cmds

theorem SendsCommands.append {xs ys : List Event} {cs ds : List Byte} (hx : SendsCommands xs cs) (hy : SendsCommands ys ds) :
    SendsCommands (xs ++ ys) (cs ++ ds) := by
  obtain ⟨hxw, rfl⟩ := hx
  obtain ⟨hyw, rfl⟩ := hy
  simp only [wholeBytes, Bool.and_eq_true, decide_eq_true_eq] at hxw hyw
  obtain ⟨hxc, hxp⟩ := hxw
  obtain ⟨hyc, hyp⟩ := hyw
  constructor
  · simp only [wholeBytes, wholePulses_append ys hxp, hyp, writeCount_append, Bool.and_true, decide_eq_true_eq]
    omega
  · have heven : (latchedIn Config.defaults xs).length % 2 = 0 := by
      have := writeCount_eq_latchedIn hxp
      omega
    simp only [commandsSent, latchedIn_append ys hxp, latchedBytes_append _ _ heven, List.filter_append, List.map_append]

/-- A pulse of a payload that leaves the enable pin alone is whole, and its nibble and register-select are latched. -/
theorem pulseEvents_whole (s : State) {p : Byte} (hp : p &&& 0x04 = 0) :
    wholePulses Config.defaults (pulseEvents s p) = true ∧
      latchedIn Config.defaults (pulseEvents s p) = [(hasFlag 0x01 p, nibbleOf p)] := by
  have hbl : ∀ q : Byte, q &&& 0x04 = 0 → ∀ bl : Bool,
      (q ||| (if bl then 0x08 else 0x00)) &&& 0x04 = 0 ∧
      hasFlag 0x01 (q ||| (if bl then 0x08 else 0x00)) = hasFlag 0x01 q ∧
      nibbleOf (q ||| (if bl then 0x08 else 0x00)) = nibbleOf q := by decide
  obtain ⟨hen, hrs, hnibble⟩ := hbl p hp s.backlightBit
  have hpair : pulsePair Config.defaults s.i2cAddr s.i2cAddr ((p ||| (if s.backlightBit then 0x08 else 0x00)) ||| 0x04)
      (p ||| (if s.backlightBit then 0x08 else 0x00)) = true := by
    have hpin : Config.defaults.pinEn = 0x04 := rfl
    simp only [pulsePair, hpin, hen, decide_true, Bool.and_self]
  constructor
  · simp only [pulseEvents, wholePulses, hpair, Bool.and_self]
  · have hpin : Config.defaults.pinRs = 0x01 := rfl
    rw [pulseEvents, latchedIn_pulse [] hpair, hpin, hrs, hnibble]
    rfl

/-- The two payloads of a byte: enable clear, the mode flag at the register-select, the byte's two nibbles. -/
theorem payloads_defaults : ∀ (v : Byte) (data : Bool),
    (((v &&& 0xF0) ||| (if data then 0x01 else 0x00)) &&& 0x04 = 0 ∧
      (((v <<< 4) &&& 0xF0) ||| (if data then 0x01 else 0x00)) &&& 0x04 = 0) ∧
    (hasFlag 0x01 ((v &&& 0xF0) ||| (if data then 0x01 else 0x00)) = data ∧
      nibbleOf ((v &&& 0xF0) ||| (if data then 0x01 else 0x00)) ++
        nibbleOf (((v <<< 4) &&& 0xF0) ||| (if data then 0x01 else 0x00)) = v) := by decide

/-- A byte is whole; it is a command byte if its mode flag says so. -/
theorem sendsCommands_byteEvents (s : State) (v : Byte) (data : Bool) :
    SendsCommands (byteEvents s v data) (if data then [] else [v]) := by
  obtain ⟨⟨hhi, hlo⟩, hmode, hnibbles⟩ := payloads_defaults v data
  obtain ⟨hhiw, hhil⟩ := pulseEvents_whole s hhi
  obtain ⟨hlow, hlol⟩ := pulseEvents_whole s hlo
  constructor
  · rw [wholeBytes, writeCount_byteEvents, byteEvents, wholePulses_append _ hhiw, hlow]
    rfl
  · rw [commandsSent, byteEvents, latchedIn_append _ hhiw, hhil, hlol, List.singleton_append, latchedBytes, hmode, hnibbles]
    cases data <;> rfl

theorem sendsCommands_commandEvents (s : State) (v : Byte) : SendsCommands (commandEvents s v) [v] :=
  sendsCommands_byteEvents s v false

theorem sendsCommands_textEvents (s : State) (text : List Byte) : SendsCommands (textEvents s text) [] := by
  induction text with
  | nil => exact ⟨rfl, rfl⟩
  | cons c cs ih => exact (sendsCommands_byteEvents s c true).append ih

/-- The nibbles 3, 3, 3, 2 of the bring-up, read as bytes. -/
theorem sendsCommands_bringUpEvents (s : State) : SendsCommands (bringUpEvents s) [0x33, 0x32] := by
  obtain ⟨h3, l3⟩ := pulseEvents_whole s (p := 0x30) (by decide)
  obtain ⟨h2, l2⟩ := pulseEvents_whole s (p := 0x20) (by decide)
  have hsettled : wholePulses Config.defaults (pulseEvents s 0x30 ++ [.delay .initSettle]) = true :=
    (wholePulses_append _ h3).trans rfl
  have lsettled : latchedIn Config.defaults (pulseEvents s 0x30 ++ [.delay .initSettle]) = [(false, 0x3)] := by
    rw [latchedIn_append _ h3, l3]
    decide
  constructor
  · rw [bringUpEvents, List.append_assoc, List.append_assoc, wholeBytes, wholePulses_append _ hsettled,
      wholePulses_append _ hsettled, wholePulses_append _ hsettled, h2]
    simp
  · rw [commandsSent, bringUpEvents, List.append_assoc, List.append_assoc, latchedIn_append _ hsettled,
      latchedIn_append _ hsettled, latchedIn_append _ hsettled, lsettled, l2]
    decide

theorem sendsCommands_initEvents (s : State) : SendsCommands (initEvents s) [0x33, 0x32, 0x28, 0x0C, 0x06, 0x01] := by
  rw [initEvents_eq]
  have command := sendsCommands_commandEvents s
  exact (sendsCommands_bringUpEvents s).append
    ((command 0x28).append ((command 0x0C).append ((command 0x06).append ((command 0x01).append ⟨rfl, rfl⟩))))

/-- The command bytes of an operation's planned trace, from the state in which its registers have been stored. -/
def commandsOf (i : Instr) (t : State) : List Byte :=
  match i with
  | .init => [0x33, 0x32, 0x28, 0x0C, 0x06, 0x01]
  | .clear => [0x01]
  | .home => [0x02]
  | .displayOn | .displayOff | .cursorOn | .cursorOff | .blinkOn | .blinkOff => [t.displayControl]
  | .leftToRight | .rightToLeft | .autoscrollOn | .autoscrollOff => [t.entryMode]
  | .backlightOn | .backlightOff => [0x00]
  | .cursorMoveLeft => [0x10]
  | .cursorMoveRight => [0x14]
  | .displayMoveLeft => [0x18]
  | .displayMoveRight => [0x1C]
  | .setCursor col row => [0x80 ||| (col + rowBase row)]
  | .writeln _ line => [0x80 ||| lineBase line]
  | .sendCommand byte => [byte]
  | .write _ | .sendData _ => []

theorem sendsCommands_plannedFrom (i : Instr) (t : State) : SendsCommands (plannedFrom i t) (commandsOf i t) := by
  have hclear (v : Byte) : SendsCommands (commandEvents t v ++ [.delay .clearHome]) [v] :=
    (sendsCommands_commandEvents t v).append (ds := []) ⟨rfl, rfl⟩
  cases i with
  | init => exact sendsCommands_initEvents t
  | clear | home => exact hclear _
  | write text => exact sendsCommands_textEvents t text
  | writeln text line => exact (sendsCommands_commandEvents t _).append (sendsCommands_textEvents t text)
  | sendData byte => exact sendsCommands_byteEvents t byte true
  | _ => exact sendsCommands_commandEvents t _

end Sys2Proof.Machine
end

