-- ==== Sys2Proof/Proofs/MirrorsReflect.lean ====
section
/-! The mirrors reflect the last command byte of their kind sent (10_state.md R14, 30_encoding.md R52): every operation's
command bytes are either of no mirror's kind, or the new value of the mirror of their kind (`mirrorsLast_stored`). -/

namespace Sys2Proof.Machine

/-- Each mirror register is the last of the given command bytes that is of its kind. -/
def MirrorsLast (cmds : List Byte) (s : State) : Prop :=
  lastOfKind 0x08 cmds = some s.displayControl ∧ lastOfKind 0x04 cmds = some s.entryMode ∧
    lastOfKind 0x20 cmds = some s.functionSet

/-- The mirror invariant in terms of `SendsCommands`. -/
theorem mirrorsReflectTrace_iff {s : State} (hc : s.cfg = Config.defaults) : MirrorsReflectTrace s ↔
    ∃ earlier since cmds, s.trace = earlier ++ since ∧ SendsCommands since cmds ∧ MirrorsLast cmds s := by
  rw [MirrorsReflectTrace, hc]
  constructor
  · rintro ⟨earlier, since, htrace, hwhole, hlast⟩
    exact ⟨earlier, since, _, htrace, ⟨hwhole, rfl⟩, hlast⟩
  · rintro ⟨earlier, since, _, htrace, ⟨hwhole, rfl⟩, hlast⟩
    exact ⟨earlier, since, htrace, hwhole, hlast⟩

/-- A piece of whole bytes more, after which the mirrors are again the last of their kinds. -/
theorem mirrorsReflectTrace_append {s t : State} {evs : List Event} {new : List Byte} (hs : s.cfg = Config.defaults)
    (ht : t.cfg = Config.defaults) (h : MirrorsReflectTrace s) (htrace : t.trace = s.trace ++ evs)
    (hsends : SendsCommands evs new) (hlast : ∀ cmds, MirrorsLast cmds s → MirrorsLast (cmds ++ new) t) :
    MirrorsReflectTrace t := by
  obtain ⟨earlier, since, cmds, hold, hsince, hmirrors⟩ := (mirrorsReflectTrace_iff hs).mp h
  refine (mirrorsReflectTrace_iff ht).mpr ⟨earlier, since ++ evs, cmds ++ new, ?_, hsince.append hsends, hlast cmds hmirrors⟩
  rw [htrace, hold, List.append_assoc]

/-! ## The last command byte of a kind -/

theorem lastOfKind_append_ofKind {ident v : Byte} (cmds : List Byte) (h : ofKind ident v = true) :
    lastOfKind ident (cmds ++ [v]) = some v := by
  simp [lastOfKind, h]

theorem lastOfKind_append_other {ident v : Byte} (cmds : List Byte) (h : ofKind ident v = false) :
    lastOfKind ident (cmds ++ [v]) = lastOfKind ident cmds := by
  simp [lastOfKind, h]

theorem ofKind_of_lastOfKind {ident v : Byte} {cmds : List Byte} (h : lastOfKind ident cmds = some v) :
    ofKind ident v = true :=
  (List.mem_filter.mp (List.mem_of_getLast? h)).2

/-- A command byte of no mirror's kind. -/
abbrev OfNoMirror (v : Byte) : Prop := ofKind 0x08 v = false ∧ ofKind 0x04 v = false ∧ ofKind 0x20 v = false

theorem setDdram_ofNoMirror : ∀ v : Byte, OfNoMirror (0x80 ||| v) := by decide

section
variable {cmds : List Byte} {s : State} (h : MirrorsLast cmds s)
include h

theorem MirrorsLast.other {v : Byte} (hv : OfNoMirror v) : MirrorsLast (cmds ++ [v]) s := by
  obtain ⟨hdc, hem, hfs⟩ := hv
  rwa [MirrorsLast, lastOfKind_append_other cmds hdc, lastOfKind_append_other cmds hem, lastOfKind_append_other cmds hfs]

theorem MirrorsLast.displayControl {v : Byte} (hv : ofKind 0x08 v = true) :
    MirrorsLast (cmds ++ [v]) { s with displayControl := v } := by
  have hothers : ∀ w : Byte, ofKind 0x08 w = true → ofKind 0x04 w = false ∧ ofKind 0x20 w = false := by decide
  obtain ⟨hem, hfs⟩ := hothers v hv
  obtain ⟨-, hlast⟩ := h
  rw [MirrorsLast, lastOfKind_append_ofKind cmds hv, lastOfKind_append_other cmds hem, lastOfKind_append_other cmds hfs]
  exact ⟨rfl, hlast⟩

theorem MirrorsLast.entryMode {v : Byte} (hv : ofKind 0x04 v = true) :
    MirrorsLast (cmds ++ [v]) { s with entryMode := v } := by
  have hothers : ∀ w : Byte, ofKind 0x04 w = true → ofKind 0x08 w = false ∧ ofKind 0x20 w = false := by decide
  obtain ⟨hdc, hfs⟩ := hothers v hv
  obtain ⟨hlast, -, hlast'⟩ := h
  rw [MirrorsLast, lastOfKind_append_ofKind cmds hv, lastOfKind_append_other cmds hdc, lastOfKind_append_other cmds hfs]
  exact ⟨hlast, rfl, hlast'⟩

end

theorem toggled_displayControl_kind : ∀ v : Byte, ofKind 0x08 v = true →
    (ofKind 0x08 (v ||| 0x04) = true ∧ ofKind 0x08 (v &&& 0xFB) = true) ∧
    (ofKind 0x08 (v ||| 0x02) = true ∧ ofKind 0x08 (v &&& 0xFD) = true) ∧
    ofKind 0x08 (v ||| 0x01) = true ∧ ofKind 0x08 (v &&& 0xFE) = true := by decide

theorem toggled_entryMode_kind : ∀ v : Byte, ofKind 0x04 v = true →
    (ofKind 0x04 (v ||| 0x02) = true ∧ ofKind 0x04 (v &&& 0xFD) = true) ∧
    ofKind 0x04 (v ||| 0x01) = true ∧ ofKind 0x04 (v &&& 0xFE) = true := by decide

/-! ## Operations keep it -/

/-- After what an operation other than INIT sends, the mirrors it has stored are the last of their kinds. -/
theorem mirrorsLast_stored {i : Instr} {s : State} {cmds : List Byte} (hi : i ≠ .init)
    (hraw : ∀ byte, i = .sendCommand byte → OfNoMirror byte) (h : MirrorsLast cmds s) :
    MirrorsLast (cmds ++ commandsOf i (stored i s)) (stored i s) := by
  have ⟨hdc, hem, _⟩ := h
  obtain ⟨⟨hd, hd'⟩, ⟨hc, hc'⟩, hb, hb'⟩ := toggled_displayControl_kind _ (ofKind_of_lastOfKind hdc)
  obtain ⟨⟨hl, hl'⟩, ha, ha'⟩ := toggled_entryMode_kind _ (ofKind_of_lastOfKind hem)
  cases i with
  | init => exact absurd rfl hi
  | displayOn => exact h.displayControl hd
  | displayOff => exact h.displayControl hd'
  | cursorOn => exact h.displayControl hc
  | cursorOff => exact h.displayControl hc'
  | blinkOn => exact h.displayControl hb
  | blinkOff => exact h.displayControl hb'
  | leftToRight => exact h.entryMode hl
  | rightToLeft => exact h.entryMode hl'
  | autoscrollOn => exact h.entryMode ha
  | autoscrollOff => exact h.entryMode ha'
  | clear | home | cursorMoveLeft | cursorMoveRight | displayMoveLeft | displayMoveRight => exact h.other (by decide)
  | backlightOn | backlightOff => exact h.other (v := 0x00) (by decide)
  | setCursor col row => exact h.other (setDdram_ofNoMirror _)
  | writeln text line => exact h.other (setDdram_ofNoMirror _)
  | sendCommand byte => exact h.other (hraw byte rfl)
  | write text | sendData byte => rwa [commandsOf, List.append_nil]

/-- INIT starts the record anew. -/
theorem exec_init_mirrorsReflect {s : State} (hc : s.cfg = Config.defaults) (h : s.okFor (initEvents s)) :
    ∃ t, exec .init s = .next t ∧ MirrorsReflectTrace t := by
  refine ⟨_, exec_init_undisturbed hc h, ?_⟩
  rw [mirrorsReflectTrace_iff (by exact hc)]
  exact ⟨s.trace, initEvents s, _, rfl, sendsCommands_initEvents s, rfl, rfl, rfl⟩

theorem exec_mirrorsReflect {i : Instr} {s : State} (hc : s.cfg = Config.defaults) (hr : s.phase = .ready) (hi : i ≠ .init)
    (h : MirrorsReflectTrace s) (hok : s.okFor (planned i s))
    (hraw : ∀ byte, i = .sendCommand byte → OfNoMirror byte) : ∃ t, exec i s = .next t ∧ MirrorsReflectTrace t := by
  cases hw : i.wf with
  | false =>
    rw [← operandsLegal_defaults, ← hc] at hw
    exact ⟨_, exec_illegal hr hw, h⟩
  | true =>
    refine ⟨_, exec_undisturbed hc hr hi hw hok, ?_⟩
    refine mirrorsReflectTrace_append (evs := planned i s) hc ?_ h ?_ (sendsCommands_plannedFrom i (stored i s)) ?_
    · exact (stored_cfg i s).trans hc
    · rw [respond_trace, afterEvents_trace, stored_trace]
    · exact fun cmds => mirrorsLast_stored hi hraw

/-- Settles O45: INIT's own trace ends with the mirrors' values as the last bytes of their kinds, and every other operation
sends, of the three kinds, at most the new value of the register it has stored. -/
theorem mirrorsReflectLastByteSent : Obligations.MirrorsReflectLastByteSent := by
  refine ⟨fun s hc hok => exec_init_mirrorsReflect hc hok, fun i s hc hr h hok hraw => ?_⟩
  by_cases hi : i = .init
  · subst hi
    exact exec_init_mirrorsReflect hc hok
  · exact exec_mirrorsReflect hc hr hi h hok hraw

end Sys2Proof.Machine
end

