-- ==== Sys2Proof/Proofs/PinRecord.lean ====
section
/-! What has been observed only grows, and the address space agrees with the record of what the pins have held (20_memory.md
R30, R34): whatever an operation does to either, it does to both, by writes at `I2C_ADDR` (`Appended`). -/

namespace Sys2Proof.Machine

/-! ## Writes one after the other -/

/-- The address space after the given bytes have been put on the pins, the first one first. -/
def Memory.writeAll (m : Memory) (pins : List (I2cAddr × Byte)) : Memory :=
  pins.foldl (fun m p => m.write p.1.toNat p.2) m

/-- The bytes put on the pins at an address, the first one first. -/
def bytesAt (x : Nat) (pins : List (I2cAddr × Byte)) : List Byte :=
  (pins.filter fun p => decide (p.1.toNat = x)).map fun p => p.2

theorem pinsAt_eq_bytesAt (s : State) (a : I2cAddr) : s.pinsAt a = bytesAt a.toNat s.pinLog := by
  simp [State.pinsAt, bytesAt, BitVec.toNat_inj]

theorem bytesAt_append (x : Nat) (ps qs : List (I2cAddr × Byte)) : bytesAt x (ps ++ qs) = bytesAt x ps ++ bytesAt x qs := by
  simp [bytesAt]

/-- An address reads as the last byte written to it, and as before where none was. -/
theorem read_writeAll (m : Memory) (pins : List (I2cAddr × Byte)) (x : Nat) :
    (m.writeAll pins).read x = (bytesAt x pins).getLast?.or (m.read x) := by
  induction pins generalizing m with
  | nil => rfl
  | cons p rest ih =>
    rw [show p :: rest = [p] ++ rest from rfl, bytesAt_append, List.getLast?_append, Option.or_assoc]
    refine (ih (m.write p.1.toNat p.2)).trans (congrArg _ ?_)
    by_cases hx : p.1.toNat = x
    · simp [bytesAt, ← hx, memory_read_write_same]
    · simp [bytesAt, hx, memory_read_write_other m p.2 (Ne.symm hx)]

theorem writeAll_wf {m : Memory} (pins : List (I2cAddr × Byte)) (h : m.wf = true) : (m.writeAll pins).wf = true := by
  induction pins generalizing m with
  | nil => exact h
  | cons p rest ih => exact ih (memory_write_wf m p.1 p.2 h)

/-! ## What an operation adds to the observation -/

/-- From `s` to `t` the trace and the record of the pins have grown, and the address space has taken the same bytes as the
record, all of them at `I2C_ADDR`. -/
structure Appended (s t : State) : Prop where
  i2cAddr : t.i2cAddr = s.i2cAddr
  trace : ∃ evs, t.trace = s.trace ++ evs
  pins : ∃ pins, (∀ p ∈ pins, p.1 = s.i2cAddr) ∧ t.pinLog = s.pinLog ++ pins ∧ t.expander = s.expander.writeAll pins

/-- Nothing has been added. -/
theorem Appended.of_same {s t : State} (ha : t.i2cAddr = s.i2cAddr) (ht : t.trace = s.trace) (hp : t.pinLog = s.pinLog)
    (he : t.expander = s.expander) : Appended s t :=
  ⟨ha, ⟨[], by simp [ht]⟩, [], by simp, by simp [hp], he⟩

theorem Appended.trans {s t u : State} (h : Appended s t) (g : Appended t u) : Appended s u := by
  obtain ⟨ha, ⟨xs, hx⟩, ps, hps, hp, he⟩ := h
  obtain ⟨ga, ⟨ys, gy⟩, qs, gqs, gq, ge⟩ := g
  refine ⟨ga.trans ha, ⟨xs ++ ys, by rw [gy, hx, List.append_assoc]⟩, ps ++ qs, fun p hm => ?_, ?_, ?_⟩
  · exact (List.mem_append.mp hm).elim (hps p) fun hm => (gqs p hm).trans ha
  · rw [gq, hp, List.append_assoc]
  · rw [ge, he, Memory.writeAll, Memory.writeAll, Memory.writeAll, List.foldl_append]

theorem Appended.andThen {s : State} {r : Run} {f : State → Run} (h : Appended s r.state)
    (hf : ∀ t, Appended t (f t).state) : Appended s (r.andThen f).state := by
  cases r with
  | going t => exact h.trans (hf t)
  | failed t => exact h
  | stopped t => exact h

theorem appended_memWrite (v : Byte) (s : State) : Appended s (memWrite v s).state := by
  cases h : s.answerAt 0 with
  | ok => rw [memWrite_ok v h]; exact ⟨rfl, ⟨[_], rfl⟩, [_], by simp, rfl, rfl⟩
  | err => rw [memWrite_err v h]; exact ⟨rfl, ⟨[_], rfl⟩, [_], by simp, rfl, rfl⟩
  | never => rw [memWrite_never v h]; exact ⟨rfl, ⟨[], by simp [Run.state]⟩, [_], by simp, rfl, rfl⟩

theorem appended_hold (d : DelayName) (s : State) : Appended s (hold d s).state := by
  obtain h | ⟨a, h⟩ := hold_cases d s <;> rw [h]
  · exact ⟨rfl, ⟨[.delay d], rfl⟩, [], by simp, by simp [Run.state], rfl⟩
  · exact .of_same rfl rfl rfl rfl

theorem appended_run (ms : List Micro) (s : State) : Appended s (run ms s).state := by
  induction ms generalizing s with
  | nil => exact .of_same rfl rfl rfl rfl
  | cons m rest ih =>
    cases m with
    | put v => exact (appended_memWrite v s).andThen ih
    | hold d => exact (appended_hold d s).andThen ih

/-- A mirror stored before the run that sends it adds nothing. -/
theorem appended_initCommands (s : State) : Appended s (initCommands s).state := by
  have stored {t : State} (d e f : Byte) (ms : List Micro) :
      Appended t (run ms (t.withMirrors d e f)).state :=
    Appended.trans (t := t.withMirrors d e f) (.of_same rfl rfl rfl rfl) (appended_run ms _)
  rw [initCommands_eq_runs]
  exact ((((stored _ _ _ _).andThen fun _ => stored _ _ _ _).andThen fun _ => stored _ _ _ _).andThen fun _ =>
    appended_run _ _).andThen (appended_run _)

theorem appended_initRun (s : State) : Appended s (initRun s).state := by
  rw [initRun, bringUp_eq_run]
  have hphase : Appended s { s with phase := .uninit } := .of_same rfl rfl rfl rfl
  exact (hphase.trans (appended_run _ _)).andThen appended_initCommands

@[simp] theorem storing_pinLog (i : Instr) (s : State) : (storing i s).pinLog = s.pinLog := by cases i <;> rfl
@[simp] theorem storing_responses (i : Instr) (s : State) : (storing i s).responses = s.responses := by cases i <;> rfl

theorem appended_storing (i : Instr) (s : State) : Appended s (storing i s) :=
  .of_same (storing_i2cAddr i s) (storing_trace i s) (storing_pinLog i s) (storing_expander i s)

theorem Appended.respond {s t : State} (h : Appended s t) (st : Status) : Appended s (respond st t) :=
  h.trans (.of_same rfl rfl rfl rfl)

/-- Every operation, in any phase and with any operands, whatever the environment does. -/
theorem exec_appended {i : Instr} {s t : State} (h : exec i s = .next t) : Appended s t := by
  by_cases hi : i = .init
  · subst hi
    have hrun := appended_initRun s
    obtain ⟨u, hr, rfl⟩ | ⟨u, hr, rfl⟩ | hr := exec_init_cases h <;> rw [hr] at hrun
    · exact hrun.trans (.of_same rfl rfl rfl rfl)
    · exact hrun.trans (.of_same rfl rfl rfl rfl)
    · exact hrun
  obtain ⟨-, he⟩ | ⟨-, he⟩ | ⟨-, he⟩ := exec_cases hi s <;> rw [he] at h
  · obtain rfl := Host.Outcome.next.inj h
    exact .of_same rfl rfl rfl rfl
  · obtain rfl := Host.Outcome.next.inj h
    exact .of_same rfl rfl rfl rfl
  · have hrun := (appended_storing i s).trans (appended_run (microsOf i (storing i s)) (storing i s))
    obtain ⟨st, rfl⟩ | hr := endOperation_cases h
    · exact hrun.respond st
    · rwa [hr] at hrun

/-- An operation posts one response or none. -/
theorem exec_responses {i : Instr} {s t : State} (h : exec i s = .next t) :
    ∃ sts, t.responses = s.responses ++ sts ∧ sts.length ≤ 1 := by
  by_cases hi : i = .init
  · subst hi
    obtain ⟨-, hst, -⟩ | ⟨-, hst, -⟩ | ⟨-, hst, -⟩ := initPhaseFollowsStatus s t h
    · exact ⟨[.ok], hst, le_rfl⟩
    · exact ⟨[.initializationFailure], hst, le_rfl⟩
    · exact ⟨[], by simp [hst], by simp⟩
  obtain ⟨-, he⟩ | ⟨-, he⟩ | ⟨-, he⟩ := exec_cases hi s <;> rw [he] at h
  · obtain rfl := Host.Outcome.next.inj h
    exact ⟨[.notReady], rfl, le_rfl⟩
  · obtain rfl := Host.Outcome.next.inj h
    exact ⟨[.invalidArgument], rfl, le_rfl⟩
  · have hst := (run_kept (microsOf i (storing i s)) (storing i s)).responses
    rw [storing_responses] at hst
    obtain ⟨st, rfl⟩ | hr := endOperation_cases h
    · exact ⟨[st], by rw [respond_responses, hst], le_rfl⟩
    · rw [hr] at hst
      exact ⟨[], hst.trans (List.append_nil _).symm, by simp⟩

/-! ## Steps -/

/-- The state with the given inputs still to come. -/
def State.withInputs (rest : List Input) (s : State) : State := { s with inputs := rest }

@[simp] theorem withInputs_trace (rest : List Input) (s : State) : (s.withInputs rest).trace = s.trace := rfl
@[simp] theorem withInputs_responses (rest : List Input) (s : State) : (s.withInputs rest).responses = s.responses := rfl
@[simp] theorem withInputs_pinLog (rest : List Input) (s : State) : (s.withInputs rest).pinLog = s.pinLog := rfl

/-- Wherever the sequencer stands, a step that answers a next state is an operation, a reset, a wait, or the refusal of an
unassigned opcode. -/
theorem step_cases {s t : State} (h : step s = .next t) :
    (∃ i rest, exec i (s.withInputs rest) = .next t) ∨ (∃ a rest, t = applyReset a (s.withInputs rest)) ∨
      t = s ∨ ∃ rest, t = respond .invalidArgument (s.withInputs rest) := by
  match hs : s.sequencer with
  | .boot => exact .inl ⟨.init, s.inputs, (step_boot hs).symm.trans h⟩
  | .waiting a v =>
    rw [step_waiting hs, hungStep] at h
    split at h
    · exact .inr (.inl ⟨_, _, (Host.Outcome.next.inj h).symm⟩)
    · cases h
  | .resetting a => exact .inr (.inl ⟨a, s.inputs, Host.Outcome.next.inj (h.symm.trans (step_resetting hs))⟩)
  | .idle =>
    match hi : s.inputs with
    | [] => exact .inr (.inr (.inl (Host.Outcome.next.inj (h.symm.trans (step_idle hs hi)))))
    | .reset a :: rest =>
      exact .inr (.inl ⟨a, rest, Host.Outcome.next.inj (h.symm.trans (step_idle_reset hs hi))⟩)
    | .request r :: rest =>
      match hd : decode r with
      | .ok i => exact .inl ⟨i, rest, (step_idle_request hs hi hd).symm.trans h⟩
      | .error e => exact .inr (.inr (.inr ⟨rest, Host.Outcome.next.inj (h.symm.trans (step_idle_illegal hs hi hd))⟩))

/-- Bytes that go to the address space and to its record alike keep the two in agreement. -/
theorem Appended.pinsAgree {s t : State} (h : Appended s t) (hs : PinsAgree s) : PinsAgree t := by
  obtain ⟨-, -, pins, -, hlog, hexp⟩ := h
  intro a
  rw [hexp, read_writeAll, hs a, pinsAt_eq_bytesAt, pinsAt_eq_bytesAt, hlog, bytesAt_append, List.getLast?_append]

/-- Settles O47: an operation gives the address space and its record the same bytes (`exec_appended`), and no other step
touches either. -/
theorem pinsAgreeWithTheirRecord : Obligations.PinsAgreeWithTheirRecord := by
  refine ⟨fun _ => rfl, fun s t hs h => ?_⟩
  obtain ⟨i, rest, h⟩ | ⟨a, rest, rfl⟩ | rfl | ⟨rest, rfl⟩ := step_cases h
  · exact (exec_appended h).pinsAgree hs
  · exact hs
  · exact hs
  · exact hs

/-- Settles O46: an operation appends (`exec_appended`) and posts at most one response (`exec_responses`); of the other steps
only a refusal adds anything, its response. -/
theorem stepOnlyAppends : Obligations.StepOnlyAppends := by
  intro s t h
  obtain ⟨i, rest, h⟩ | ⟨a, rest, rfl⟩ | rfl | ⟨rest, rfl⟩ := step_cases h
  · obtain ⟨-, htrace, pins, -, hlog, hexp⟩ := exec_appended h
    have hresponses := exec_responses h
    exact ⟨htrace, hresponses, ⟨pins, hlog⟩, fun hwf => hexp ▸ writeAll_wf pins hwf⟩
  · exact ⟨⟨[], by simp⟩, ⟨[], by simp⟩, ⟨[], by simp⟩, id⟩
  · exact ⟨⟨[], by simp⟩, ⟨[], by simp⟩, ⟨[], by simp⟩, id⟩
  · exact ⟨⟨[], by simp⟩, ⟨[.invalidArgument], by simp⟩, ⟨[], by simp⟩, id⟩

end Sys2Proof.Machine
end

