-- ==== Sys2Proof/Proofs/Disturbed.lean ====
section
/-! What an admitted operation other than INIT does when the environment disturbs it, with the parameters of R6: a write that
fails (`exec_failing`), a write never answered (`exec_hanging`), a reset in a delay (`exec_cut`). -/

namespace Sys2Proof.Machine

/-- The trace up to a write has as many writes as its index says. -/
theorem writeCount_cutBefore {a : I2cAddr} {k : Nat} (ms : List Micro) (hk : k < writeCount (eventsOf a ms)) :
    writeCount (cutBefore k (eventsOf a ms)) = k := by
  induction ms generalizing k with
  | nil => exact absurd hk (by simp)
  | cons m rest ih =>
    cases m with
    | put v =>
      cases k with
      | zero => rfl
      | succ k =>
        rw [eventsOf_put, writeCount_written] at hk
        rw [eventsOf_put, cutBefore, writeCount_written, ih (by omega)]
    | hold d =>
      rw [eventsOf_hold, writeCount_delay] at hk
      cases k <;> exact ih hk

section
variable {i : Instr} {s : State} (hc : s.cfg = Config.defaults) (hi : i ≠ .init) (hw : i.wf = true)
include hc hi hw

theorem eventsOf_stored : eventsOf (stored i s).i2cAddr (microsOf i (stored i s)) = planned i s :=
  eventsOf_microsOf i (stored i s) ((stored_cfg i s).trans hc) hi hw

theorem writeCount_cutBefore_planned {k : Nat} (hk : k < writeCount (planned i s)) :
    writeCount (cutBefore k (planned i s)) = k := by
  rw [← eventsOf_stored hc hi hw] at hk ⊢
  exact writeCount_cutBefore _ hk

variable (hr : s.phase = .ready)
include hr

/-- Failing at its write `k`, which ends it (R161). -/
theorem exec_failing {k : Nat} (h : s.failsAt k (planned i s)) :
    ∃ v, writeAt k (planned i s) = some (s.i2cAddr, v) ∧ exec i s =
      .next (respond .transportError (((stored i s).afterEvents (cutBefore k (planned i s))).wroteBadly v)) := by
  have hevents := eventsOf_stored hc hi hw
  obtain ⟨v, hv, hrun⟩ := run_fail (microsOf i (stored i s)) (stored i s) (by rw [hevents]; exact stored_failsAt h)
  rw [hevents] at hv hrun
  exact ⟨v, by rw [hv, stored_i2cAddr], by rw [exec_eq_run i hc hr hi hw, hrun]; rfl⟩

/-- Its write `k` never answered, on which it waits (R208). -/
theorem exec_hanging {k : Nat} (h : s.hangsAt k (planned i s)) :
    ∃ v, writeAt k (planned i s) = some (s.i2cAddr, v) ∧
      exec i s = .next (((stored i s).afterEvents (cutBefore k (planned i s))).writePending v) := by
  have hevents := eventsOf_stored hc hi hw
  obtain ⟨v, hv, hrun⟩ := run_hang (microsOf i (stored i s)) (stored i s) (by rw [hevents]; exact stored_hangsAt h)
  rw [hevents] at hv hrun
  exact ⟨v, by rw [hv, stored_i2cAddr], by rw [exec_eq_run i hc hr hi hw, hrun]; rfl⟩

/-- A reset inside its delay `j`, which stops it (R175). -/
theorem exec_cut {j : Nat} {a : I2cAddr} (h : s.cutAt j a (planned i s)) :
    exec i s = .next { (stored i s).afterEvents (cutBeforeDelay j (planned i s)) with
      sequencer := .resetting a, delayResets := s.delayResets.tail } := by
  have hevents := eventsOf_stored hc hi hw
  rw [exec_eq_run i hc hr hi hw, run_cut _ _ (by rw [hevents]; exact stored_cutAt h), hevents, stored_delayResets]
  rfl

end

/-- Settles O33: the four things the environment may do to the operation's one run, each with its whole end state. -/
theorem operationIsPlannedTraceCutAtFirstFailure : Obligations.OperationIsPlannedTraceCutAtFirstFailure := by
  intro i s hc hr hi hw
  refine ⟨exec_undisturbed hc hr hi hw, fun k h => ?_, fun k h => ?_, fun j a h => ?_⟩
  · obtain ⟨v, hv, he⟩ := exec_failing hc hi hw hr h
    have hcount : writeCount (cutBefore k (planned i s)) = k := writeCount_cutBefore_planned hc hi hw h.1
    refine ⟨_, he, ?_, ?_, by simp [sameRegisters], ?_, rfl, ?_, ?_⟩
    · simp [cutFailed, hv, stored_trace, stored_i2cAddr]
    · simp [stored_responses]
    · simp [stored_inputs]
    · simp [stored_answers, hcount]
    · simp [stored_transportCalls, hcount, Nat.add_assoc]
  · obtain ⟨v, hv, he⟩ := exec_hanging hc hi hw hr h
    refine ⟨_, v, he, ?_, ?_, hv, ?_, by simp [sameRegisters], ?_⟩
    · simp [stored_trace]
    · simp [stored_responses]
    · simp [stored_i2cAddr]
    · simp [stored_inputs]
  · refine ⟨_, exec_cut hc hi hw hr h, ?_, ?_, rfl, by simp [sameRegisters], ?_⟩
    · simp [stored_trace]
    · simp [stored_responses]
    · simp [stored_inputs]

end Sys2Proof.Machine
end

