-- ==== Sys2Proof/Proofs/AddressedLatch.lean ====
section
/-! The one location an operation changes, and what it holds when nothing has disturbed the operation (20_memory.md R30, R34). -/

namespace Sys2Proof.Machine

/-- Every write of a piece of trace is to `a`, and puts its byte on the pins there. -/
def AllLand (a : I2cAddr) (evs : List Event) : Prop := ∀ e ∈ evs, e.pins = e.byte.map (Prod.mk a)

theorem allLand_eventsOf (a : I2cAddr) (ms : List Micro) : AllLand a (eventsOf a ms) := by
  intro e he
  obtain ⟨m, -, rfl⟩ := List.mem_map.mp he
  cases m <;> rfl

theorem AllLand.append {a : I2cAddr} {xs ys : List Event} (hx : AllLand a xs) (hy : AllLand a ys) :
    AllLand a (xs ++ ys) := List.forall_mem_append.mpr ⟨hx, hy⟩

theorem allLand_delay (a : I2cAddr) (d : DelayName) : AllLand a [.delay d] := allLand_eventsOf a [.hold d]

theorem AllLand.pins {a : I2cAddr} {evs : List Event} (h : AllLand a evs) :
    evs.filterMap Event.pins = (evs.filterMap Event.byte).map (Prod.mk a) := by
  rw [List.map_filterMap]
  exact List.filterMap_congr h

theorem allLand_initEvents {s : State} (hc : s.cfg = Config.defaults) : AllLand s.i2cAddr (initEvents s) := by
  have command (v : Byte) : AllLand s.i2cAddr (byteEvents s v false) :=
    eventsOf_byteMicros s v false hc ▸ allLand_eventsOf s.i2cAddr _
  have bringUp : AllLand s.i2cAddr (bringUpEvents s) := eventsOf_bringUpMicros s hc ▸ allLand_eventsOf s.i2cAddr _
  rw [initEvents_eq]
  exact bringUp.append ((command 0x28).append ((command 0x0C).append ((command 0x06).append ((command 0x01).append
    (allLand_delay _ _)))))

theorem allLand_planned {i : Instr} {s : State} (hc : s.cfg = Config.defaults) (hw : i.wf = true) :
    AllLand s.i2cAddr (planned i s) := by
  by_cases hi : i = .init
  · subst hi
    exact allLand_initEvents hc
  · rw [← eventsOf_stored hc hi hw, stored_i2cAddr]
    exact allLand_eventsOf _ _

theorem bytesAt_map (a : I2cAddr) (vs : List Byte) : bytesAt a.toNat (vs.map (Prod.mk a)) = vs := by
  induction vs with
  | nil => rfl
  | cons v rest ih => simpa [bytesAt] using ih

theorem afterEvents_expander_eq (s : State) (evs : List Event) :
    (s.afterEvents evs).expander = s.expander.writeAll (evs.filterMap Event.pins) := by
  rw [afterEvents_expander]
  generalize s.expander = m
  induction evs generalizing m with
  | nil => rfl
  | cons e rest ih => cases e <;> exact ih _

theorem read_afterEvents {a : I2cAddr} {evs : List Event} (h : AllLand a evs) (s : State) :
    (s.afterEvents evs).expander.read a.toNat = (evs.filterMap Event.byte).getLast?.or (s.expander.read a.toNat) := by
  rw [afterEvents_expander_eq, read_writeAll, h.pins, bytesAt_map]

theorem stored_expander (i : Instr) (s : State) : (stored i s).expander = s.expander := by cases i <;> rfl

theorem Appended.read_other {s t : State} (h : Appended s t) {x : Nat} (hx : x ≠ s.i2cAddr.toNat) :
    t.expander.read x = s.expander.read x := by
  obtain ⟨-, -, pins, hpins, -, hexp⟩ := h
  have hnone : bytesAt x pins = [] := by
    refine List.map_eq_nil_iff.mpr (List.filter_eq_nil_iff.mpr fun p hp => ?_)
    simpa [hpins p hp] using Ne.symm hx
  rw [hexp, read_writeAll, hnone]
  rfl

theorem planned_init (s : State) : planned .init s = initEvents s := rfl

/-- Settles O41: an operation's writes all go to `I2C_ADDR` (`exec_appended`), and undisturbed they are those of its planned
trace. -/
theorem onlyTheAddressedLatchChanges : Obligations.OnlyTheAddressedLatchChanges := by
  refine ⟨fun i s t h => ?_, fun i s hc hadmitted hw hok => ?_⟩
  · have ha := exec_appended h
    have ⟨_, _, pins, hpins, hlog, _⟩ := ha
    exact ⟨fun x hx => ha.read_other hx, pins, hlog, hpins⟩
  · have hland := allLand_planned hc hw
    by_cases hi : i = .init
    · subst hi
      rw [planned_init] at hok hland ⊢
      refine ⟨_, exec_init_undisturbed hc hok, ?_⟩
      rw [respond_expander, read_afterEvents hland]
      rfl
    · refine ⟨_, exec_undisturbed hc (hadmitted.resolve_left hi) hi hw hok, ?_⟩
      rw [respond_expander, read_afterEvents hland, stored_expander]

end Sys2Proof.Machine
end

