-- ==== Sys2Proof/Proofs/LatchedNibbles.lean ====
section
/-! What the controller behind the expander latches of an operation's writes (20_memory.md R36, R37; 10_state.md R24), with the
parameters of R6. -/

namespace Sys2Proof.Machine

/-! ## Events appended to the record of the pins -/

theorem cutBefore_sublist (k : Nat) (evs : List Event) : (cutBefore k evs).Sublist evs := by
  induction k, evs using cutBefore.induct with
  | case1 => exact List.Sublist.refl _
  | case2 => exact List.nil_sublist _
  | case3 k a v rest ih | case4 k a v rest ih | case5 k d rest ih =>
    rw [cutBefore]
    exact ih.cons_cons _

theorem AllLand.cut {a : I2cAddr} {evs : List Event} (h : AllLand a evs) (k : Nat) : AllLand a (cutBefore k evs) :=
  fun e he => h e ((cutBefore_sublist k evs).subset he)

theorem pinsAt_afterEvents {a : I2cAddr} {evs : List Event} (h : AllLand a evs) (s : State) :
    (s.afterEvents evs).pinsAt a = s.pinsAt a ++ evs.filterMap Event.byte := by
  rw [pinsAt_eq_bytesAt, pinsAt_eq_bytesAt, afterEvents_pinLog, bytesAt_append, h.pins, bytesAt_map]

/-- The first write of a piece of trace, if it has one, sets the enable pin. -/
def EnableFirst (evs : List Event) : Prop := ∀ v ∈ (evs.filterMap Event.byte).head?, hasFlag 0x04 v = true

theorem hasFlag_enable : ∀ x : Byte, hasFlag 0x04 (x ||| 0x04) = true := by decide

theorem enableFirst_written (a : I2cAddr) (x : Byte) (rest : List Event) :
    EnableFirst (.written a (x ||| 0x04) :: rest) := by
  intro v hv
  obtain rfl := Option.some.inj hv
  exact hasFlag_enable x

/-- A first write that sets the enable pin makes no edge, so what follows is latched whatever was on the pins before. -/
theorem latched_afterEvents {s : State} {a : I2cAddr} {evs : List Event} (hc : s.cfg = Config.defaults)
    (hland : AllLand a evs) (hfirst : EnableFirst evs) :
    (s.afterEvents evs).latched a = s.latched a ++ latchedIn Config.defaults evs := by
  rw [State.latched, State.latched, pinsAt_afterEvents hland, afterEvents_cfg, hc, latchedIn]
  rw [EnableFirst] at hfirst
  cases hb : evs.filterMap Event.byte with
  | nil => simp [latchedFrom]
  | cons v rest =>
    have hv : hasFlag Config.defaults.pinEn v = true := hfirst v (by simp [hb])
    rw [latchedFrom_enable_set _ _ _ _ hv, latchedFrom, if_pos hv]

/-- One byte more on the pins makes at most one edge. -/
theorem latchedFrom_concat (c : Config) (high : Bool) (xs : List Byte) (v : Byte) :
    ∃ edge, edge.length ≤ 1 ∧ latchedFrom c high (xs ++ [v]) = latchedFrom c high xs ++ edge := by
  induction xs generalizing high with
  | nil =>
    refine ⟨_, ?_, (List.nil_append _).symm⟩
    simp only [List.nil_append, latchedFrom]
    split
    · simp
    · split <;> simp
  | cons x rest ih =>
    simp only [List.cons_append, latchedFrom]
    split
    · exact ih true
    · obtain ⟨edge, hedge, h⟩ := ih false
      refine ⟨edge, hedge, ?_⟩
      split <;> simp [h]

theorem latched_wroteBadly (s : State) (v : Byte) :
    ∃ edge, edge.length ≤ 1 ∧ (s.wroteBadly v).latched s.i2cAddr = s.latched s.i2cAddr ++ edge := by
  have hpins : (s.wroteBadly v).pinsAt s.i2cAddr = s.pinsAt s.i2cAddr ++ [Config.pinsAfterFailedWrite s.transportCalls] :=
    pinsAt_setPins_same _ _ _
  rw [State.latched, State.latched, hpins]
  exact latchedFrom_concat _ _ _ _

/-! ## What pieces of trace latch -/

/-- A piece of trace is whole pulses and settle delays, and its latched pairs are `nibbles`. -/
structure Latches (evs : List Event) (nibbles : List (Bool × Nibble)) : Prop where
  whole : wholePulses Config.defaults evs = true
  latched : latchedIn Config.defaults evs = nibbles

theorem Latches.append {xs ys : List Event} {ps qs : List (Bool × Nibble)} (hx : Latches xs ps) (hy : Latches ys qs) :
    Latches (xs ++ ys) (ps ++ qs) :=
  ⟨(wholePulses_append ys hx.whole).trans hy.whole, by rw [latchedIn_append ys hx.whole, hx.latched, hy.latched]⟩

theorem latches_pulseEvents (s : State) {p : Byte} (hp : p &&& 0x04 = 0) :
    Latches (pulseEvents s p) [(hasFlag 0x01 p, nibbleOf p)] :=
  ⟨(pulseEvents_whole s hp).1, (pulseEvents_whole s hp).2⟩

/-- The pairs a byte is latched as: high nibble first, the register-select with each (R36, R37). -/
def nibblesOf (v : Byte) (data : Bool) : List (Bool × Nibble) := [(data, v.extractLsb' 4 4), (data, v.extractLsb' 0 4)]

/-- The two payloads of a byte: its mode flag at the register-select, its nibbles on the data pins, enable clear. -/
theorem payload_nibbles : ∀ (v : Byte) (data : Bool),
    ((hasFlag 0x01 (highPayload Config.defaults v data), nibbleOf (highPayload Config.defaults v data)) =
        (data, v.extractLsb' 4 4) ∧
      (hasFlag 0x01 (lowPayload Config.defaults v data), nibbleOf (lowPayload Config.defaults v data)) =
        (data, v.extractLsb' 0 4)) ∧
    highPayload Config.defaults v data &&& 0x04 = 0 ∧ lowPayload Config.defaults v data &&& 0x04 = 0 := by decide

theorem byteEvents_eq (s : State) (v : Byte) (data : Bool) : byteEvents s v data =
    pulseEvents s (highPayload Config.defaults v data) ++ pulseEvents s (lowPayload Config.defaults v data) := rfl

theorem latches_highPulse (s : State) (v : Byte) (data : Bool) :
    Latches (pulseEvents s (highPayload Config.defaults v data)) [(data, v.extractLsb' 4 4)] := by
  obtain ⟨⟨hpair, -⟩, hen, -⟩ := payload_nibbles v data
  rw [← hpair]
  exact latches_pulseEvents s hen

theorem latches_lowPulse (s : State) (v : Byte) (data : Bool) :
    Latches (pulseEvents s (lowPayload Config.defaults v data)) [(data, v.extractLsb' 0 4)] := by
  obtain ⟨⟨-, hpair⟩, -, hen⟩ := payload_nibbles v data
  rw [← hpair]
  exact latches_pulseEvents s hen

theorem latches_byteEvents (s : State) (v : Byte) (data : Bool) : Latches (byteEvents s v data) (nibblesOf v data) :=
  (latches_highPulse s v data).append (latches_lowPulse s v data)

/-- The first write of a pulse makes no edge. -/
theorem latchedIn_cutBefore_one (s : State) (p : Byte) : latchedIn Config.defaults (cutBefore 1 (pulseEvents s p)) = [] :=
  if_pos (hasFlag_enable _)

/-- Cut before its write `k`, a byte has latched the nibbles of its whole pulses. -/
theorem latchedIn_cutBefore_byteEvents (s : State) (v : Byte) (data : Bool) {k : Nat} (hk : k < 4) :
    latchedIn Config.defaults (cutBefore k (byteEvents s v data)) = (nibblesOf v data).take (k / 2) := by
  have hhigh := latches_highPulse s v data
  match k, hk with
  | 0, _ => rfl
  | 1, _ => exact latchedIn_cutBefore_one s _
  | 2, _ => exact hhigh.latched
  | 3, _ =>
    refine (latchedIn_append (cutBefore 1 (pulseEvents s (lowPayload Config.defaults v data))) hhigh.whole).trans ?_
    rw [hhigh.latched, latchedIn_cutBefore_one]
    rfl

/-- INIT's nibbles: 3, 3, 3, 2, then those of its four commands (R100). -/
def initNibbles : List (Bool × Nibble) :=
  [(false, 0x3), (false, 0x3), (false, 0x3), (false, 0x2)] ++
    (nibblesOf 0x28 false ++ (nibblesOf 0x0C false ++ (nibblesOf 0x06 false ++ nibblesOf 0x01 false)))

theorem latches_initEvents (s : State) : Latches (initEvents s) initNibbles := by
  have raw (p : Byte) (hp : p &&& 0x04 = 0) := latches_pulseEvents s hp
  have settled : Latches (pulseEvents s 0x30 ++ [.delay .initSettle]) [(false, 0x3)] :=
    (raw 0x30 (by decide)).append (qs := []) ⟨rfl, rfl⟩
  have command (v : Byte) : Latches (commandEvents s v) (nibblesOf v false) := latches_byteEvents s v false
  rw [initEvents_eq]
  exact (((settled.append settled).append settled).append (raw 0x20 (by decide))).append
    ((command 0x28).append ((command 0x0C).append ((command 0x06).append
      ((command 0x01).append (qs := []) ⟨rfl, rfl⟩))))

/-! ## The operations that send one byte, and INIT -/

/-- The operation that sends a byte with a mode flag (R118, R119). -/
def sendOf (v : Byte) (data : Bool) : Instr := if data then .sendData v else .sendCommand v

theorem sendOf_ne_init (v : Byte) (data : Bool) : sendOf v data ≠ .init := by cases data <;> exact Instr.noConfusion
theorem sendOf_wf (v : Byte) (data : Bool) : (sendOf v data).wf = true := by cases data <;> rfl
theorem stored_sendOf (v : Byte) (data : Bool) (s : State) : stored (sendOf v data) s = s := by cases data <;> rfl
theorem planned_sendOf (v : Byte) (data : Bool) (s : State) : planned (sendOf v data) s = byteEvents s v data := by
  cases data <;> rfl

section
variable {v : Byte} {data : Bool} {s : State} (hc : s.cfg = Config.defaults)
include hc

theorem allLand_byteEvents : AllLand s.i2cAddr (byteEvents s v data) :=
  eventsOf_byteMicros s v data hc ▸ allLand_eventsOf s.i2cAddr _

variable (hr : s.phase = .ready)
include hr

theorem sendOf_latched (hok : s.okFor (byteEvents s v data)) :
    ∃ t, exec (sendOf v data) s = .next t ∧ t.latched s.i2cAddr = s.latched s.i2cAddr ++ nibblesOf v data := by
  rw [← planned_sendOf] at hok
  refine ⟨_, exec_undisturbed hc hr (sendOf_ne_init v data) (sendOf_wf v data) hok, ?_⟩
  rw [stored_sendOf, planned_sendOf, ← (latches_byteEvents s v data).latched]
  exact latched_afterEvents hc (allLand_byteEvents hc) (enableFirst_written _ _ _)

theorem sendOf_failing_latched {k : Nat} (hfails : s.failsAt k (byteEvents s v data)) :
    ∃ t edge, exec (sendOf v data) s = .next t ∧ edge.length ≤ 1 ∧
      t.latched s.i2cAddr = s.latched s.i2cAddr ++ (nibblesOf v data).take (k / 2) ++ edge := by
  have hk : k < 4 := hfails.1
  have hfirst : EnableFirst (cutBefore k (byteEvents s v data)) := by
    cases k with
    | zero => exact fun w hw => absurd hw (by simp [byteEvents, pulseEvents, cutBefore])
    | succ k => exact enableFirst_written _ _ _
  have hcut := latched_afterEvents hc ((allLand_byteEvents hc).cut k) hfirst
  rw [latchedIn_cutBefore_byteEvents s v data hk] at hcut
  rw [← planned_sendOf] at hfails
  obtain ⟨w, -, he⟩ := exec_failing hc (sendOf_ne_init v data) (sendOf_wf v data) hr hfails
  rw [stored_sendOf, planned_sendOf] at he
  obtain ⟨edge, hedge, hw⟩ := latched_wroteBadly (s.afterEvents (cutBefore k (byteEvents s v data))) w
  exact ⟨_, edge, he, hedge, hw.trans (congrArg (· ++ edge) hcut)⟩

end

/-- Settles O44: an operation's planned trace starts with enable set, so its nibbles are latched after whatever was before
(`latched_afterEvents`); a failed write adds at most the edge of its free pins (`latched_wroteBadly`). -/
theorem controllerLatchesNibblesHighFirst : Obligations.ControllerLatchesNibblesHighFirst := by
  refine ⟨fun v data s hc hr => ⟨sendOf_latched hc hr, fun k => sendOf_failing_latched hc hr⟩, fun s hc hok => ?_⟩
  refine ⟨_, initNibbles, exec_init_undisturbed hc hok, ?_, rfl, by decide⟩
  rw [← (latches_initEvents s).latched]
  exact latched_afterEvents (s := withInitMirrors { s with phase := .ready }) hc (allLand_initEvents hc)
    (enableFirst_written _ _ _)

end Sys2Proof.Machine
end

