-- ==== Sys2Proof/Proofs/Decoder.lean ====
section
/-! What the decoder makes of a request (30_encoding.md R64 to R67): the operation whose opcode the request carries and whose
operands it supplies (`decode_ok`), and nothing else (`decode_cases`). -/

namespace Sys2Proof

/-! ## Requests that stand for an operation -/

/-- The operands of the operation are the fields of the request that its format uses (R65). -/
def Instr.ReadFrom (r : Request) : Instr → Prop
  | .setCursor col row => col = aField r.word ∧ row = bField r.word
  | .write text => text = r.text
  | .writeln text line => text = r.text ∧ line = aField r.word
  | .sendCommand byte => byte = aField r.word
  | .sendData byte => byte = aField r.word
  | _ => True

theorem readFrom_encode (i : Instr) : i.ReadFrom (encode i) := by
  have ha : aField (encode i).word = i.aOperand := aField_packWord _ _ _
  have hb : bField (encode i).word = i.bOperand := bField_packWord _ _ _
  cases i with
  | setCursor col row => exact ⟨ha.symm, hb.symm⟩
  | write text => rfl
  | writeln text line => exact ⟨rfl, ha.symm⟩
  | sendCommand byte => exact ha.symm
  | sendData byte => exact ha.symm
  | _ => trivial

open Laws.EncodedOpcode in
theorem encodedOpcode (i : Instr) : Laws.EncodedOpcode.Statement i := by
  cases i
  exacts [init, clear, home, displayOff, displayOn, cursorOff, cursorOn, blinkOff, blinkOn, rightToLeft, leftToRight,
    autoscrollOff, autoscrollOn, backlightOff, backlightOn, cursorMoveLeft, cursorMoveRight, displayMoveLeft,
    displayMoveRight, setCursor _ _, write _, writeln _ _, sendCommand _, sendData _]

theorem opField_encode (i : Instr) : opField (encode i).word = i.opcode := (encodedOpcode i).1

theorem opcode_assigned (i : Instr) : i.opcode ∈ assignedOpcodes := (encodedOpcode i).2

/-! ## The decoder -/

/-- A request with the opcode of an operation decodes to it with the operands it supplies (R66). -/
theorem decode_ok {r : Request} {i : Instr} (hop : opField r.word = i.opcode) (hr : i.ReadFrom r) : decode r = .ok i := by
  rw [decode, hop]
  cases i with
  | setCursor col row =>
    obtain ⟨rfl, rfl⟩ := hr
    rfl
  | writeln text line =>
    obtain ⟨rfl, rfl⟩ := hr
    rfl
  | write text | sendCommand byte | sendData byte =>
    obtain rfl := hr
    rfl
  | _ => rfl

/-- There are two kinds of request: one decodes to an operation and carries its opcode and operands, the other has an
unassigned opcode, which the error names (R67). -/
theorem decode_cases (r : Request) :
    (∃ i, decode r = .ok i ∧ opField r.word = i.opcode ∧ i.ReadFrom r) ∨
    (decode r = .error (.unassignedOpcode (opField r.word)) ∧ opField r.word ∉ assignedOpcodes) := by
  unfold decode
  split
  case h_25 =>
    refine .inr ⟨rfl, fun hm => ?_⟩
    have hnat : (opField r.word).toNat ∈ assignedOpcodes.map BitVec.toNat := List.mem_map_of_mem hm
    generalize (opField r.word).toNat = n at *
    simp_all [assignedOpcodes]
  all_goals
    rename_i hop
    refine .inl ⟨_, rfl, BitVec.eq_of_toNat_eq hop, ?_⟩
    simp [Instr.ReadFrom]

theorem decode_unassigned {r : Request} (h : opField r.word ∉ assignedOpcodes) :
    decode r = .error (.unassignedOpcode (opField r.word)) := by
  obtain ⟨i, -, hop, -⟩ | ⟨hd, -⟩ := decode_cases r
  · exact absurd (hop ▸ opcode_assigned i) h
  · exact hd

/-- Settles O51: the encoded request carries the operation's opcode and its operands, which is all the decoder reads. -/
theorem decodeOfEncode : Obligations.DecodeOfEncode :=
  fun i => decode_ok (opField_encode i) (readFrom_encode i)

/-- Settles O52: by the two kinds of request (`decode_cases`). -/
theorem decodeFailsExactlyOnUnassigned : Obligations.DecodeFailsExactlyOnUnassigned := by
  intro r
  refine ⟨⟨fun h => ?_, fun ⟨i, hi⟩ => ?_⟩, decode_unassigned⟩
  · obtain ⟨i, hd, -⟩ | ⟨-, hn⟩ := decode_cases r
    · exact ⟨i, hd⟩
    · exact absurd h hn
  · by_contra hn
    exact absurd (hi.symm.trans (decode_unassigned hn)) (by simp)

/-- An operation's operands can be read from any request that has the same in the fields its format uses. -/
theorem Instr.ReadFrom.of_agree {q r : Request} {i : Instr} (h : i.ReadFrom q)
    (ha : i.opcode ∈ ([0x30, 0x41, 0x50, 0x51] : List Byte) → aField q.word = aField r.word)
    (hb : i.opcode = 0x30 → bField q.word = bField r.word)
    (ht : i.opcode ∈ ([0x40, 0x41] : List Byte) → q.text = r.text) : i.ReadFrom r := by
  cases i with
  | setCursor col row => exact h.imp (·.trans (ha (by simp [opcode]))) (·.trans (hb rfl))
  | write text => exact h.trans (ht (by simp [opcode]))
  | writeln text line => exact h.imp (·.trans (ht (by simp [opcode]))) (·.trans (ha (by simp [opcode])))
  | sendCommand byte => exact h.trans (ha (by simp [opcode]))
  | sendData byte => exact h.trans (ha (by simp [opcode]))
  | _ => trivial

/-- Settles O53: what one request decodes to, the other carries too (`Instr.ReadFrom.of_agree`); and they are unassigned
together, with the same error. -/
theorem ignoredFieldsHaveNoEffect : Obligations.IgnoredFieldsHaveNoEffect := by
  intro q r hop ha hb ht
  obtain ⟨i, hd, hq, hread⟩ | ⟨hd, hn⟩ := decode_cases q
  · rw [hq] at ha hb ht
    rw [hd, decode_ok (hop.symm.trans hq) (hread.of_agree ha hb ht)]
  · rw [hd, hop, decode_unassigned (hop ▸ hn)]

/-- Settles O54: the seven words are what their operations are encoded as (`decodeOfEncode`), and 0x03 is unassigned. -/
theorem decodesWordsOfTheSpec : Obligations.DecodesWordsOfTheSpec :=
  ⟨decodeOfEncode .init, decodeOfEncode (.writeln [0x48, 0x69] 0), decodeOfEncode .cursorOn, decodeOfEncode .autoscrollOn,
    decodeOfEncode (.setCursor 7 4), decodeOfEncode (.write [0x43]), decodeOfEncode .backlightOff,
    decode_unassigned (by decide)⟩

end Sys2Proof
end

