-- ==== Sys2Proof/Proofs/Requests.lean ====
section
/-! What a step of an idle block does with the request at its port: runs what it decodes to (30_encoding.md R64, R66), or
refuses it (R67). -/

namespace Sys2Proof.Machine

/-- A response of a block that is idle already is all that is added. -/
theorem respond_of_idle {s : State} (h : s.sequencer = .idle) (st : Status) :
    respond st s = { s with responses := s.responses ++ [st] } := by
  rw [respond, ← h]

/-- Settles O4: the idle block's equation for a request that decodes. -/
theorem stepRunsDecodedRequest : Obligations.StepRunsDecodedRequest :=
  fun _ _ _ _ => step_idle_request

/-- Settles O6: an unassigned opcode does not decode (`decode_unassigned`), and the step on it only responds; only WRITE's and
WRITELN's formats read the text (`ignoredFieldsHaveNoEffect`). -/
theorem unassignedOpcodeIsInvalidArgument : Obligations.UnassignedOpcodeIsInvalidArgument := by
  refine ⟨fun s r rest hs hi hn => ?_, by decide +kernel, fun w text hwrite hwriteln => ?_⟩
  · rw [step_idle_illegal hs hi (decode_unassigned hn)]
    exact congrArg Host.Outcome.next (respond_of_idle (s := s.withInputs rest) hs .invalidArgument)
  · refine ignoredFieldsHaveNoEffect ⟨w, text⟩ ⟨w, []⟩ rfl (fun _ => rfl) (fun _ => rfl) fun ht => ?_
    rcases List.mem_pair.mp ht with ht | ht
    · exact absurd ht hwrite
    · exact absurd ht hwriteln

end Sys2Proof.Machine
end

