-- ==== Sys2Proof/Proofs/ExpandedText.lean ====
section
/-! The text operations in terms of the operations that send one byte (30_encoding.md R70). -/

namespace Sys2Proof.Machine

theorem sendText_singleton (c : Byte) (s : State) : sendText [c] s = sendData c s := by
  rw [sendText_eq_run, sendData_eq_run, List.flatMap_singleton]

/-- Settles O31: the text of one character sends what SEND_DATA does, under the same admission; the empty one sends nothing. -/
theorem writeOfOneCharacterIsSendData : Obligations.WriteOfOneCharacterIsSendData := by
  refine ⟨fun c s => ?_, fun s hr => ?_⟩
  · simp only [exec, execWrite, execSendData, sendText_singleton]
  · rw [exec, execWrite, admitted_ready _ hr]
    rfl

/-- The set-address command of a line, from the base of R151's table. -/
theorem line_command {p : Byte × Byte} (hp : p ∈ ([(0, 0x80), (1, 0xC0)] : List (Byte × Byte))) :
    lineWf p.1 = true ∧ 0x80 ||| lineBase p.1 = p.2 := by
  obtain rfl | rfl := List.mem_pair.mp hp <;> decide

/-- Two pieces of trace with a response after each leave what the whole trace with one response does, but for the first
response. -/
theorem respond_between_afterEvents (st st' : Status) (s : State) (xs ys : List Event) :
    respond st' ((respond st (s.afterEvents xs)).afterEvents ys) =
      { respond st' (s.afterEvents (xs ++ ys)) with responses := s.responses ++ [st, st'] } := by
  rw [afterEvents_append]
  simp [respond, State.afterEvents]

/-- Settles O32: the trace planned for WRITELN is the one planned for its command and then the one planned for its text, and
each of the three requests leaves the block after its planned trace (`exec_undisturbed`). -/
theorem writelnIsCommandThenWrite : Obligations.WritelnIsCommandThenWrite := by
  intro text s hc hr p hp hok
  obtain ⟨hline, hcommand⟩ := line_command hp
  obtain ⟨hcmd, htext⟩ := okFor_append hok
  have hplanned : planned (.writeln text p.1) s = commandEvents s p.2 ++ textEvents s text := by
    rw [← hcommand]
    rfl
  have hwriteln : exec (.writeln text p.1) s =
      .next (respond .ok (s.afterEvents (commandEvents s p.2 ++ textEvents s text))) := by
    rw [← hplanned] at hok ⊢
    exact exec_undisturbed hc hr Instr.noConfusion hline hok
  have hsend : exec (.sendCommand p.2) s = .next (respond .ok (s.afterEvents (commandEvents s p.2))) :=
    exec_undisturbed hc hr Instr.noConfusion rfl hcmd
  have hwrite : exec (.write text) (respond .ok (s.afterEvents (commandEvents s p.2))) =
      .next (respond .ok ((respond .ok (s.afterEvents (commandEvents s p.2))).afterEvents (textEvents s text))) :=
    exec_undisturbed hc hr Instr.noConfusion rfl htext
  exact ⟨_, _, _, hwriteln, hsend, hwrite, respond_between_afterEvents .ok .ok s _ _, rfl⟩

end Sys2Proof.Machine
end

