-- ==== Sys2Proof/Proofs/SetAddressByte.lean ====
section
/-! The set-DDRAM-address byte as a number (30_encoding.md R58, R65). -/

namespace Sys2Proof.Machine

theorem setDdramCommand_eq_ofNat : ∀ addr : Byte,
    setDdramCommand Config.defaults addr = BitVec.ofNat 8 (addr.toNat % 128 + 128) := by decide

/-- R65: "addition on 8 bits drops the carry". -/
theorem ddramAddr_toNat (col : Byte) {row : Byte} (hw : rowWf row = true) :
    (ddramAddr Config.defaults col row).toNat = (col.toNat + (rowBase row).toNat) % 256 := by
  rw [ddramAddr, rowOffsetOf_defaults row hw, BitVec.toNat_add]

/-- Settles O18: the byte keeps the low 7 bits of the 8-bit sum and sets bit 7, and a sum up to 0x7F is its own low 7 bits. -/
theorem setCursorByteAsNumber : Obligations.SetCursorByteAsNumber := by
  intro col row hw sum byte
  have hbyte : byte.toNat = sum % 256 % 128 + 128 := by
    rw [show byte = _ from setDdramCommand_eq_ofNat _, BitVec.toNat_ofNat, ddramAddr_toNat col hw]
    omega
  refine ⟨fun hsum => ?_, hbyte⟩
  omega

end Sys2Proof.Machine
end

