-- ==== Sys2Proof/Proofs/DrivenBytes.lean ====
section
/-! Every byte an operation writes drives the expander's pins alike: to `I2C_ADDR`, read/write low, the backlight pin at the
backlight bit (30_encoding.md R51; 20_memory.md R35), whatever the environment does. -/

namespace Sys2Proof.Machine

/-! ## The bytes of the nibble encoder -/

/-- The read/write pin is low and the backlight pin is as the backlight bit says, with R6's pins. -/
abbrev Driven (backlight : Bool) (v : Byte) : Prop :=
  v &&& 0x02 = 0 ∧ v &&& 0x08 = (if backlight then 0x08 else 0x00)

/-- A payload drives neither of the two pins. -/
theorem payload_pins_clear : ∀ (v : Byte) (data : Bool),
    highPayload Config.defaults v data &&& 0x0A = 0 ∧ lowPayload Config.defaults v data &&& 0x0A = 0 := by decide

theorem rawPayload_pins_clear : ∀ n : Nibble, rawPayload Config.defaults n &&& 0x0A = 0 := by decide

theorem composed_driven : ∀ (p : Byte) (backlight : Bool), p &&& 0x0A = 0 →
    Driven backlight (p ||| (if backlight then 0x08 else 0x00) ||| 0x04) ∧
    Driven backlight ((p ||| (if backlight then 0x08 else 0x00)) &&& ~~~0x04) := by decide

section
variable {t : State} (hc : t.cfg = Config.defaults) {w : Byte}
include hc

theorem pulseMicros_driven {p : Byte} (hp : p &&& 0x0A = 0) (hw : Micro.put w ∈ pulseMicros t p) :
    Driven t.backlightBit w := by
  obtain ⟨hset, hclear⟩ := composed_driven p t.backlightBit hp
  simp only [pulseMicros, List.mem_cons, Micro.put.injEq, reduceCtorEq, List.not_mem_nil, or_false, false_or] at hw
  rw [compose, State.bl, hc] at hw
  obtain rfl | rfl := hw
  · exact hset
  · exact hclear

theorem byteMicros_driven {v : Byte} {data : Bool} (hw : Micro.put w ∈ byteMicros t v data) : Driven t.backlightBit w := by
  obtain ⟨hhigh, hlow⟩ := payload_pins_clear v data
  rw [byteMicros, List.mem_append, hc] at hw
  exact hw.elim (pulseMicros_driven hc hhigh) (pulseMicros_driven hc hlow)

theorem microsOf_driven {i : Instr} (hw : Micro.put w ∈ microsOf i t) : Driven t.backlightBit w := by
  have byte {v : Byte} {data : Bool} (h : Micro.put w ∈ byteMicros t v data) := byteMicros_driven hc h
  have text {cs : List Byte} (h : Micro.put w ∈ cs.flatMap fun c => byteMicros t c true) : Driven t.backlightBit w := by
    obtain ⟨c, -, h⟩ := List.mem_flatMap.mp h
    exact byte h
  cases i with
  | init => exact absurd hw (by simp [microsOf])
  | clear | home => exact byte ((List.mem_append.mp hw).resolve_right (by simp))
  | write cs => exact text hw
  | writeln cs line => exact (List.mem_append.mp hw).elim byte text
  | _ => exact byte hw

theorem bringUpMicros_driven (hw : Micro.put w ∈ bringUpMicros t) : Driven t.backlightBit w := by
  simp only [bringUpMicros, List.mem_append, List.mem_singleton, reduceCtorEq, or_false] at hw
  rw [hc] at hw
  obtain ((hw | hw) | hw) | hw := hw
  all_goals exact pulseMicros_driven hc (rawPayload_pins_clear _) hw

end

/-! ## Pieces of an operation -/

/-- The writes of a piece of trace, failed ones too, are to `a`, their bytes driven with the given backlight bit. -/
def AllDriven (a : I2cAddr) (backlight : Bool) (evs : List Event) : Prop :=
  ∀ e ∈ evs, (∀ b ∈ e.addr, b = a) ∧ ∀ v ∈ e.byte, Driven backlight v

/-- From `s` to `t` the trace has grown by bytes driven with the backlight bit `backlight`, which is `t`'s. -/
structure Drove (backlight : Bool) (s t : State) : Prop where
  cfg : t.cfg = s.cfg
  i2cAddr : t.i2cAddr = s.i2cAddr
  backlightBit : t.backlightBit = backlight
  trace : ∃ evs, t.trace = s.trace ++ evs ∧ AllDriven s.i2cAddr backlight evs

/-- A piece that writes nothing. -/
theorem Drove.of_same {s t : State} {backlight : Bool} (hc : t.cfg = s.cfg) (ha : t.i2cAddr = s.i2cAddr)
    (hb : t.backlightBit = backlight) (ht : t.trace = s.trace) : Drove backlight s t :=
  ⟨hc, ha, hb, [], by simp [ht], by simp [AllDriven]⟩

theorem Drove.trans {backlight : Bool} {s t u : State} (h : Drove backlight s t) (g : Drove backlight t u) :
    Drove backlight s u := by
  obtain ⟨hc, ha, -, xs, hx, hxs⟩ := h
  obtain ⟨gc, ga, gb, ys, gy, gys⟩ := g
  refine ⟨gc.trans hc, ga.trans ha, gb, xs ++ ys, by rw [gy, hx, List.append_assoc], ?_⟩
  exact List.forall_mem_append.mpr ⟨hxs, ha ▸ gys⟩

theorem Drove.andThen {backlight : Bool} {s : State} {r : Run} {f : State → Run} (h : Drove backlight s r.state)
    (hf : ∀ t, t.cfg = s.cfg → t.backlightBit = backlight → Drove backlight t (f t).state) :
    Drove backlight s (r.andThen f).state := by
  cases r with
  | going t => exact h.trans (hf t h.cfg h.backlightBit)
  | failed t => exact h
  | stopped t => exact h

theorem drove_run {ms : List Micro} {s : State} {backlight : Bool} (hb : s.backlightBit = backlight)
    (h : ∀ w, Micro.put w ∈ ms → Driven s.backlightBit w) : Drove backlight s (run ms s).state := by
  subst hb
  have hk := run_kept ms s
  obtain ⟨evs, htrace, hevs⟩ := run_trace ms s
  exact ⟨hk.cfg, hk.i2cAddr, hk.backlightBit, evs, htrace, fun e he => (hevs e he).imp_right fun hv v hm => h v (hv v hm)⟩

/-! ## Operations -/

/-- Each command of INIT is a run from where its mirror register has been stored. -/
theorem drove_initCommands {s : State} (hc : s.cfg = Config.defaults) :
    Drove s.backlightBit s (initCommands s).state := by
  have command {t : State} (v d e f : Byte) (ht : t.cfg = s.cfg) (hb : t.backlightBit = s.backlightBit) :
      Drove s.backlightBit t (run (byteMicros t v false) (t.withMirrors d e f)).state :=
    Drove.trans (t := t.withMirrors d e f) (.of_same rfl rfl hb rfl)
      (drove_run hb fun _ hw => byteMicros_driven (ht.trans hc) hw)
  rw [initCommands_eq_runs]
  refine ((((command _ _ _ _ rfl rfl).andThen fun t ht hb => ?_).andThen fun t ht hb => ?_).andThen
    fun t ht hb => ?_).andThen fun t _ hb => ?_
  · exact command _ _ _ _ ht hb
  · exact command _ _ _ _ ht hb
  · exact command _ _ _ _ ht hb
  · exact drove_run hb (by simp)

theorem drove_initRun {s : State} (hc : s.cfg = Config.defaults) : Drove s.backlightBit s (initRun s).state := by
  have hphase : Drove s.backlightBit s { s with phase := .uninit } := .of_same rfl rfl rfl rfl
  rw [initRun, bringUp_eq_run]
  exact (hphase.trans (drove_run rfl fun _ hw => bringUpMicros_driven hc hw)).andThen
    fun t ht hb => hb ▸ drove_initCommands (ht.trans hc)

/-- Every operation, in any phase and with any operands, whatever the environment does. -/
theorem exec_drove {i : Instr} {s t : State} (hc : s.cfg = Config.defaults) (h : exec i s = .next t) :
    ∃ backlight, Drove backlight s t := by
  by_cases hi : i = .init
  · subst hi
    have hrun := drove_initRun hc
    obtain ⟨u, hr, rfl⟩ | ⟨u, hr, rfl⟩ | hr := exec_init_cases h <;> rw [hr] at hrun
    · exact ⟨_, hrun.cfg, hrun.i2cAddr, hrun.backlightBit, hrun.trace⟩
    · exact ⟨_, hrun.cfg, hrun.i2cAddr, hrun.backlightBit, hrun.trace⟩
    · exact ⟨_, hrun⟩
  obtain ⟨-, he⟩ | ⟨-, he⟩ | ⟨-, he⟩ := exec_cases hi s <;> rw [he] at h
  · obtain rfl := Host.Outcome.next.inj h
    exact ⟨_, .of_same rfl rfl rfl rfl⟩
  · obtain rfl := Host.Outcome.next.inj h
    exact ⟨_, .of_same rfl rfl rfl rfl⟩
  · have hstored : Drove (storing i s).backlightBit s (storing i s) :=
      .of_same (storing_cfg i s) (storing_i2cAddr i s) rfl (storing_trace i s)
    have hrun := hstored.trans (drove_run (ms := microsOf i (storing i s)) rfl fun _ hw =>
      microsOf_driven (hstored.cfg.trans hc) hw)
    obtain ⟨st, rfl⟩ | hr := endOperation_cases h
    · exact ⟨_, hrun.cfg, hrun.i2cAddr, hrun.backlightBit, hrun.trace⟩
    · rw [hr] at hrun
      exact ⟨_, hrun⟩

/-- Settles O37: an operation is made of pieces that drive the pins with its backlight bit (`exec_drove`), which for
BACKLIGHT_ON and BACKLIGHT_OFF is the one they have stored. -/
theorem everyByteCarriesBacklightAndNoRead : Obligations.EveryByteCarriesBacklightAndNoRead := by
  intro i s t hc h
  obtain ⟨_, -, -, rfl, htrace⟩ := exec_drove hc h
  exact htrace

end Sys2Proof.Machine
end

