-- ==== Sys2Proof/Proofs/Primitives.lean ====
section
/-! The pulse and the nibble encoder for every setting of the parameters (40_primitives.md R80, R82), and the raw nibble with
those of R6 (R83): each is one run of lines, so it ends as `run_ok` and `run_failsAt` say. -/

namespace Sys2Proof.Machine

/-- A run whose write `k` fails: the trace cut there, no register written. -/
theorem run_failsAt {ms : List Micro} {s : State} {k : Nat} (h : s.failsAt k (eventsOf s.i2cAddr ms)) :
    ∃ t, run ms s = .failed t ∧ sameRegisters s t ∧ t.trace = s.trace ++ cutFailed k (eventsOf s.i2cAddr ms) := by
  obtain ⟨v, hv, hrun⟩ := run_fail ms s h
  exact ⟨_, hrun, by simp [sameRegisters], by simp [cutFailed, hv]⟩

/-- The lines of a pulse of a byte (R80). -/
def pulseLines (b : Byte) (s : State) : List Micro :=
  [.put (b ||| s.cfg.pinEn), .hold .enHigh, .put (b &&& ~~~s.cfg.pinEn), .hold .enLow]

theorem pulse_eq_run (b : Byte) (s : State) : pulse b s = run (pulseLines b s) s := rfl

/-- Settles O10: a pulse is one run, undisturbed or failing at its first or second write. -/
theorem pulseIsTwoWritesAndTwoHolds : Obligations.PulseIsTwoWritesAndTwoHolds := by
  intro b s evs
  have hevents : evs = eventsOf s.i2cAddr (pulseLines b s) := rfl
  rw [hevents, pulse_eq_run]
  exact ⟨run_ok _ s, run_failsAt, run_failsAt⟩

/-- Settles O11: a byte is one run, the lines of its two pulses (`sendByte_eq_run`). -/
theorem sendByteIsTwoPulsesHighNibbleFirst : Obligations.SendByteIsTwoPulsesHighNibbleFirst := by
  intro v data s m bl hi lo evs
  have hevents : evs = eventsOf s.i2cAddr (byteMicros s v data) := rfl
  rw [hevents, sendByte_eq_run]
  exact ⟨run_ok _ s, fun k => run_failsAt⟩

/-- A raw nibble's payload: the nibble on D7..D4, every other bit clear. -/
theorem rawPayload_defaults : ∀ n : Nibble, rawPayload Config.defaults n = n ++ (0x0 : Nibble) := by decide

theorem rawPayload_enable_clear : ∀ n : Nibble, (n ++ (0x0 : Nibble) : Byte) &&& 0xFB = n ++ (0x0 : Nibble) := by decide

/-- Settles O12: a raw nibble is the run of one pulse, whose trace is `pulseEvents` of its payload. -/
theorem rawNibbleIsOnePulse : Obligations.RawNibbleIsOnePulse := by
  intro n s hc x evs h
  have hevents : eventsOf s.i2cAddr (pulseMicros s (rawPayload s.cfg n)) = evs := by
    rw [hc, rawPayload_defaults]
    exact eventsOf_pulseMicros s _ hc (rawPayload_enable_clear n)
  rw [rawNibble_eq_run, run_ok _ s (by rwa [hevents]), hevents]

end Sys2Proof.Machine
end

