-- ==== Sys2Proof/Proofs/TraceShape.lean ====
section
/-! The trace of an operation: how many transport writes it holds when nothing disturbs it (40_primitives.md R86), and that it
is made of whole pulses up to where the environment stops it (R80; 70_reset_and_hazards.md R194). -/

namespace Sys2Proof.Machine

/-! ## Undisturbed -/

/-- INIT and every admitted operation with legal operands: the planned trace, and as many transport writes as it holds. -/
theorem exec_undisturbed_trace {i : Instr} {s : State} (hc : s.cfg = Config.defaults) (ha : i = .init ∨ s.phase = .ready)
    (hw : i.wf = true) (h : s.okFor (planned i s)) :
    ∃ t, exec i s = .next t ∧ t.trace = s.trace ++ planned i s ∧
      t.transportCalls = s.transportCalls + writeCount (planned i s) := by
  by_cases hi : i = .init
  · subst hi
    exact ⟨_, exec_init_undisturbed hc h, rfl, rfl⟩
  · exact ⟨_, exec_undisturbed hc (ha.resolve_left hi) hi hw h, by simp [stored_trace], by simp [stored_transportCalls]⟩

/-- Settles O42: an undisturbed operation makes the writes of its planned trace, which are `writesOf` many. -/
theorem transportWriteCounts : Obligations.TransportWriteCounts := by
  intro i s hc ha hw h
  have hcount : writeCount (planned i s) = writesOf i := writeCount_plannedFrom i (stored i s)
  obtain ⟨t, he, htrace, hcalls⟩ := exec_undisturbed_trace hc ha hw h
  exact ⟨t, planned i s, he, htrace, hcount, by rw [hcalls, hcount]⟩

/-! ## Whole pulses, cut anywhere -/

section
variable {c : Config} {xs : List Event}

theorem pulseShaped_append (ys : List Event) (h : wholePulses c xs = true) :
    pulseShaped c (xs ++ ys) = pulseShaped c ys := by
  induction xs using wholePulses.induct with
  | case1 => rfl
  | case2 a x b y rest ih =>
    obtain ⟨hpair, hrest⟩ := Bool.and_eq_true_iff.mp h
    simp only [List.cons_append, pulseShaped, hpair, Bool.true_and, ih hrest]
  | case3 rest ih | case4 rest ih | case5 rest ih => exact ih h
  | case6 evs => simp [wholePulses] at h

theorem pulseShaped_of_wholePulses (h : wholePulses c xs = true) : pulseShaped c xs = true := by
  have happend := pulseShaped_append [] h
  rwa [List.append_nil] at happend

/-- The first byte of a pulse has enable set. -/
theorem pulsePair_enable_set {a b : I2cAddr} {x y : Byte} (h : pulsePair c a b x y = true) :
    x &&& c.pinEn = c.pinEn := by
  simp only [pulsePair, Bool.and_eq_true, decide_eq_true_eq] at h
  obtain ⟨⟨-, rfl⟩, -⟩ := h
  ext j
  simp +contextual

/-- Cut before a write. -/
theorem pulseShaped_cutBefore (k : Nat) (h : wholePulses c xs = true) : pulseShaped c (cutBefore k xs) = true := by
  induction xs using wholePulses.induct generalizing k with
  | case1 => simp [cutBefore, pulseShaped]
  | case2 a x b y rest ih =>
    obtain ⟨hpair, hrest⟩ := Bool.and_eq_true_iff.mp h
    match k with
    | 0 => rfl
    | 1 => simp [cutBefore, pulseShaped, pulsePair_enable_set hpair]
    | k + 2 => simp [cutBefore, pulseShaped, hpair, ih k hrest]
  | case3 rest ih | case4 rest ih | case5 rest ih => cases k <;> exact ih _ h
  | case6 evs => simp [wholePulses] at h

/-- Cut at a write that fails. -/
theorem pulseShaped_cutFailed (k : Nat) (h : wholePulses c xs = true) : pulseShaped c (cutFailed k xs) = true := by
  induction xs using wholePulses.induct generalizing k with
  | case1 => simp [cutFailed, cutBefore, writeAt, pulseShaped]
  | case2 a x b y rest ih =>
    obtain ⟨hpair, hrest⟩ := Bool.and_eq_true_iff.mp h
    match k with
    | 0 => simp [cutFailed, cutBefore, writeAt, pulseShaped, pulsePair_enable_set hpair]
    | 1 => simp [cutFailed, cutBefore, writeAt, pulseShaped, hpair]
    | k + 2 => exact Bool.and_eq_true_iff.mpr ⟨hpair, ih k hrest⟩
  | case3 rest ih | case4 rest ih | case5 rest ih => cases k <;> exact ih _ h
  | case6 evs => simp [wholePulses] at h

/-- Cut in a delay. -/
theorem pulseShaped_cutBeforeDelay (j : Nat) (h : wholePulses c xs = true) :
    pulseShaped c (cutBeforeDelay j xs) = true := by
  induction xs using wholePulses.induct generalizing j with
  | case1 => simp [cutBeforeDelay, pulseShaped]
  | case2 a x b y rest ih =>
    obtain ⟨hpair, hrest⟩ := Bool.and_eq_true_iff.mp h
    match j with
    | 0 => simp [cutBeforeDelay, pulseShaped, pulsePair_enable_set hpair]
    | 1 => simp [cutBeforeDelay, pulseShaped, hpair]
    | j + 2 => simp [cutBeforeDelay, pulseShaped, hpair, ih j hrest]
  | case3 rest ih | case4 rest ih | case5 rest ih =>
    cases j with
    | zero => rfl
    | succ j => exact ih j h
  | case6 evs => simp [wholePulses] at h

end

/-! ## Pieces of an operation -/

/-- The trace of a piece of an operation begun in `s`, the parameters as they were: whole pulses if it has come to its end,
else pulses up to where it ended. -/
def Pulsed (s : State) : Run → Prop
  | .going t => t.cfg = s.cfg ∧ ∃ evs, t.trace = s.trace ++ evs ∧ wholePulses Config.defaults evs = true
  | .failed t | .stopped t => ∃ evs, t.trace = s.trace ++ evs ∧ pulseShaped Config.defaults evs = true

theorem Pulsed.shaped {s : State} {r : Run} (h : Pulsed s r) :
    ∃ evs, r.state.trace = s.trace ++ evs ∧ pulseShaped Config.defaults evs = true := by
  cases r with
  | going t =>
    obtain ⟨-, evs, htrace, hwhole⟩ := h
    exact ⟨evs, htrace, pulseShaped_of_wholePulses hwhole⟩
  | failed t => exact h
  | stopped t => exact h

theorem Pulsed.andThen {s : State} {r : Run} {f : State → Run} (h : Pulsed s r)
    (hf : ∀ t, t.cfg = s.cfg → Pulsed t (f t)) : Pulsed s (r.andThen f) := by
  cases r with
  | failed t => exact h
  | stopped t => exact h
  | going t =>
    obtain ⟨hcfg, xs, hxs, hwhole⟩ := h
    have hft := hf t hcfg
    rw [andThen_going]
    cases hr : f t with
    | going u =>
      rw [hr] at hft
      obtain ⟨hcfg', ys, hys, hwhole'⟩ := hft
      exact ⟨hcfg'.trans hcfg, xs ++ ys, by rw [hys, hxs, List.append_assoc], (wholePulses_append ys hwhole).trans hwhole'⟩
    | failed u | stopped u =>
      rw [hr] at hft
      obtain ⟨ys, hys, hshape⟩ := hft
      exact ⟨xs ++ ys, by rw [hys, hxs, List.append_assoc], (pulseShaped_append ys hwhole).trans hshape⟩

/-- Lines that make whole pulses: the environment lets them run to their end, or cuts them in one of three ways. -/
theorem pulsed_run {ms : List Micro} {s : State} (h : wholePulses Config.defaults (eventsOf s.i2cAddr ms) = true) :
    Pulsed s (run ms s) := by
  obtain hok | ⟨k, hfails⟩ | ⟨k, hhangs⟩ | ⟨j, a, hcut⟩ := disturbed s.i2cAddr ms s
  · rw [run_ok ms s hok]
    exact ⟨rfl, _, rfl, h⟩
  · obtain ⟨t, hrun, -, htrace⟩ := run_failsAt hfails
    rw [hrun]
    exact ⟨_, htrace, pulseShaped_cutFailed k h⟩
  · obtain ⟨v, -, hrun⟩ := run_hang ms s hhangs
    rw [hrun]
    exact ⟨_, rfl, pulseShaped_cutBefore k h⟩
  · rw [run_cut ms s hcut]
    exact ⟨_, rfl, pulseShaped_cutBeforeDelay j h⟩

theorem SendsCommands.pulses {evs : List Event} {cmds : List Byte} (h : SendsCommands evs cmds) :
    wholePulses Config.defaults evs = true := (Bool.and_eq_true_iff.mp h.whole).2

/-! ## Operations -/

/-- Each command of INIT is a run from where its mirror register has been stored. -/
theorem pulsed_initCommands {s : State} (hc : s.cfg = Config.defaults) : Pulsed s (initCommands s) := by
  have command {t : State} (v d e f : Byte) (ht : t.cfg = s.cfg) :
      Pulsed t (run (byteMicros t v false) (t.withMirrors d e f)) := by
    refine pulsed_run (s := t.withMirrors d e f) ?_
    have hevents := eventsOf_byteMicros t v false (ht.trans hc)
    exact (congrArg (wholePulses Config.defaults) hevents).trans (sendsCommands_byteEvents t v false).pulses
  rw [initCommands_eq_runs]
  refine ((((command _ _ _ _ rfl).andThen fun t ht => ?_).andThen fun t ht => ?_).andThen fun t ht => ?_).andThen
    fun t _ => pulsed_run rfl
  all_goals exact command _ _ _ _ ht

theorem pulsed_initRun {s : State} (hc : s.cfg = Config.defaults) : Pulsed s (initRun s) := by
  have hup : Pulsed s (bringUp { s with phase := .uninit }) := by
    rw [bringUp_eq_run]
    refine pulsed_run (s := { s with phase := .uninit }) ?_
    rw [eventsOf_bringUpMicros { s with phase := .uninit } hc]
    exact (sendsCommands_bringUpEvents _).pulses
  exact hup.andThen fun t ht => pulsed_initCommands (ht.trans hc)

theorem pulsed_stored {i : Instr} {s : State} (hc : s.cfg = Config.defaults) (hi : i ≠ .init) (hw : i.wf = true) :
    Pulsed (stored i s) (run (microsOf i (stored i s)) (stored i s)) := by
  refine pulsed_run ?_
  rw [eventsOf_stored hc hi hw]
  exact (sendsCommands_plannedFrom i (stored i s)).pulses

/-- Settles O38: INIT is pieces of whole pulses (`pulsed_initRun`), every other operation is refused with no write or runs its
planned trace, and whole pulses cut anywhere keep the shape. -/
theorem operationTraceIsMadeOfPulses : Obligations.OperationTraceIsMadeOfPulses := by
  intro i s t hc h
  by_cases hi : i = .init
  · subst hi
    have hshaped := (pulsed_initRun hc).shaped
    obtain ⟨u, hr, rfl⟩ | ⟨u, hr, rfl⟩ | hr := exec_init_cases h <;> rwa [hr] at hshaped
  by_cases hp : s.phase = .ready
  · cases hw : i.wf with
    | false =>
      rw [exec_illegal hp (by rw [hc, operandsLegal_defaults, hw])] at h
      obtain rfl := Host.Outcome.next.inj h
      exact ⟨[], by simp, rfl⟩
    | true =>
      have hshaped := (pulsed_stored hc hi hw).shaped
      rw [stored_trace] at hshaped
      rw [exec_eq_run i hc hp hi hw] at h
      obtain ⟨st, rfl⟩ | hr := endOperation_cases h
      · exact hshaped
      · rwa [hr] at hshaped
  · rw [exec_notReady hi hp] at h
    obtain rfl := Host.Outcome.next.inj h
    exact ⟨[], by simp, rfl⟩

end Sys2Proof.Machine
end

