-- ==== Sys2Proof/Proofs/InitPartWay.lean ====
section
/-! INIT as ONE run of lines, after which each mirror register is stored if the write that first sends it has been made
(`initRun_eq_run`, 41_init.md R100): so INIT ends where the environment ends that run (60_exceptions.md R161, R175;
70_reset_and_hazards.md R208). -/

namespace Sys2Proof.Machine

/-! ## The mirror registers (10_state.md R14) -/

/-- The three mirror registers. -/
inductive Mirror where
  | displayControl
  | entryMode
  | functionSet

/-- What a mirror register holds. -/
def State.mirror (m : Mirror) (s : State) : Byte :=
  match m with
  | .displayControl => s.displayControl
  | .entryMode => s.entryMode
  | .functionSet => s.functionSet

/-- A value stored in a mirror register. -/
def State.setMirror (m : Mirror) (v : Byte) (s : State) : State :=
  match m with
  | .displayControl => { s with displayControl := v }
  | .entryMode => { s with entryMode := v }
  | .functionSet => { s with functionSet := v }

section
variable (m : Mirror) (v : Byte) (s : State)

@[simp] theorem setMirror_mirror : s.setMirror m (s.mirror m) = s := by cases m <;> rfl
@[simp] theorem setMirror_cfg : (s.setMirror m v).cfg = s.cfg := by cases m <;> rfl
@[simp] theorem setMirror_backlightBit : (s.setMirror m v).backlightBit = s.backlightBit := by cases m <;> rfl
@[simp] theorem setMirror_transportCalls : (s.setMirror m v).transportCalls = s.transportCalls := by cases m <;> rfl
@[simp] theorem setMirror_delayResets : (s.setMirror m v).delayResets = s.delayResets := by cases m <;> rfl
@[simp] theorem setMirror_answerAt (k : Nat) : (s.setMirror m v).answerAt k = s.answerAt k := by cases m <;> rfl

end

/-! ## A run does not read the mirrors -/

/-- The same end, in a state changed by `f`. -/
def Run.map (f : State → State) : Run → Run
  | .going s => .going (f s)
  | .failed s => .failed (f s)
  | .stopped s => .stopped (f s)

theorem Run.map_map (f g : State → State) (r : Run) : (r.map f).map g = r.map fun s => g (f s) := by cases r <;> rfl

theorem Run.map_congr {f g : State → State} {r : Run} (h : f r.state = g r.state) : r.map f = r.map g := by
  cases r with
  | going s => exact congrArg Run.going h
  | failed s => exact congrArg Run.failed h
  | stopped s => exact congrArg Run.stopped h

theorem Run.map_id (r : Run) : r.map id = r := by cases r <;> rfl

theorem Run.map_andThen {r : Run} {f : State → State} {g : State → Run} (h : ∀ s, g (f s) = (g s).map f) :
    (r.map f).andThen g = (r.andThen g).map f := by
  cases r with
  | going s => exact h s
  | failed s => rfl
  | stopped s => rfl

theorem memWrite_setMirror (m : Mirror) (v w : Byte) (s : State) :
    memWrite w (s.setMirror m v) = (memWrite w s).map (State.setMirror m v) := by
  unfold memWrite
  rw [setMirror_answerAt]
  split <;> cases m <;> rfl

theorem hold_setMirror (m : Mirror) (v : Byte) (d : DelayName) (s : State) :
    hold d (s.setMirror m v) = (hold d s).map (State.setMirror m v) := by
  unfold hold
  rw [setMirror_delayResets]
  split <;> cases m <;> rfl

theorem run_setMirror (m : Mirror) (v : Byte) (ms : List Micro) (s : State) :
    run ms (s.setMirror m v) = (run ms s).map (State.setMirror m v) := by
  induction ms generalizing s with
  | nil => rfl
  | cons line rest ih =>
    cases line with
    | put w => rw [run, memWrite_setMirror, Run.map_andThen ih, run]
    | hold d => rw [run, hold_setMirror, Run.map_andThen ih, run]

/-! ## How many writes a run has made -/

/-- A run to its end has made all its writes, `hi` in all; one that ended early has made at least `lo` and no more than `hi`. -/
def CallsWithin (lo hi : Nat) : Run → Prop
  | .going t => t.transportCalls = hi
  | .failed t | .stopped t => lo ≤ t.transportCalls ∧ t.transportCalls ≤ hi

theorem CallsWithin.of_le {lo lo' hi : Nat} {r : Run} (h : CallsWithin lo' hi r) (hlo : lo ≤ lo') : CallsWithin lo hi r := by
  cases r with
  | going t => exact h
  | failed t | stopped t => exact h.imp_left hlo.trans

theorem CallsWithin.lo_le {lo hi : Nat} {r : Run} (h : CallsWithin lo hi r) (hle : lo ≤ hi) :
    lo ≤ r.state.transportCalls := by
  cases r with
  | going t => exact hle.trans_eq h.symm
  | failed t | stopped t => exact h.1

/-- The first write is made, however it is answered. -/
theorem callsWithin_put {v : Byte} {ms : List Micro} {s : State} {hi : Nat} (hle : s.transportCalls + 1 ≤ hi)
    (h : CallsWithin (s.transportCalls + 1) hi (run ms (s.wrote v))) :
    CallsWithin (s.transportCalls + 1) hi (run (.put v :: ms) s) := by
  cases ha : s.answerAt 0 with
  | ok => rwa [run, memWrite_ok v ha]
  | err =>
    rw [run, memWrite_err v ha]
    exact ⟨le_rfl, hle⟩
  | never =>
    rw [run, memWrite_never v ha]
    exact ⟨le_rfl, hle⟩

theorem callsWithin_run (ms : List Micro) (s : State) :
    CallsWithin s.transportCalls (s.transportCalls + writeCount (eventsOf s.i2cAddr ms)) (run ms s) := by
  induction ms generalizing s with
  | nil => rfl
  | cons line rest ih =>
    cases line with
    | put v =>
      rw [eventsOf_put, writeCount_written]
      refine (callsWithin_put (by omega) ?_).of_le (Nat.le_succ _)
      have hrest := ih (s.wrote v)
      rwa [wrote_transportCalls, wrote_i2cAddr, Nat.add_right_comm] at hrest
    | hold d =>
      rw [eventsOf_hold, writeCount_delay]
      obtain hh | ⟨a, hh⟩ := hold_cases d s <;> rw [run, hh]
      · exact ih (s.held d)
      · exact ⟨le_rfl, Nat.le_add_right _ _⟩

/-- A run that begins with a write has made it. -/
theorem run_put_calls (v : Byte) (ms : List Micro) (s : State) :
    s.transportCalls < (run (.put v :: ms) s).state.transportCalls :=
  (callsWithin_put (Nat.le_add_right _ _) (callsWithin_run ms (s.wrote v))).lo_le (Nat.le_add_right _ _)

/-! ## Storing a mirror before the run that sends it -/

/-- The mirror stored if more than `n` transport writes have been made. -/
def State.setMirrorAfter (n : Nat) (m : Mirror) (v : Byte) (s : State) : State :=
  s.setMirror m (if n < s.transportCalls then v else s.mirror m)

theorem setMirrorAfter_of_lt {n : Nat} {s : State} (m : Mirror) (v : Byte) (h : n < s.transportCalls) :
    s.setMirrorAfter n m v = s.setMirror m v := by rw [State.setMirrorAfter, if_pos h]

theorem setMirrorAfter_of_le {n : Nat} {s : State} (m : Mirror) (v : Byte) (h : s.transportCalls ≤ n) :
    s.setMirrorAfter n m v = s := by rw [State.setMirrorAfter, if_neg (by omega), setMirror_mirror]

/-- Stored before a run that begins with a write, it is stored wherever that run ends. -/
theorem run_put_setMirror (m : Mirror) (v w : Byte) (ms : List Micro) (s : State) :
    run (.put w :: ms) (s.setMirror m v) =
      (run (.put w :: ms) s).map (State.setMirrorAfter s.transportCalls m v) := by
  rw [run_setMirror]
  exact Run.map_congr (setMirrorAfter_of_lt m v (run_put_calls w ms s)).symm

/-- A run and a later piece are one run and then `g`, if the later piece is a run and then `g`. What `g` does may depend on how
many writes were made before that piece, and it does nothing where none has been made since. -/
theorem run_andThen_map {xs ys : List Micro} {s : State} {f : State → Run} {g : Nat → State → State}
    (hf : ∀ t, Kept s t → f t = (run ys t).map (g t.transportCalls))
    (hg : ∀ n t, t.transportCalls ≤ n → g n t = t) :
    (run xs s).andThen f =
      (run (xs ++ ys) s).map (g (s.transportCalls + writeCount (eventsOf s.i2cAddr xs))) := by
  have hcalls := callsWithin_run xs s
  rw [run_append]
  cases hr : run xs s with
  | going t =>
    rw [hr] at hcalls
    rw [andThen_going, andThen_going, hf t (kept_of_run_going hr), hcalls]
  | failed t =>
    rw [hr] at hcalls
    exact congrArg Run.failed (hg _ _ hcalls.2).symm
  | stopped t =>
    rw [hr] at hcalls
    exact congrArg Run.stopped (hg _ _ hcalls.2).symm

/-! ## INIT as one run (41_init.md R100) -/

/-- Steps 3 to 5 of INIT for the given mirrors and their values: each stored and sent, then clear and the final delay. -/
def sendMirrors : List (Mirror × (Config → Byte)) → State → Run
  | [], s => (sendCommand s.cfg.cmdClearDisplay s).andThen (delay .initFinal)
  | (m, value) :: rest, s => (sendCommand (value s.cfg) (s.setMirror m (value s.cfg))).andThen (sendMirrors rest)

/-- The lines of these steps. -/
def mirrorMicros (s : State) : List (Mirror × (Config → Byte)) → List Micro
  | [] => byteMicros s s.cfg.cmdClearDisplay false ++ [.hold .initFinal]
  | (_, value) :: rest => byteMicros s (value s.cfg) false ++ mirrorMicros s rest

/-- Each mirror stored if its first write has been made: `n` writes come before the first mirror, and four send each. -/
def storeMirrors (c : Config) : List (Mirror × (Config → Byte)) → Nat → State → State
  | [], _, s => s
  | (m, value) :: rest, n, s => storeMirrors c rest (n + 4) (s.setMirrorAfter n m (value c))

/-- The mirrors in the order in which INIT stores them, with their values. -/
def initMirrors : List (Mirror × (Config → Byte)) :=
  [(.functionSet, initFunctionSet), (.displayControl, initDisplayControl), (.entryMode, initEntryMode)]

theorem initCommands_eq_sendMirrors (s : State) : initCommands s = sendMirrors initMirrors s := by
  simp only [initCommands, andThen_assoc]
  rfl

theorem storeMirrors_of_le (c : Config) (ms : List (Mirror × (Config → Byte))) {n : Nat} {s : State}
    (h : s.transportCalls ≤ n) : storeMirrors c ms n s = s := by
  induction ms generalizing n with
  | nil => rfl
  | cons p rest ih => rw [storeMirrors, setMirrorAfter_of_le p.1 _ h, ih (by omega)]

theorem byteMicros_congr {s t : State} (hc : t.cfg = s.cfg) (hb : t.backlightBit = s.backlightBit) (v : Byte) (data : Bool) :
    byteMicros t v data = byteMicros s v data := by
  simp only [byteMicros, pulseMicros, compose, State.bl, hc, hb]

theorem mirrorMicros_congr {s t : State} (hc : t.cfg = s.cfg) (hb : t.backlightBit = s.backlightBit)
    (ms : List (Mirror × (Config → Byte))) : mirrorMicros t ms = mirrorMicros s ms := by
  induction ms with
  | nil => rw [mirrorMicros, mirrorMicros, hc, byteMicros_congr hc hb]
  | cons p rest ih => rw [mirrorMicros, mirrorMicros, hc, byteMicros_congr hc hb, ih]

/-- A byte's lines begin with a write, and there are four writes in them. -/
theorem run_byteMicros_setMirror (m : Mirror) (v w : Byte) (data : Bool) (ms : List Micro) (s : State) :
    run (byteMicros s w data ++ ms) (s.setMirror m v) =
      (run (byteMicros s w data ++ ms) s).map (State.setMirrorAfter s.transportCalls m v) :=
  run_put_setMirror m v _ _ s

theorem writeCount_byteMicros (a : I2cAddr) (s : State) (v : Byte) (data : Bool) :
    writeCount (eventsOf a (byteMicros s v data)) = 4 := rfl

theorem sendMirrors_eq_run (ms : List (Mirror × (Config → Byte))) (s : State) :
    sendMirrors ms s = (run (mirrorMicros s ms) s).map (storeMirrors s.cfg ms s.transportCalls) := by
  induction ms generalizing s with
  | nil =>
    rw [sendMirrors, sendCommand_eq_run, mirrorMicros, run_append]
    exact (Run.map_id _).symm
  | cons p rest ih =>
    obtain ⟨m, value⟩ := p
    let s₁ : State := s.setMirror m (value s.cfg)
    have hc : s₁.cfg = s.cfg := setMirror_cfg ..
    have hb : s₁.backlightBit = s.backlightBit := setMirror_backlightBit ..
    have hrest : ∀ t, Kept s₁ t → sendMirrors rest t =
        (run (mirrorMicros s rest) t).map (storeMirrors s.cfg rest t.transportCalls) := fun t ht => by
      rw [ih, ht.cfg, hc, mirrorMicros_congr (ht.cfg.trans hc) (ht.backlightBit.trans hb)]
    calc sendMirrors ((m, value) :: rest) s
        = (run (byteMicros s (value s.cfg) false) s₁).andThen (sendMirrors rest) := by
          rw [sendMirrors, sendCommand_eq_run, byteMicros_congr hc hb]
      _ = (run (mirrorMicros s ((m, value) :: rest)) s₁).map (storeMirrors s.cfg rest (s.transportCalls + 4)) := by
          rw [run_andThen_map hrest fun n t => storeMirrors_of_le s.cfg rest, writeCount_byteMicros,
            setMirror_transportCalls]
          rfl
      _ = (run (mirrorMicros s ((m, value) :: rest)) s).map
            (storeMirrors s.cfg ((m, value) :: rest) s.transportCalls) := by
          rw [mirrorMicros, run_byteMicros_setMirror, Run.map_map]
          rfl

/-- The lines of INIT. -/
def initMicros (s : State) : List Micro := bringUpMicros s ++ mirrorMicros s initMirrors

/-- `phase <- Uninit`, with which INIT begins. -/
def beginInit (s : State) : State := { s with phase := .uninit }

/-- The state `t`, to which an INIT begun in `s` has come, with those mirrors stored whose first write has been made. The
bring-up's eight writes come before the first mirror. -/
def storedByInit (s t : State) : State := storeMirrors s.cfg initMirrors (s.transportCalls + 8) t

section
variable (s t : State)

@[simp] theorem storedByInit_backlightBit : (storedByInit s t).backlightBit = t.backlightBit := rfl
@[simp] theorem storedByInit_phase : (storedByInit s t).phase = t.phase := rfl
@[simp] theorem storedByInit_i2cAddr : (storedByInit s t).i2cAddr = t.i2cAddr := rfl
@[simp] theorem storedByInit_cfg : (storedByInit s t).cfg = t.cfg := rfl
@[simp] theorem storedByInit_sequencer : (storedByInit s t).sequencer = t.sequencer := rfl
@[simp] theorem storedByInit_inputs : (storedByInit s t).inputs = t.inputs := rfl
@[simp] theorem storedByInit_responses : (storedByInit s t).responses = t.responses := rfl
@[simp] theorem storedByInit_trace : (storedByInit s t).trace = t.trace := rfl

@[simp] theorem beginInit_backlightBit : (beginInit s).backlightBit = s.backlightBit := rfl
@[simp] theorem beginInit_i2cAddr : (beginInit s).i2cAddr = s.i2cAddr := rfl
@[simp] theorem beginInit_cfg : (beginInit s).cfg = s.cfg := rfl
@[simp] theorem beginInit_inputs : (beginInit s).inputs = s.inputs := rfl
@[simp] theorem beginInit_responses : (beginInit s).responses = s.responses := rfl
@[simp] theorem beginInit_trace : (beginInit s).trace = s.trace := rfl
@[simp] theorem beginInit_transportCalls : (beginInit s).transportCalls = s.transportCalls := rfl
@[simp] theorem beginInit_functionSet : (beginInit s).functionSet = s.functionSet := rfl
@[simp] theorem beginInit_displayControl : (beginInit s).displayControl = s.displayControl := rfl
@[simp] theorem beginInit_entryMode : (beginInit s).entryMode = s.entryMode := rfl
@[simp] theorem beginInit_phase : (beginInit s).phase = .uninit := rfl

end

/-- INIT is the run of its lines, and each mirror is stored if where that run ends its first write has been made. -/
theorem initRun_eq_run (s : State) : initRun s = (run (initMicros s) (beginInit s)).map (storedByInit s) := by
  have hrest : ∀ t, Kept (beginInit s) t → initCommands t =
      (run (mirrorMicros s initMirrors) t).map (storeMirrors s.cfg initMirrors t.transportCalls) := fun t ht => by
    rw [initCommands_eq_sendMirrors, sendMirrors_eq_run, mirrorMicros_congr (s := s) ht.cfg ht.backlightBit, ht.cfg]
    rfl
  exact (congrArg (Run.andThen · initCommands) (bringUp_eq_run (beginInit s))).trans
    (run_andThen_map hrest fun n t => storeMirrors_of_le s.cfg initMirrors)

/-! ## INIT disturbed, with the parameters of R6 -/

/-- A write is made before a delay if no more delays come before it. -/
theorem lt_writeCount_cutBeforeDelay {a : I2cAddr} (ms : List Micro) {n j : Nat} (hn : n < writeCount (eventsOf a ms)) :
    n < writeCount (cutBeforeDelay j (eventsOf a ms)) ↔ delayCount (cutBefore n (eventsOf a ms)) ≤ j := by
  induction ms generalizing n j with
  | nil => exact absurd hn (by simp)
  | cons m rest ih =>
    cases m with
    | put v =>
      rw [eventsOf_put, writeCount_written] at hn
      have hcut : cutBeforeDelay j (eventsOf a (.put v :: rest)) = .written a v :: cutBeforeDelay j (eventsOf a rest) := by
        cases j <;> rfl
      rw [hcut, writeCount_written, eventsOf_put]
      cases n with
      | zero => simp [cutBefore]
      | succ n => rw [cutBefore, delayCount_written, ← ih (by omega), Nat.add_lt_add_iff_right]
    | hold d =>
      rw [eventsOf_hold, writeCount_delay] at hn
      have hcut : cutBefore n (eventsOf a (.hold d :: rest)) = .delay d :: cutBefore n (eventsOf a rest) := by
        cases n <;> rfl
      rw [hcut, delayCount_delay, eventsOf_hold]
      cases j with
      | zero => simp [cutBeforeDelay]
      | succ j => rw [cutBeforeDelay, writeCount_delay, ih hn, Nat.add_le_add_iff_right]

section
variable {s : State} (hc : s.cfg = Config.defaults)
include hc

theorem eventsOf_initMicros : eventsOf s.i2cAddr (initMicros s) = initEvents s := by
  simp only [initMicros, mirrorMicros, initMirrors, eventsOf_append, eventsOf_bringUpMicros s hc,
    eventsOf_byteMicros s _ _ hc, initEvents_eq, initCommandEvents, eventsOf_hold, eventsOf_nil, hc]
  rfl

/-- Failing at its write `k`, which ends it in `Failed` (R100, R164). -/
theorem exec_init_failing {k : Nat} (h : s.failsAt k (initEvents s)) :
    ∃ v, writeAt k (initEvents s) = some (s.i2cAddr, v) ∧ exec .init s = .next (respond .initializationFailure
      { storedByInit s (((beginInit s).afterEvents (cutBefore k (initEvents s))).wroteBadly v) with phase := .failed }) := by
  rw [← eventsOf_initMicros hc] at h ⊢
  obtain ⟨v, hv, hrun⟩ := run_fail (initMicros s) (beginInit s) h
  exact ⟨v, hv, by rw [exec_init, initRun_eq_run, hrun]; rfl⟩

/-- Its write `k` never answered, on which it waits (R208). -/
theorem exec_init_hanging {k : Nat} (h : s.hangsAt k (initEvents s)) :
    ∃ v, writeAt k (initEvents s) = some (s.i2cAddr, v) ∧ exec .init s =
      .next (storedByInit s (((beginInit s).afterEvents (cutBefore k (initEvents s))).writePending v)) := by
  rw [← eventsOf_initMicros hc] at h ⊢
  obtain ⟨v, hv, hrun⟩ := run_hang (initMicros s) (beginInit s) h
  exact ⟨v, hv, by rw [exec_init, initRun_eq_run, hrun]; rfl⟩

/-- A reset inside its delay `j`, which stops it (R175). -/
theorem exec_init_cut {j : Nat} {a : I2cAddr} (h : s.cutAt j a (initEvents s)) :
    exec .init s = .next (storedByInit s { (beginInit s).afterEvents (cutBeforeDelay j (initEvents s)) with
      sequencer := .resetting a, delayResets := s.delayResets.tail }) := by
  rw [← eventsOf_initMicros hc] at h ⊢
  rw [exec_init, initRun_eq_run, run_cut (initMicros s) (beginInit s) h]
  rfl

theorem writeCount_cutBefore_initEvents {k : Nat} (hk : k < writeCount (initEvents s)) :
    writeCount (cutBefore k (initEvents s)) = k := by
  rw [← eventsOf_initMicros hc] at hk ⊢
  exact writeCount_cutBefore _ hk

/-- In INIT 11, 15 and 19 delays come before the writes 8, 12 and 16. -/
theorem storingWrites_before_delay (j : Nat) : let made := writeCount (cutBeforeDelay j (initEvents s))
    (8 < made ↔ 11 ≤ j) ∧ (12 < made ↔ 15 ≤ j) ∧ (16 < made ↔ 19 ≤ j) := by
  have hmade {n : Nat} (hn : n < writeCount (initEvents s)) :
      n < writeCount (cutBeforeDelay j (initEvents s)) ↔ delayCount (cutBefore n (initEvents s)) ≤ j := by
    rw [← eventsOf_initMicros hc] at hn ⊢
    exact lt_writeCount_cutBeforeDelay _ hn
  have hcount : writeCount (initEvents s) = 24 := rfl
  exact ⟨hmade (by omega), hmade (by omega), hmade (by omega)⟩

/-- The mirrors after `n` writes of INIT: each is stored with its first write, INIT's writes 8, 12 and 16. -/
theorem storedByInit_mirrors {t : State} {n : Nat} (hn : t.transportCalls = s.transportCalls + n) :
    (storedByInit s t).functionSet = (if 8 < n then 0x28 else t.functionSet) ∧
    (storedByInit s t).displayControl = (if 12 < n then 0x0C else t.displayControl) ∧
    (storedByInit s t).entryMode = (if 16 < n then 0x06 else t.entryMode) := by
  have hafter (m : Nat) : s.transportCalls + m < t.transportCalls ↔ m < n := by omega
  refine ⟨?_, ?_, ?_⟩
  · exact if_congr (hafter 8) (by rw [hc]; rfl) rfl
  · exact if_congr (hafter 12) (by rw [hc]; rfl) rfl
  · exact if_congr (hafter 16) (by rw [hc]; rfl) rfl

end

/-- Settles O13: undisturbed by `exec_init_undisturbed`; failing at its write `k`, INIT has made `k + 1` writes, which tells
the mirrors it has stored (`storedByInit_mirrors`). -/
theorem initSequence : Obligations.InitSequence := by
  refine ⟨fun r h => decode_ok h trivial, fun s => step_boot, fun s => rfl, fun s hc h => exec_init_undisturbed hc h,
    fun k s hc h => ?_⟩
  obtain ⟨v, hv, hexec⟩ := exec_init_failing hc h
  have hcalls : (((beginInit s).afterEvents (cutBefore k (initEvents s))).wroteBadly v).transportCalls =
      s.transportCalls + (k + 1) := by
    simp [writeCount_cutBefore_initEvents hc h.1, Nat.add_assoc]
  obtain ⟨hfs, hdc, hem⟩ := storedByInit_mirrors hc hcalls
  refine ⟨_, hexec, ?_⟩
  simp [hfs, hdc, hem, cutFailed, hv]

/-- Settles O14: waiting on its write `k`, INIT has made `k + 1` writes; cut inside its delay `j`, it has made those that come
before that delay (`storingWrites_before_delay`). -/
theorem initStoppedPartWay : Obligations.InitStoppedPartWay := by
  refine ⟨fun k s hc h => ?_, fun j a s hc h => ?_⟩
  · obtain ⟨v, hv, hexec⟩ := exec_init_hanging hc h
    have hcalls : (((beginInit s).afterEvents (cutBefore k (initEvents s))).writePending v).transportCalls =
        s.transportCalls + (k + 1) := by
      simp [writeCount_cutBefore_initEvents hc h.1, Nat.add_assoc]
    obtain ⟨hfs, hdc, hem⟩ := storedByInit_mirrors hc hcalls
    refine ⟨_, v, hexec, ?_⟩
    simp [hfs, hdc, hem, hv]
  · obtain ⟨h8, h12, h16⟩ := storingWrites_before_delay hc j
    obtain ⟨hfs, hdc, hem⟩ := storedByInit_mirrors hc
      (t := { (beginInit s).afterEvents (cutBeforeDelay j (initEvents s)) with
        sequencer := .resetting a, delayResets := s.delayResets.tail }) rfl
    exact ⟨_, exec_init_cut hc h, by simp, by simp, by simp, by simp, hfs.trans (if_congr h8 rfl rfl),
      hdc.trans (if_congr h12 rfl rfl), hem.trans (if_congr h16 rfl rfl), by simp⟩

end Sys2Proof.Machine
end

