-- ==== Sys2Proof/Proofs/DirectCommands.lean ====
section
/-! The direct commands (42_direct_commands.md R110 to R119). What every operation but INIT does with legal operands, the
environment's write failures and the phase included, is said once (`exec_completes`); a direct command stores no register, and
its planned trace is its byte and what follows it. -/

namespace Sys2Proof.Machine

section
variable {i : Instr} {s : State} (hc : s.cfg = Config.defaults) (hi : i ≠ .init) (hw : i.wf = true)
include hc hi hw

/-- The early ends of every operation but INIT, its operands legal: cut at the write that fails, or refused outside `Ready`
(R161, R165). -/
theorem endsEarly_planned : EndsEarly i s (stored i s) (planned i s) := by
  refine ⟨fun hr k h => ?_, exec_notReady hi⟩
  obtain ⟨v, hv, hexec⟩ := exec_failing hc hi hw hr h
  refine ⟨_, hexec, ?_, ?_, by simp [sameRegisters], ?_, rfl⟩
  · simp [cutFailed, hv, stored_trace, stored_i2cAddr]
  · simp [stored_responses]
  · simp [stored_inputs]

/-- An operation but INIT, its operands legal: its planned trace in `Ready` and undisturbed, else one of its early ends. -/
theorem exec_completes :
    (s.phase = .ready → s.okFor (planned i s) →
      exec i s = .next (respond .ok ((stored i s).afterEvents (planned i s)))) ∧
    EndsEarly i s (stored i s) (planned i s) :=
  ⟨fun hr => exec_undisturbed hc hr hi hw, endsEarly_planned hc hi hw⟩

end

/-- Settles O15: the planned trace of CLEAR and of HOME is the command byte and then the clear/home delay. -/
theorem clearAndHomeComplete : Obligations.ClearAndHomeComplete := by
  refine ⟨fun r h => decode_ok h trivial, fun r h => decode_ok h trivial, fun s hc => ?_⟩
  obtain ⟨hclear, hclear'⟩ := exec_completes (i := .clear) hc Instr.noConfusion rfl
  obtain ⟨hhome, hhome'⟩ := exec_completes (i := .home) hc Instr.noConfusion rfl
  exact ⟨hclear, hhome, hclear', hhome'⟩

/-- Settles O16: the planned trace of a shift is its command byte alone. -/
theorem shiftsComplete : Obligations.ShiftsComplete := by
  refine ⟨fun r h => decode_ok h trivial, fun r h => decode_ok h trivial, fun r h => decode_ok h trivial,
    fun r h => decode_ok h trivial, fun s hc => ?_⟩
  obtain ⟨hcl, hcl'⟩ := exec_completes (i := .cursorMoveLeft) hc Instr.noConfusion rfl
  obtain ⟨hcr, hcr'⟩ := exec_completes (i := .cursorMoveRight) hc Instr.noConfusion rfl
  obtain ⟨hdl, hdl'⟩ := exec_completes (i := .displayMoveLeft) hc Instr.noConfusion rfl
  obtain ⟨hdr, hdr'⟩ := exec_completes (i := .displayMoveRight) hc Instr.noConfusion rfl
  exact ⟨hcl, hcr, hdl, hdr, hcl', hcr', hdl', hdr'⟩

/-- The four legal rows, with their offsets (R116). -/
theorem row_offset {row offset : Byte}
    (h : (row, offset) ∈ ([(0, 0x00), (1, 0x40), (2, 0x14), (3, 0x54)] : List (Byte × Byte))) :
    rowWf row = true ∧ rowBase row = offset := by
  simp only [List.mem_cons, Prod.mk.injEq, List.not_mem_nil, or_false] at h
  obtain ⟨rfl, rfl⟩ | ⟨rfl, rfl⟩ | ⟨rfl, rfl⟩ | ⟨rfl, rfl⟩ := h <;> decide

/-- Every other row, read as signed (R116). -/
theorem rowWf_eq_false {row : Byte} (h : row.toInt < 0 ∨ 4 ≤ row.toInt) : rowWf row = false := by
  rw [rowWf, Bool.and_eq_false_iff, decide_eq_false_iff_not, decide_eq_false_iff_not]
  omega

/-- Settles O17: a legal row's offset is the one in the planned trace (`row_offset`); every other row is refused as an operand
out of range. -/
theorem setCursorCompletes : Obligations.SetCursorCompletes := by
  refine ⟨fun r h => decode_ok h ⟨rfl, rfl⟩, fun col row offset s hc => ⟨fun hrow => ?_, fun hr hrow => ?_⟩⟩
  · obtain ⟨hw, rfl⟩ := row_offset hrow
    exact exec_completes (i := .setCursor col row) hc Instr.noConfusion hw
  · have hillegal : operandsLegal s.cfg (.setCursor col row) = false := by
      rw [hc, operandsLegal_defaults]
      exact rowWf_eq_false hrow
    exact exec_illegal hr hillegal

/-- Settles O19: the planned trace of SEND_COMMAND is its byte with mode flag 0, and no register is stored for it. -/
theorem sendCommandCompletes : Obligations.SendCommandCompletes :=
  ⟨fun _ h => decode_ok h rfl, fun byte _ hc => exec_completes (i := .sendCommand byte) hc Instr.noConfusion rfl⟩

/-- Settles O20: the planned trace of SEND_DATA is its byte with mode flag 1. -/
theorem sendDataCompletes : Obligations.SendDataCompletes :=
  ⟨fun _ h => decode_ok h rfl, fun byte _ hc => exec_completes (i := .sendData byte) hc Instr.noConfusion rfl⟩

end Sys2Proof.Machine
end

