-- ==== Sys2Proof/Proofs/RegisterToggles.lean ====
section
/-! The register toggles and the backlight operations (43_register_toggles.md R130 to R142). A toggle and a backlight operation
store one register and send one command byte (`exec_completes`); whatever the environment does, the registers are in the end the
old ones or those stored (`exec_registers`); and two operations, one after the other, go as from the first one's stored registers
(`exec_undisturbed_pair`). -/

namespace Sys2Proof.Machine

/-! ## How each operation ends -/

/-- Settles O22: the planned trace of a `displayControl` toggle is the command byte of the new register. -/
theorem displayControlTogglesComplete : Obligations.DisplayControlTogglesComplete := by
  refine ⟨fun r h => decode_ok h trivial, fun r h => decode_ok h trivial, fun r h => decode_ok h trivial,
    fun r h => decode_ok h trivial, fun r h => decode_ok h trivial, fun r h => decode_ok h trivial, fun s hc => ?_⟩
  obtain ⟨hdon, hdon'⟩ := exec_completes (i := .displayOn) hc Instr.noConfusion rfl
  obtain ⟨hdoff, hdoff'⟩ := exec_completes (i := .displayOff) hc Instr.noConfusion rfl
  obtain ⟨hcon, hcon'⟩ := exec_completes (i := .cursorOn) hc Instr.noConfusion rfl
  obtain ⟨hcoff, hcoff'⟩ := exec_completes (i := .cursorOff) hc Instr.noConfusion rfl
  obtain ⟨hbon, hbon'⟩ := exec_completes (i := .blinkOn) hc Instr.noConfusion rfl
  obtain ⟨hboff, hboff'⟩ := exec_completes (i := .blinkOff) hc Instr.noConfusion rfl
  refine ⟨And.elim hdon, And.elim hdoff, And.elim hcon, And.elim hcoff, And.elim hbon, And.elim hboff, ?_⟩
  simp only [List.forall_mem_cons]
  exact ⟨hdon', hdoff', hcon', hcoff', hbon', hboff', List.forall_mem_nil _⟩

/-- Settles O23: the planned trace of an `entryMode` toggle is the command byte of the new register. -/
theorem entryModeTogglesComplete : Obligations.EntryModeTogglesComplete := by
  refine ⟨fun r h => decode_ok h trivial, fun r h => decode_ok h trivial, fun r h => decode_ok h trivial,
    fun r h => decode_ok h trivial, fun s hc => ?_⟩
  obtain ⟨hltr, hltr'⟩ := exec_completes (i := .leftToRight) hc Instr.noConfusion rfl
  obtain ⟨hrtl, hrtl'⟩ := exec_completes (i := .rightToLeft) hc Instr.noConfusion rfl
  obtain ⟨hon, hon'⟩ := exec_completes (i := .autoscrollOn) hc Instr.noConfusion rfl
  obtain ⟨hoff, hoff'⟩ := exec_completes (i := .autoscrollOff) hc Instr.noConfusion rfl
  refine ⟨And.elim hltr, And.elim hrtl, And.elim hon, And.elim hoff, ?_⟩
  simp only [List.forall_mem_cons]
  exact ⟨hltr', hrtl', hon', hoff', List.forall_mem_nil _⟩

/-- The no-op with the new backlight bit in all four bytes (R140). -/
theorem planned_backlightOn (s : State) : planned .backlightOn s =
    [.written s.i2cAddr 0x0C, .delay .enHigh, .written s.i2cAddr 0x08, .delay .enLow,
     .written s.i2cAddr 0x0C, .delay .enHigh, .written s.i2cAddr 0x08, .delay .enLow] := by
  simp [planned, plannedFrom, stored, commandEvents, byteEvents, pulseEvents]

/-- The no-op with the backlight bit clear (R141). -/
theorem planned_backlightOff (s : State) : planned .backlightOff s =
    [.written s.i2cAddr 0x04, .delay .enHigh, .written s.i2cAddr 0x00, .delay .enLow,
     .written s.i2cAddr 0x04, .delay .enHigh, .written s.i2cAddr 0x00, .delay .enLow] := by
  simp [planned, plannedFrom, stored, commandEvents, byteEvents, pulseEvents]

/-- Settles O24: the planned trace of a backlight operation is composed from the state in which the bit has been stored. -/
theorem backlightOperationsComplete : Obligations.BacklightOperationsComplete := by
  refine ⟨fun r h => decode_ok h trivial, fun r h => decode_ok h trivial, fun s hc => ?_⟩
  obtain ⟨hon, hon'⟩ := exec_completes (i := .backlightOn) hc Instr.noConfusion rfl
  obtain ⟨hoff, hoff'⟩ := exec_completes (i := .backlightOff) hc Instr.noConfusion rfl
  rw [planned_backlightOn] at hon hon'
  rw [planned_backlightOff] at hoff hoff'
  exact ⟨hon, hoff, hon', hoff'⟩

/-! ## One operation after another -/

/-- What an operation plans does not depend on what has been observed. -/
theorem planned_respond_afterEvents (i : Instr) (st : Status) (s : State) (evs : List Event) :
    planned i (respond st (s.afterEvents evs)) = planned i s := by cases i <;> rfl

theorem stored_respond_afterEvents (i : Instr) (st : Status) (s : State) (evs : List Event) :
    stored i (respond st (s.afterEvents evs)) = respond st ((stored i s).afterEvents evs) := by cases i <;> rfl

/-- Two admitted operations, their planned traces undisturbed: the second goes as from the registers that the first stored. -/
theorem exec_undisturbed_pair {i j : Instr} {s : State} (hc : s.cfg = Config.defaults) (hr : s.phase = .ready)
    (hi : i ≠ .init) (hj : j ≠ .init) (hwi : i.wf = true) (hwj : j.wf = true)
    (h : s.okFor (planned i s ++ planned j (stored i s))) :
    ∃ t u, exec i s = .next t ∧ exec j t = .next u ∧ sameRegisters (stored i s) t ∧
      sameRegisters (stored j (stored i s)) u ∧ u.trace = s.trace ++ planned i s ++ planned j (stored i s) := by
  let t : State := respond .ok ((stored i s).afterEvents (planned i s))
  have hplanned : planned j t = planned j (stored i s) := planned_respond_afterEvents ..
  have hstored : stored j t = respond .ok ((stored j (stored i s)).afterEvents (planned i s)) :=
    stored_respond_afterEvents ..
  have hok : t.okFor (planned j t) := by
    rw [hplanned]
    exact (okFor_append (stored_okFor h)).2
  have hexec : exec j t = .next (respond .ok ((stored j t).afterEvents (planned j t))) :=
    exec_undisturbed ((stored_cfg i s).trans hc) ((stored_phase i s).trans hr) hj hwj hok
  refine ⟨t, _, exec_undisturbed hc hr hi hwi (okFor_append h).1, hexec, by simp [t, sameRegisters], ?_, ?_⟩
  · simp [hstored, sameRegisters]
  · simp [hstored, hplanned, stored_trace]

/-! ## Flag bits (40_primitives.md R87) -/

/-- Setting a flag is undone by clearing it, but for the flag itself. -/
theorem clearFlag_setFlag (flag v : Byte) : clearFlag flag (setFlag flag v) = clearFlag flag v := by
  ext k hk
  simp only [clearFlag, setFlag, BitVec.getElem_and, BitVec.getElem_or, BitVec.getElem_not]
  cases v[k] <;> cases flag[k] <;> rfl

theorem clearFlag_eq_self {flag v : Byte} (h : v &&& flag = 0) : clearFlag flag v = v := by
  ext k hk
  have hk' : (v &&& flag)[k] = false := by simp [h]
  rw [BitVec.getElem_and] at hk'
  rw [clearFlag, BitVec.getElem_and, BitVec.getElem_not]
  revert hk'
  cases v[k] <;> cases flag[k] <;> decide

/-- `w` differs from `v` at most in the bits of the mask. -/
abbrev DiffersOnlyIn (mask v w : Byte) : Prop := (w ^^^ v) &&& ~~~mask = 0

theorem differsOnlyIn_refl (mask v : Byte) : DiffersOnlyIn mask v v := by
  rw [DiffersOnlyIn, BitVec.xor_self]
  exact BitVec.zero_and

theorem differsOnlyIn_setFlag (flag v : Byte) : DiffersOnlyIn flag v (setFlag flag v) := by
  ext k hk
  simp only [setFlag, BitVec.getElem_and, BitVec.getElem_xor, BitVec.getElem_or, BitVec.getElem_not]
  cases v[k] <;> cases flag[k] <;> simp

theorem differsOnlyIn_clearFlag (flag v : Byte) : DiffersOnlyIn flag v (clearFlag flag v) := by
  ext k hk
  simp only [clearFlag, BitVec.getElem_and, BitVec.getElem_xor, BitVec.getElem_not]
  cases v[k] <;> cases flag[k] <;> simp

/-- Settles O26: the pair clears the cursor flag of what it has set (`clearFlag_setFlag`), and stores no other register. -/
theorem cursorRoundTrip : Obligations.CursorRoundTrip := by
  intro s hc hr h
  obtain ⟨t, u, ht, hu, ⟨-, htem, htfs, -⟩, ⟨hudc, huem, hufs, -⟩, -⟩ :=
    exec_undisturbed_pair hc hr Instr.noConfusion Instr.noConfusion rfl rfl h
  have hcleared : u.displayControl = clearFlag 0x02 s.displayControl := hudc.trans (clearFlag_setFlag 0x02 _)
  exact ⟨t, u, ht, hu, fun hclear => hcleared.trans (clearFlag_eq_self hclear), fun _ => hcleared, htem, htfs, huem, hufs⟩

/-! ## What a toggle changes -/

/-- Whatever the environment does, an operation other than INIT leaves the registers as they were, where it is refused, or as it
has stored them before its run. -/
theorem exec_registers {i : Instr} {s t : State} (hi : i ≠ .init) (h : exec i s = .next t) :
    sameRegisters s t ∨ sameRegisters (storing i s) t := by
  obtain ⟨-, he⟩ | ⟨-, he⟩ | ⟨-, he⟩ := exec_cases hi s <;> rw [he] at h
  · obtain rfl := Host.Outcome.next.inj h
    exact .inl ⟨rfl, rfl, rfl, rfl, rfl, rfl, rfl⟩
  · obtain rfl := Host.Outcome.next.inj h
    exact .inl ⟨rfl, rfl, rfl, rfl, rfl, rfl, rfl⟩
  · have hk := run_kept (microsOf i (storing i s)) (storing i s)
    have hsame : sameRegisters (storing i s) (run (microsOf i (storing i s)) (storing i s)).state :=
      ⟨hk.displayControl, hk.entryMode, hk.functionSet, hk.backlightBit, hk.phase, hk.i2cAddr, hk.cfg⟩
    obtain ⟨st, rfl⟩ | hr := endOperation_cases h
    · exact .inr hsame
    · rw [hr] at hsame
      exact .inr hsame

/-- The ten register toggles, each with its bit of `displayControl` and its bit of `entryMode` (R130 to R139). -/
def toggleBits : List (Instr × Byte × Byte) :=
  [(.displayOn, 0x04, 0), (.displayOff, 0x04, 0), (.cursorOn, 0x02, 0), (.cursorOff, 0x02, 0), (.blinkOn, 0x01, 0),
    (.blinkOff, 0x01, 0), (.leftToRight, 0, 0x02), (.rightToLeft, 0, 0x02), (.autoscrollOn, 0, 0x01),
    (.autoscrollOff, 0, 0x01)]

theorem toggleBits_not_init_backlight :
    ∀ p ∈ toggleBits, p.1 ≠ .init ∧ p.1 ∉ ([.backlightOn, .backlightOff] : List Instr) := by decide

/-- What a toggle stores differs from what was there at most in its bit. -/
theorem differsOnlyIn_stored (s : State) : ∀ p ∈ toggleBits,
    DiffersOnlyIn p.2.1 s.displayControl (stored p.1 s).displayControl ∧
    DiffersOnlyIn p.2.2 s.entryMode (stored p.1 s).entryMode := by
  have hset (flag v : Byte) := differsOnlyIn_setFlag flag v
  have hclear (flag v : Byte) := differsOnlyIn_clearFlag flag v
  have hsame (v : Byte) := differsOnlyIn_refl 0 v
  simp only [toggleBits, List.forall_mem_cons]
  exact ⟨⟨hset 0x04 _, hsame _⟩, ⟨hclear 0x04 _, hsame _⟩, ⟨hset 0x02 _, hsame _⟩, ⟨hclear 0x02 _, hsame _⟩,
    ⟨hset 0x01 _, hsame _⟩, ⟨hclear 0x01 _, hsame _⟩, ⟨hsame _, hset 0x02 _⟩, ⟨hsame _, hclear 0x02 _⟩,
    ⟨hsame _, hset 0x01 _⟩, ⟨hsame _, hclear 0x01 _⟩, List.forall_mem_nil _⟩

/-- Settles O27: the registers are in the end the old ones, or the old ones but for the toggle's bit (`differsOnlyIn_stored`);
`functionSet` and the backlight bit are no toggle's to write. -/
theorem toggleChangesAtMostItsBit : Obligations.ToggleChangesAtMostItsBit := by
  intro i dcBit emBit s t hc h hmem
  obtain ⟨hi, hbl⟩ := toggleBits_not_init_backlight _ hmem
  have hown := exec_onlyOwnWritten h
  have hbits : DiffersOnlyIn dcBit s.displayControl t.displayControl ∧ DiffersOnlyIn emBit s.entryMode t.entryMode := by
    obtain ⟨hdc, hem, -⟩ | ⟨hdc, hem, -⟩ := exec_registers hi h
    · rw [hdc, hem]
      exact ⟨differsOnlyIn_refl _ _, differsOnlyIn_refl _ _⟩
    · rw [hdc, hem, storing_defaults i hc]
      exact differsOnlyIn_stored s _ hmem
  exact ⟨hbits.1, hbits.2, (hown.functionSet_phase hi).1, hown.backlightBit hbl⟩

end Sys2Proof.Machine
end

