-- ==== Sys2Proof/Proofs/TextOperations.lean ====
section
/-! The text operations (44_text.md R150, R151). WRITE and WRITELN store no register, and their planned trace is the line's
set-address command, where there is one, and the characters (`exec_completes`); cut at a failed write, it keeps the bytes sent
before it whole (`cutFailed_textEvents_append`). -/

namespace Sys2Proof.Machine

/-! ## A byte whole, or cut -/

/-- A cut behind a whole byte leaves the byte whole. -/
theorem cutFailed_byteEvents_append (s : State) (v : Byte) (data : Bool) (k : Nat) (later : List Event) :
    cutFailed (k + 4) (byteEvents s v data ++ later) = byteEvents s v data ++ cutFailed k later := rfl

/-- A cut within a byte drops all that follows it. -/
theorem cutFailed_within_byteEvents (s : State) (v : Byte) (data : Bool) {j : Nat} (hj : j < 4) (later : List Event) :
    cutFailed j (byteEvents s v data ++ later) = cutFailed j (byteEvents s v data) := by
  match j, hj with
  | 0, _ | 1, _ | 2, _ | 3, _ => rfl

/-- A cut behind a text leaves all its characters whole. -/
theorem cutFailed_textEvents_append (s : State) (text : List Byte) (k : Nat) (later : List Event) :
    cutFailed (4 * text.length + k) (textEvents s text ++ later) = textEvents s text ++ cutFailed k later := by
  induction text with
  | nil => rw [List.length_nil, Nat.mul_zero, Nat.zero_add]; rfl
  | cons c cs ih =>
    have hlength : 4 * (c :: cs).length + k = 4 * cs.length + k + 4 := by
      rw [List.length_cons]
      omega
    have htext : textEvents s (c :: cs) = byteEvents s c true ++ textEvents s cs := List.flatMap_cons
    rw [hlength, htext, List.append_assoc, cutFailed_byteEvents_append, ih, List.append_assoc]

/-- The cut within one character of a text: those before it whole, and nothing of those after it. -/
theorem cutFailed_textEvents_character (s : State) (sent rest : List Byte) (c : Byte) {j : Nat} (hj : j < 4) :
    cutFailed (4 * sent.length + j) (textEvents s (sent ++ c :: rest)) =
      textEvents s sent ++ cutFailed j (byteEvents s c true) := by
  have htext : textEvents s (sent ++ c :: rest) = textEvents s sent ++ (byteEvents s c true ++ textEvents s rest) :=
    List.flatMap_append
  rw [htext, cutFailed_textEvents_append, cutFailed_within_byteEvents s c true hj]

/-! ## The operations -/

/-- Settles O28: the planned trace of WRITE is its characters' bytes with mode flag 1, and no register is stored for it. -/
theorem writeCompletes : Obligations.WriteCompletes :=
  ⟨fun _ h => decode_ok h rfl, fun text _ hc => exec_completes (i := .write text) hc Instr.noConfusion rfl⟩

/-- Every line but 0 and 1, read as signed (R151). -/
theorem lineWf_eq_false {line : Byte} (h0 : line.toInt ≠ 0) (h1 : line.toInt ≠ 1) : lineWf line = false := by
  rw [lineWf, decide_eq_false h0, decide_eq_false h1, Bool.or_false]

/-- Settles O29: a legal line's command is the one in the planned trace (`line_command`); every other line is refused as an
operand out of range. -/
theorem writelnCompletes : Obligations.WritelnCompletes := by
  refine ⟨fun r h => decode_ok h ⟨rfl, rfl⟩, fun text line cmd s hc => ⟨fun hline => ?_, fun hr h0 h1 => ?_⟩⟩
  · obtain ⟨hw, rfl⟩ : lineWf line = true ∧ 0x80 ||| lineBase line = cmd := line_command hline
    exact exec_completes (i := .writeln text line) hc Instr.noConfusion hw
  · have hillegal : operandsLegal s.cfg (.writeln text line) = false := by
      rw [hc, operandsLegal_defaults]
      exact lineWf_eq_false h0 h1
    exact exec_illegal hr hillegal

/-- Settles O30: a failing WRITE makes its planned trace cut at the failed write (`endsEarly_planned`), which is the cut within
that character (`cutFailed_textEvents_character`). -/
theorem failedWriteSendsNoLaterCharacter : Obligations.FailedWriteSendsNoLaterCharacter := by
  intro sent rest c j s hc hr hj hfails
  obtain ⟨hfailing, -⟩ := endsEarly_planned (i := .write (sent ++ c :: rest)) hc Instr.noConfusion rfl
  obtain ⟨t, hexec, htrace, hresponses, -⟩ := hfailing hr _ hfails
  refine ⟨t, hexec, hresponses, ?_⟩
  calc t.trace
    _ = s.trace ++ cutFailed (4 * sent.length + j) (textEvents s (sent ++ c :: rest)) := htrace
    _ = s.trace ++ textEvents s sent ++ cutFailed j (byteEvents s c true) := by
      rw [cutFailed_textEvents_character s sent rest c hj, List.append_assoc]

end Sys2Proof.Machine
end

