-- ==== Sys2Proof/Proofs/WaitingBlock.lean ====
section
/-! The steps that run no operation: an idle block with nothing presented waits (60_exceptions.md R173), and a block with a write
outstanding is released by a reset and by nothing else (R175; 70_reset_and_hazards.md R208). -/

namespace Sys2Proof.Machine

/-- The requests before the first reset stay at the port. -/
theorem takeReset_append_reset {before : List Input} (h : ∀ a, Input.reset a ∉ before) (a : I2cAddr) (after : List Input) :
    takeReset (before ++ .reset a :: after) = some (a, before ++ after) := by
  induction before with
  | nil => rfl
  | cons input rest ih =>
    cases input with
    | request r =>
      have hrest := ih fun b hb => h b (List.mem_cons_of_mem _ hb)
      rw [List.cons_append, takeReset, hrest]
      rfl
    | reset b => exact absurd List.mem_cons_self (h b)

theorem takeReset_eq_none {inputs : List Input} (h : ∀ a, Input.reset a ∉ inputs) : takeReset inputs = none := by
  induction inputs with
  | nil => rfl
  | cons input rest ih =>
    cases input with
    | request r => rw [takeReset, ih fun b hb => h b (List.mem_cons_of_mem _ hb), Option.map_none]
    | reset b => exact absurd List.mem_cons_self (h b)

/-- Settles O5: the idle block's equation for no input. -/
theorem idleBlockKeepsState : Obligations.IdleBlockKeepsState :=
  fun _ => step_idle

/-- Settles O8: a waiting block steps by `hungStep`, which takes the first reset to come and no request before it. -/
theorem hungBlockLeavesOnlyByReset : Obligations.HungBlockLeavesOnlyByReset := by
  intro s b v before after hs hbefore
  rw [step_waiting hs, hungStep]
  refine ⟨fun a hi => ?_, fun hi => ?_⟩
  · rw [hi, takeReset_append_reset hbefore]
    exact ⟨_, rfl, rfl, rfl, rfl, rfl, rfl, rfl, rfl, rfl, rfl⟩
  · rw [hi, takeReset_eq_none hbefore]

end Sys2Proof.Machine
end

