-- ==== Sys2Proof/Proofs/StatusPosted.lean ====
section
/-! The status an operation is answered with, by the order of the checks (60_exceptions.md R160, R165, R166). -/

namespace Sys2Proof.Machine

/-- Settles O9: every operation but INIT makes the phase check first. -/
theorem notReadyOutsideReady : Obligations.NotReadyOutsideReady :=
  fun _ _ => exec_notReady

/-- A response posted by an operation that ends in an idle block, as the response port shows it (R160). -/
theorem responsePort {s t : State} {st : Status} (hresponses : t.responses = s.responses ++ [st])
    (hidle : t.sequencer = .idle) :
    t.reqReady = true ∧ t.rspValid = true ∧ t.rspStatus = some st.code ∧ s.newResponse t = some st := by
  have hready : t.reqReady = true := decide_eq_true hidle
  have hvalid : t.rspValid = true := by simp [State.rspValid, hready, hresponses]
  exact ⟨hready, hvalid, by simp [State.rspStatus, hvalid, hresponses], by simp [State.newResponse, hresponses]⟩

/-- A write answered `Err` is not answered `Ok`. -/
theorem not_okFor_of_failsAt {s : State} {k : Nat} {evs : List Event} (h : s.failsAt k evs) : ¬ s.okFor evs := by
  obtain ⟨hk, -, herr, -⟩ := h
  rintro ⟨hok, -⟩
  rw [hok k hk] at herr
  cases herr

/-- The status of an operation admitted with legal operands whose trace is cut at a failed write (R161, R164). -/
def failureStatus (i : Instr) : Status := if i = .init then .initializationFailure else .transportError

/-- `i`, requested in `s`, is answered with `st` and leaves the block idle in `t`. -/
structure AnsweredWith (i : Instr) (s : State) (st : Status) (t : State) : Prop where
  exec : exec i s = .next t
  responses : t.responses = s.responses ++ [st]
  idle : t.sequencer = .idle

section
variable {i : Instr} {s : State}

theorem answeredWith_respond {st : Status} (h : exec i s = .next (respond st s)) : AnsweredWith i s st (respond st s) :=
  ⟨h, rfl, rfl⟩

variable (hc : s.cfg = Config.defaults) (hadmitted : i = .init ∨ s.phase = .ready) (hw : i.wf = true)
include hc hadmitted hw

theorem answeredWith_ok (h : s.okFor (planned i s)) : ∃ t, AnsweredWith i s .ok t := by
  by_cases hi : i = .init
  · subst hi
    exact ⟨_, exec_init_undisturbed hc h, rfl, rfl⟩
  · exact ⟨_, exec_undisturbed hc (hadmitted.resolve_left hi) hi hw h, by simp [stored_responses], rfl⟩

theorem answeredWith_failure {k : Nat} (h : s.failsAt k (planned i s)) : ∃ t, AnsweredWith i s (failureStatus i) t := by
  by_cases hi : i = .init
  · subst hi
    obtain ⟨v, -, hexec⟩ := exec_init_failing hc h
    exact ⟨_, hexec, by simp [failureStatus], rfl⟩
  · obtain ⟨v, -, hexec⟩ := exec_failing hc hi hw (hadmitted.resolve_left hi) h
    exact ⟨_, hexec, by simp [stored_responses, failureStatus, hi], rfl⟩

end

/-- The checks that give an answered operation its status, in R166's order. -/
structure StatusByChecks (i : Instr) (s : State) (st : Status) (t : State) : Prop where
  notReady : i ≠ .init → s.phase ≠ .ready → st = .notReady ∧ t.trace = s.trace
  illegal : s.phase = .ready → i.wf = false → st = .invalidArgument ∧ t.trace = s.trace
  undisturbed : i = .init ∨ s.phase = .ready → i.wf = true → s.okFor (planned i s) → st = .ok
  failing : i = .init ∨ s.phase = .ready → i.wf = true → ¬ s.okFor (planned i s) → st = failureStatus i

/-- Every operation whose writes are answered and that no reset cuts is answered, with the status the checks give. -/
theorem exec_answered {i : Instr} {s : State} (hc : s.cfg = Config.defaults) (h : s.answeredFor (planned i s)) :
    ∃ t st, AnsweredWith i s st t ∧ StatusByChecks i s st t := by
  by_cases hadmitted : i = .init ∨ s.phase = .ready
  · cases hw : i.wf with
    | false =>
      have hi : i ≠ .init := fun hi => by simp [hi, Instr.wf] at hw
      have hr := hadmitted.resolve_left hi
      have hl : operandsLegal s.cfg i = false := by rwa [hc, operandsLegal_defaults]
      exact ⟨_, .invalidArgument, answeredWith_respond (exec_illegal hr hl), fun _ hp => absurd hr hp,
        fun _ _ => ⟨rfl, rfl⟩, by simp [hw], by simp [hw]⟩
    | true =>
      have hphase (hi : i ≠ .init) (hp : s.phase ≠ .ready) : False := hp (hadmitted.resolve_left hi)
      obtain hok | ⟨k, hfails⟩ := h
      · obtain ⟨t, ht⟩ := answeredWith_ok hc hadmitted hw hok
        exact ⟨t, .ok, ht, fun hi hp => (hphase hi hp).elim, by simp [hw], fun _ _ _ => rfl, fun _ _ hn => absurd hok hn⟩
      · obtain ⟨t, ht⟩ := answeredWith_failure hc hadmitted hw hfails
        exact ⟨t, failureStatus i, ht, fun hi hp => (hphase hi hp).elim, by simp [hw],
          fun _ _ hok => absurd hok (not_okFor_of_failsAt hfails), fun _ _ _ => rfl⟩
  · obtain ⟨hi, hp⟩ := not_or.mp hadmitted
    exact ⟨_, .notReady, answeredWith_respond (exec_notReady hi hp), fun _ _ => ⟨rfl, rfl⟩, fun hr => absurd hr hp,
      fun ha => absurd ha hadmitted, fun ha => absurd ha hadmitted⟩

/-- Settles O34: the status the checks give (`exec_answered`), as the response port shows it (`responsePort`). -/
theorem everyAnsweredOperationPostsOneStatus : Obligations.EveryAnsweredOperationPostsOneStatus := by
  refine ⟨fun i s hc h => ?_, rfl, rfl, rfl, rfl, rfl, fun st => by cases st <;> decide⟩
  obtain ⟨t, st, ⟨hexec, hresponses, hidle⟩, ⟨hnotReady, hillegal, hundisturbed, hfailing⟩⟩ := exec_answered hc h
  obtain ⟨hready, hvalid, hstatus, hnew⟩ := responsePort hresponses hidle
  exact ⟨t, st, hexec, hresponses, hready, hvalid, hstatus, hnew, hnotReady, hillegal, hundisturbed, hfailing⟩

end Sys2Proof.Machine
end

