-- ==== Sys2Proof/Proofs/FailedToggle.lean ====
section
/-! The retry of an operation that failed (60_exceptions.md R162, R163): it has stored its register, so it stores and plans the
same again. -/

namespace Sys2Proof.Machine

/-- What an operation plans is a matter of the registers. -/
theorem planned_congr (i : Instr) {s t : State} (h : sameRegisters s t) : planned i t = planned i s := by
  obtain ⟨hdc, hem, -, hbl, -, ha, -⟩ := h
  cases s
  cases t
  subst hdc hem hbl ha
  cases i <;> rfl

/-- So is what it stores. -/
theorem stored_congr (i : Instr) {s t : State} (h : sameRegisters s t) : sameRegisters (stored i s) (stored i t) := by
  obtain ⟨hdc, hem, hfs, hbl, hp, ha, hc⟩ := h
  cases i <;> simp [sameRegisters, stored, hdc, hem, hfs, hbl, hp, ha, hc]

/-- A register stored is not changed by storing it again: each flag is set or cleared already. -/
theorem stored_stored (i : Instr) (s : State) : stored i (stored i s) = stored i s := by
  cases i <;> simp [stored, BitVec.or_assoc, BitVec.and_assoc]

theorem sameRegisters_respond_afterEvents (st : Status) (s : State) (evs : List Event) :
    sameRegisters s (respond st (s.afterEvents evs)) := ⟨rfl, rfl, rfl, rfl, rfl, rfl, rfl⟩

theorem sameRegisters_symm {s t : State} (h : sameRegisters s t) : sameRegisters t s := by
  obtain ⟨hdc, hem, hfs, hbl, hp, ha, hc⟩ := h
  exact ⟨hdc.symm, hem.symm, hfs.symm, hbl.symm, hp.symm, ha.symm, hc.symm⟩

theorem sameRegisters_trans {s t u : State} (h : sameRegisters s t) (g : sameRegisters t u) : sameRegisters s u := by
  obtain ⟨hdc, hem, hfs, hbl, hp, ha, hc⟩ := h
  obtain ⟨gdc, gem, gfs, gbl, gp, ga, gc⟩ := g
  exact ⟨gdc.trans hdc, gem.trans hem, gfs.trans hfs, gbl.trans hbl, gp.trans hp, ga.trans ha, gc.trans hc⟩

/-- Requested again where its register is stored already, and undisturbed: the whole planned trace, no register changed. -/
theorem exec_retry {i : Instr} {s t : State} (hc : s.cfg = Config.defaults) (hr : s.phase = .ready) (hi : i ≠ .init)
    (hw : i.wf = true) (hsame : sameRegisters (stored i s) t) (hok : t.okFor (planned i s)) :
    ∃ u, exec i t = .next u ∧ u.responses = t.responses ++ [.ok] ∧ sameRegisters t u ∧
      u.trace = t.trace ++ planned i s := by
  have hplanned : planned i t = planned i s := by
    rw [planned_congr i hsame, planned, stored_stored]
    rfl
  have hstored : sameRegisters t (stored i t) := by
    have h := stored_congr i hsame
    rw [stored_stored] at h
    exact sameRegisters_trans (sameRegisters_symm hsame) h
  obtain ⟨-, -, -, -, hphase, -, hcfg⟩ := hsame
  rw [← hplanned] at hok ⊢
  refine ⟨_, exec_undisturbed ?_ ?_ hi hw hok, by simp [stored_responses],
    sameRegisters_trans hstored (sameRegisters_respond_afterEvents _ _ _), by simp [stored_trace]⟩
  · rw [hcfg, stored_cfg, hc]
  · rw [hphase, stored_phase, hr]

/-- Settles O25: a toggle that fails keeps what it has stored, the block `Ready` (`operationIsPlannedTraceCutAtFirstFailure`),
and requested again goes as `exec_retry` says. -/
theorem failedToggleKeepsRegisterAndRetries : Obligations.FailedToggleKeepsRegisterAndRetries := by
  intro i k s hc hr hfails hmem
  have htoggle : ∀ i ∈ ([.displayOn, .displayOff, .cursorOn, .cursorOff, .blinkOn, .blinkOff, .leftToRight, .rightToLeft,
      .autoscrollOn, .autoscrollOff, .backlightOn, .backlightOff] : List Instr), i ≠ .init ∧ i.wf = true := by decide
  obtain ⟨hi, hw⟩ := htoggle i hmem
  obtain ⟨-, hfailing, -⟩ := operationIsPlannedTraceCutAtFirstFailure i s hc hr hi hw
  obtain ⟨t, hexec, -, hresponses, hsame, -, hidle, hanswers, -⟩ := hfailing k hfails
  have ⟨_, _, _, _, hphase, _, _⟩ := hsame
  exact ⟨t, hexec, hresponses, by rw [hphase, stored_phase, hr], decide_eq_true hidle, hsame, hanswers,
    exec_retry hc hr hi hw hsame⟩

end Sys2Proof.Machine
end

