-- ==== Sys2Proof/Proofs/ResetInDelay.lean ====
section
/-! A reset inside a delay (60_exceptions.md R175; 70_reset_and_hazards.md R190, R191, R202): INIT and every other admitted
operation stop there alike (`exec_stopped_by_reset`), and the reset and the boot INIT are the next two steps. -/

namespace Sys2Proof.Machine

theorem exec_stopped_by_reset {i : Instr} {s : State} {j : Nat} {a : I2cAddr} (hc : s.cfg = Config.defaults)
    (hadmitted : i = .init ∨ s.phase = .ready) (hw : i.wf = true) (h : s.cutAt j a (planned i s)) :
    ∃ t, exec i s = .next t ∧ t.responses = s.responses ∧ t.trace = s.trace ++ cutBeforeDelay j (planned i s) ∧
      t.sequencer = .resetting a ∧ t.inputs = s.inputs := by
  by_cases hi : i = .init
  · subst hi
    obtain ⟨-, hcut⟩ := initStoppedPartWay
    obtain ⟨t, hexec, -, hresponses, htrace, hs, -, -, -, -, -, -, hinputs⟩ := hcut j a s hc h
    exact ⟨t, hexec, hresponses, htrace, hs, hinputs⟩
  · obtain ⟨-, -, -, hcut⟩ := operationIsPlannedTraceCutAtFirstFailure i s hc (hadmitted.resolve_left hi) hi hw
    obtain ⟨t, hexec, htrace, hresponses, hs, -, hinputs⟩ := hcut j a h
    exact ⟨t, hexec, hresponses, htrace, hs, hinputs⟩

/-- Settles O36: the cut operation leaves the reset to be taken (`exec_stopped_by_reset`), the next step takes it, and a block
just reset boots. -/
theorem resetInDelayStopsOperation : Obligations.ResetInDelayStopsOperation := by
  intro i j a s hc hadmitted hw h
  obtain ⟨t, hexec, hresponses, htrace, hs, hinputs⟩ := exec_stopped_by_reset hc hadmitted hw h
  obtain ⟨-, hcfg, -⟩ := (exec_onlyOwnWritten hexec).fixed
  have hready : t.reqReady = false := by simp [State.reqReady, hs]
  refine ⟨t, applyReset a t, hexec, hresponses, hready, ?_, ?_, htrace, hinputs, step_resetting hs, rfl, ?_, rfl, rfl,
    hresponses, rfl, hinputs, rfl, step_boot rfl⟩
  · rw [State.rspValid, hready, Bool.false_and]
  · rw [State.twValid, hs]
  · rw [applyReset_backlightBit, hcfg]

end Sys2Proof.Machine
end

