-- ==== Sys2Proof/Proofs/ResetAndBoot.lean ====
section
/-! What a reset leaves, the boot INIT after it, and that every step but a hung block's answers a next state
(70_reset_and_hazards.md R190, R191, R208). -/

namespace Sys2Proof.Machine

/-! ## Reset (R190) -/

/-- Settles O1: the idle block's equation for a reset. -/
theorem resetInputLeavesStatedValues : Obligations.ResetInputLeavesStatedValues := by
  intro s a rest hs hi
  exact ⟨applyReset a { s with inputs := rest }, step_idle_reset hs hi, rfl, rfl, rfl, rfl, rfl, rfl, rfl, rfl, rfl, rfl,
    rfl, rfl, rfl, rfl, rfl, rfl⟩

/-- Settles O2, by the fields of the reset state. -/
theorem resetStateIsUninitAtDefaultAddress : Obligations.ResetStateIsUninitAtDefaultAddress :=
  ⟨rfl, rfl, rfl, rfl, rfl, rfl, rfl, rfl, rfl⟩

theorem reset_sound : Sound State.reset where
  cfg := rfl
  expander := reset_memory_wf
  trace := List.forall_mem_nil _

/-- A reset whose address input holds the default does nothing to the reset state. -/
theorem applyReset_reset : applyReset Config.defaults.i2cAddr State.reset = State.reset := rfl

/-- Settles O49: the reset state is a sound block that has just been reset. -/
theorem resetMeetsInvariant : Obligations.ResetMeetsInvariant := by
  have h : Inv (applyReset Config.defaults.i2cAddr State.reset) := inv_applyReset reset_sound _
  rwa [applyReset_reset] at h

/-! ## The boot INIT (R191) -/

/-- A boot INIT that answers: `req_ready` and `rsp_valid` are low before it, whatever was answered earlier, and high after. -/
theorem boot_answered {s t : State} {st : Status} (hs : s.sequencer = .boot) (hexec : exec .init s = .next t)
    (hresponses : t.responses = s.responses ++ [st]) (hidle : t.sequencer = .idle) :
    (s.reqReady = false ∧ s.rspValid = false) ∧ step s = .next t ∧ t.reqReady = true ∧ t.rspValid = true := by
  have hlow : s.reqReady = false := by simp [State.reqReady, hs]
  obtain ⟨hready, hvalid, -, -⟩ := responsePort hresponses hidle
  exact ⟨⟨hlow, by rw [State.rspValid, hlow, Bool.false_and]⟩, (step_boot hs).trans hexec, hready, hvalid⟩

/-- Settles O3: the boot step is INIT, which ends as `initSequence` says, and the ports show it (`boot_answered`); a `Failed`
block refuses every other operation (`exec_notReady`). -/
theorem bootRunsInitByItself : Obligations.BootRunsInitByItself := by
  obtain ⟨-, -, -, hundisturbed, hfailing⟩ := initSequence
  refine ⟨fun s => step_boot, fun s hc hs h => ?_, fun k s hc hs h => ?_⟩
  · obtain ⟨⟨hlow, hlow'⟩, hstep, hready, hvalid⟩ := boot_answered hs (hundisturbed s hc h) rfl rfl
    exact ⟨hlow, hlow', _, hstep, rfl, hready, hvalid, rfl, rfl, rfl⟩
  · obtain ⟨t, hexec, hphase, hresponses, htrace, -, -, -, -, -, -, hinputs, hidle⟩ := hfailing k s hc h
    obtain ⟨⟨hlow, hlow'⟩, hstep, hready, hvalid⟩ := boot_answered hs hexec hresponses hidle
    exact ⟨hlow, hlow', t, hstep, hphase, hready, hvalid, hresponses, htrace, hinputs,
      fun i hi => exec_notReady hi (by simp [hphase])⟩

/-! ## Which steps answer a next state (R208) -/

/-- Every operation answers a next state, whatever the phase, the operands and the environment. -/
theorem exec_answers (i : Instr) (s : State) : ∃ t, exec i s = .next t := by
  by_cases hi : i = .init
  · subst hi
    exact ⟨_, exec_init s⟩
  · obtain ⟨-, he⟩ | ⟨-, he⟩ | ⟨-, he⟩ := exec_cases hi s
    all_goals exact ⟨_, he⟩

/-- No reset is found only where none is to come. -/
theorem not_mem_of_takeReset_eq_none {inputs : List Input} (h : takeReset inputs = none) (a : I2cAddr) :
    Input.reset a ∉ inputs := by
  induction inputs with
  | nil => exact List.not_mem_nil
  | cons input rest ih =>
    cases input with
    | request r =>
      rw [takeReset, Option.map_eq_none_iff] at h
      simpa using ih h
    | reset b => cases h

theorem hungStep_cases (s : State) : (∃ t, hungStep s = .next t) ∨
    (hungStep s = .fault .transportNeverAnswers ∧ ∀ a, Input.reset a ∉ s.inputs) := by
  unfold hungStep
  split
  · exact .inl ⟨_, rfl⟩
  · rename_i hnone
    exact .inr ⟨rfl, not_mem_of_takeReset_eq_none hnone⟩

/-- Settles O7: only the waiting block's step (`hungStep_cases`) can stop the machine; every other place of the sequencer has an
equation that answers a next state. -/
theorem stepStopsOnlyWhenHung : Obligations.StepStopsOnlyWhenHung := by
  intro s
  match hs : s.sequencer with
  | .boot =>
    rw [step_boot hs]
    exact .inl (exec_answers .init s)
  | .waiting a v =>
    rw [step_waiting hs]
    exact (hungStep_cases s).imp_right fun ⟨hfault, hnone⟩ => ⟨hfault, ⟨a, v, rfl⟩, hnone⟩
  | .resetting a => exact .inl ⟨_, step_resetting hs⟩
  | .idle =>
    match hi : s.inputs with
    | [] => exact .inl ⟨s, step_idle hs hi⟩
    | .reset a :: rest => exact .inl ⟨_, step_idle_reset hs hi⟩
    | .request r :: rest =>
      match hd : decode r with
      | .ok i =>
        rw [step_idle_request hs hi hd]
        exact .inl (exec_answers i _)
      | .error e => exact .inl ⟨_, step_idle_illegal hs hi hd⟩

end Sys2Proof.Machine
end

