-- ==== Sys2Proof/Proofs/Hazards.lean ====
section
/-! The hazards of the mirrors and of the transport: a raw command goes past the mirrors (70_reset_and_hazards.md R205), and a
write never answered leaves the operation waiting (R208, 20_memory.md R32). -/

namespace Sys2Proof.Machine

/-- Settles O21: SEND_COMMAND stores no register, so the toggle after it goes as from the registers before it
(`exec_undisturbed_pair`). -/
theorem toggleAfterRawCommandSendsMirror : Obligations.ToggleAfterRawCommandSendsMirror := by
  intro byte i s hc hr hmem h
  have htoggle : ∀ i ∈ ([.displayOn, .displayOff, .cursorOn, .cursorOff, .blinkOn, .blinkOff, .leftToRight, .rightToLeft,
      .autoscrollOn, .autoscrollOff] : List Instr), i ≠ .init ∧ i.wf = true := by decide
  obtain ⟨hi, hw⟩ := htoggle i hmem
  obtain ⟨t, u, hraw, htog, hsame, hstored, htrace⟩ :=
    exec_undisturbed_pair (i := .sendCommand byte) hc hr Instr.noConfusion hi rfl hw h
  exact ⟨t, u, hraw, hsame, htog, hstored, htrace⟩

/-- INIT and every admitted operation with legal operands, its write `k` never answered: that write is outstanding, and nothing
has been posted or taken. -/
theorem exec_waits {i : Instr} {s : State} {k : Nat} (hc : s.cfg = Config.defaults)
    (hadmitted : i = .init ∨ s.phase = .ready) (hw : i.wf = true) (h : s.hangsAt k (planned i s)) :
    ∃ t v, exec i s = .next t ∧ writeAt k (planned i s) = some (s.i2cAddr, v) ∧
      t.sequencer = .waiting s.i2cAddr v ∧ t.responses = s.responses ∧ t.inputs = s.inputs := by
  by_cases hi : i = .init
  · subst hi
    obtain ⟨v, hv, hexec⟩ := exec_init_hanging hc h
    exact ⟨_, v, hexec, hv, by simp, by simp, by simp⟩
  · obtain ⟨v, hv, hexec⟩ := exec_hanging hc hi hw (hadmitted.resolve_left hi) h
    exact ⟨_, v, hexec, hv, by simp [stored_i2cAddr], by simp [stored_responses], by simp [stored_inputs]⟩

/-- Settles O35: the ports of a block that waits on a write (`exec_waits`) show that write and no response. -/
theorem unansweredWriteHangsOperation : Obligations.UnansweredWriteHangsOperation := by
  intro i k s hc hadmitted hw h
  obtain ⟨t, v, hexec, hv, hs, hresponses, hinputs⟩ := exec_waits hc hadmitted hw h
  have hready : t.reqReady = false := by simp [State.reqReady, hs]
  have hvalid : t.rspValid = false := by rw [State.rspValid, hready, Bool.false_and]
  refine ⟨t, v, hexec, hresponses, hready, hvalid, ?_, ?_, ?_, hv, ?_, ?_, hinputs⟩
  · simp [State.rspStatus, hvalid]
  · simp [State.newResponse, hresponses]
  · rw [State.twValid, hs]
  · rw [State.twAddr, hs]
  · rw [State.twData, hs]

end Sys2Proof.Machine
end

