-- ==== Sys2Proof/Proofs/MinimumDelays.lean ====
section
/-! The sums of minimum delays (70_reset_and_hazards.md R209), piece by piece of a planned trace, with the durations of R6. -/

namespace Sys2Proof.Machine

theorem minDelays_append (c : Config) (xs ys : List Event) : minDelays c (xs ++ ys) = minDelays c xs + minDelays c ys := by
  simp [minDelays]

/-- The holds after enable set and after enable clear, 500 and 100 microseconds. -/
theorem minDelays_pulseEvents (s : State) (p : Byte) : minDelays Config.defaults (pulseEvents s p) = 600 := by
  simp [minDelays, pulseEvents, Event.minDelay, Config.durationOf, Config.defaults]

theorem minDelays_byteEvents (s : State) (v : Byte) (data : Bool) :
    minDelays Config.defaults (byteEvents s v data) = 1200 := by
  rw [byteEvents, minDelays_append, minDelays_pulseEvents, minDelays_pulseEvents]

theorem minDelays_commandEvents (s : State) (v : Byte) : minDelays Config.defaults (commandEvents s v) = 1200 :=
  minDelays_byteEvents s v false

theorem minDelays_textEvents (s : State) (text : List Byte) :
    minDelays Config.defaults (textEvents s text) = 1200 * text.length := by
  induction text with
  | nil => rfl
  | cons c cs ih =>
    have htext : textEvents s (c :: cs) = byteEvents s c true ++ textEvents s cs := List.flatMap_cons
    rw [htext, minDelays_append, minDelays_byteEvents, ih, List.length_cons]
    omega

/-- The delays between the pulses, with the durations of R6. -/
theorem minDelays_delay : minDelays Config.defaults [.delay .initSettle] = 100 ∧
    minDelays Config.defaults [.delay .initFinal] = 5000 ∧ minDelays Config.defaults [.delay .clearHome] = 200000 :=
  ⟨rfl, rfl, rfl⟩

/-- Four pulses with three settle delays, four commands and the final delay. -/
theorem minDelays_initEvents (s : State) : minDelays Config.defaults (initEvents s) = 12500 := by
  obtain ⟨hsettle, hfinal, -⟩ := minDelays_delay
  simp only [initEvents, minDelays_append, minDelays_pulseEvents, minDelays_commandEvents, hsettle, hfinal]

theorem minDelays_commandEvents_clearHome (s : State) (v : Byte) :
    minDelays Config.defaults (commandEvents s v ++ [.delay .clearHome]) = 201200 := by
  obtain ⟨-, -, hclear⟩ := minDelays_delay
  rw [minDelays_append, minDelays_commandEvents, hclear]

/-- The planned trace of an operation holds the delays of R209's table. -/
theorem minDelays_plannedFrom (i : Instr) (t : State) : minDelays Config.defaults (plannedFrom i t) = minDelayOf i := by
  cases i with
  | init => exact minDelays_initEvents t
  | clear | home => exact minDelays_commandEvents_clearHome t _
  | write text => exact minDelays_textEvents t text
  | writeln text line =>
    rw [plannedFrom, minDelays_append, minDelays_commandEvents, minDelays_textEvents, minDelayOf]
    omega
  | sendData byte => exact minDelays_byteEvents t byte true
  | _ => exact minDelays_commandEvents t _

/-- An operation that is refused, by its phase or by its operands, adds nothing to the trace. -/
theorem exec_refused_trace {i : Instr} {s : State} (hc : s.cfg = Config.defaults) (hi : i ≠ .init)
    (h : s.phase ≠ .ready ∨ i.wf = false) : ∃ t, exec i s = .next t ∧ t.trace = s.trace := by
  by_cases hr : s.phase = .ready
  · have hl : operandsLegal s.cfg i = false := by rw [hc, operandsLegal_defaults, h.resolve_left (not_not_intro hr)]
    exact ⟨_, exec_illegal hr hl, rfl⟩
  · exact ⟨_, exec_notReady hi hr, rfl⟩

/-- Settles O43: an undisturbed operation makes its planned trace (`exec_undisturbed_trace`), whose delays are the table's
(`minDelays_plannedFrom`). -/
theorem minimumDelaySums : Obligations.MinimumDelaySums := by
  refine ⟨fun i s hc hadmitted hw h => ?_, fun i s => exec_refused_trace⟩
  obtain ⟨t, hexec, htrace, -⟩ := exec_undisturbed_trace hc hadmitted hw h
  exact ⟨t, planned i s, hexec, htrace, minDelays_plannedFrom i (stored i s)⟩

end Sys2Proof.Machine
end
